-- ==== Sys2Proof/Word.lean ====
section
/-! DEFINITION. The two word widths of the block: an 8-bit buffer cell or character code (rules R10, R30, R31) and a
32-bit host-visible register (rule R24). Every value is unsigned (rule R9). -/

namespace Sys2Proof

/-- One cell of IBUF or OBUF, one character code (rules R10, R30, R31). -/
abbrev Byte := BitVec 8

/-- One host-visible register, and one command word (rules R24, R75). -/
abbrev Word := BitVec 32

end Sys2Proof
end

