-- ==== Sys2Proof/Syntax.lean ====
section
/-! DEFINITION. The instructions of the block: its six operations, one constructor for each row of
spec/opcode_table.json (rules R1, R78, R96). A command has no operand field (rule R77), so no constructor has one. -/

namespace Sys2Proof

/-- The six operations; their operands (IBUF, ILEN, OBUF, OLEN) are implicit (rule R77). -/
inductive Instr where
  /-- bytes to 5-bit symbols with `=` padding, CMD `0x00000000` (rule R112) -/
  | enc5
  /-- 5-bit symbols to bytes, CMD `0x00000001` (rule R122) -/
  | dec5
  /-- bytes to 6-bit symbols with `=` padding, CMD `0x00000002` (rule R113) -/
  | enc6
  /-- 6-bit symbols to bytes, CMD `0x00000003` (rule R123) -/
  | dec6
  /-- bytes to base-85 digits, CMD `0x00000004` (rule R132) -/
  | enc85
  /-- base-85 digits to bytes, CMD `0x00000005` (rule R142) -/
  | dec85
  deriving DecidableEq, Repr

end Sys2Proof
end

