-- ==== Sys2Proof/Decode.lean ====
section
/-! DEFINITION. The command word (rules R75 to R79): the decoder, total on all 32-bit words and rejecting by name, and
the encoder, written from the opcode map. A register is accessed whole, so a command word has no byte order
(rules R24, R59). -/

namespace Sys2Proof

/-- Why a word is not a command (rule R79). -/
inductive DecodeError where
  /-- a bit of `RSV` (31:3) is set -/
  | reservedBits
  /-- `CODEC` (2:1) is `0b11` -/
  | reservedCodec
  deriving DecidableEq, Repr

/-- `RSV`, bits 31:3 of a command word (rule R75). -/
def fieldRsv (v : Word) : BitVec 29 := v.extractLsb' 3 29

/-- `CODEC`, bits 2:1 of a command word (rule R75). -/
def fieldCodec (v : Word) : BitVec 2 := v.extractLsb' 1 2

/-- `DIR`, bit 0 of a command word: set for the decoder (rules R75, R76). -/
def fieldDir (v : Word) : Bool := v.getLsbD 0

/-- The operation that `CODEC` and `DIR` select, none for the reserved codec (rule R76). -/
def selectOperation (codec : BitVec 2) (dir : Bool) : Option Instr :=
  match codec.toNat, dir with
  | 0, false => some .enc5
  | 0, true => some .dec5
  | 1, false => some .enc6
  | 1, true => some .dec6
  | 2, false => some .enc85
  | 2, true => some .dec85
  | _, _ => none

/-- The operation a command word selects (rules R76, R78), or why there is none (rule R79). -/
def decode (v : Word) : Except DecodeError Instr :=
  if fieldRsv v ≠ 0 then .error .reservedBits
  else
    match selectOperation (fieldCodec v) (fieldDir v) with
    | some i => .ok i
    | none => .error .reservedCodec

/-- The test of the command trigger (rule R80): `v[31:3] != 0 or v[2:1] == 0b11`. -/
def illegalCommand (v : Word) : Bool := fieldRsv v ≠ 0 || fieldCodec v == 3

/-- The command value of an operation: the opcode map of rule R78. -/
def encode : Instr → Word
  | .enc5 => 0x00000000
  | .dec5 => 0x00000001
  | .enc6 => 0x00000002
  | .dec6 => 0x00000003
  | .enc85 => 0x00000004
  | .dec85 => 0x00000005

/-- The word of a table row's bits: its low `nbits` bits, the bits above them 0. -/
def tableWord (nbits w : Nat) : Word := BitVec.ofNat 32 (w % 2 ^ nbits)

/-- The instruction the decoder reads from a row of spec/opcode_table.json whose bits are `w`; bit 0 is the least
significant bit of the one 32-bit command word. A row of more than 32 bits is no command. -/
def decodeTableWord (nbits w : Nat) : Option Instr :=
  if 32 < nbits then none
  else
    match decode (tableWord nbits w) with
    | .ok i => some i
    | .error _ => none

end Sys2Proof
end

