-- ==== Sys2Proof/Config.lean ====
section
/-! DEFINITION. What an instance of the block fixes (rule R7: `IN_MAX`, `SYM5`, `SYM6`), as plain data, and the free values: what the two buffers hold after a reset (rules R30, R31, R34). -/

namespace Sys2Proof

/-- The parameters of rule R7. "The model takes each as an argument": the machine's state carries one value of this
type, no step changes it, and a statement over all states is a statement over all parameters
(notes/assumptions/1.md). -/
structure Params where
  /-- `IN_MAX`, the capacity of IBUF in bytes; OPEN, `1 <= IN_MAX <= 2^28` -/
  inMax : Nat
  /-- `SYM5`: the character code of value `v` is entry `v`; 32 entries -/
  sym5 : List Byte
  /-- `SYM6`: the character code of value `v` is entry `v`; 64 entries -/
  sym6 : List Byte
  deriving DecidableEq, Repr

/-- FREE VALUE: what cell `i` of IBUF holds after reset number `r`, until it is written (rules R30, R34: "unspecified:
any byte values; stable until written"). It has no body, so nothing can be proved of its value
(notes/assumptions/3.md). -/
opaque Config.ibufAtReset (r i : Nat) : Byte

/-- FREE VALUE: what cell `j` of OBUF holds after reset number `r`, until it is written (rules R31, R34). No port
transaction can show it while OLEN tells the truth (notes/assumptions/4.md). -/
opaque Config.obufAtReset (r j : Nat) : Byte

end Sys2Proof
end

