-- ==== Sys2Proof/Machine/Tables.lean ====
section
/-! DEFINITION. The constants of the block: the default symbol tables (rules R84, R85), the padding tables (rule R90),
the named characters (rule R10), the base-85 constants (rules R87, R93) and `OUT_MAX` (rule R7). They are read-only and no transaction
reaches them (rules R32, R182). -/

namespace Sys2Proof

/-- `OUT_MAX = 4 * IN_MAX + 4`, the capacity of OBUF in bytes (rules R7, R31, R53). -/
def Params.outMax (p : Params) : Nat := 4 * p.inMax + 4

end Sys2Proof

namespace Sys2Proof.Machine

/-- The default `SYM5`, index 0 first: `A` to `Z`, then `2` to `7` (rule R84; notes/assumptions/2.md). -/
def defaultSym5 : List Byte :=
  [0x41, 0x42, 0x43, 0x44, 0x45, 0x46, 0x47, 0x48, 0x49, 0x4A, 0x4B, 0x4C, 0x4D, 0x4E, 0x4F, 0x50] ++
  [0x51, 0x52, 0x53, 0x54, 0x55, 0x56, 0x57, 0x58, 0x59, 0x5A, 0x32, 0x33, 0x34, 0x35, 0x36, 0x37]

/-- The default `SYM6`, index 0 first: `A` to `Z`, `a` to `z`, `0` to `9`, `+`, `/` (rule R85;
notes/assumptions/2.md). -/
def defaultSym6 : List Byte :=
  [0x41, 0x42, 0x43, 0x44, 0x45, 0x46, 0x47, 0x48, 0x49, 0x4A, 0x4B, 0x4C, 0x4D,
   0x4E, 0x4F, 0x50, 0x51, 0x52, 0x53, 0x54, 0x55, 0x56, 0x57, 0x58, 0x59, 0x5A] ++
  [0x61, 0x62, 0x63, 0x64, 0x65, 0x66, 0x67, 0x68, 0x69, 0x6A, 0x6B, 0x6C, 0x6D,
   0x6E, 0x6F, 0x70, 0x71, 0x72, 0x73, 0x74, 0x75, 0x76, 0x77, 0x78, 0x79, 0x7A] ++
  [0x30, 0x31, 0x32, 0x33, 0x34, 0x35, 0x36, 0x37, 0x38, 0x39, 0x2B, 0x2F]

/-- The parameters of the instance that `State.reset` describes: the spec's default tables, and `IN_MAX = 16`, the value
of the spec's own vectors (95_test_vectors.md sections 2.7, 2.8 and 3). DESIGN CHOICE (notes/assumptions/1.md). -/
def defaultParams : Params := { inMax := 16, sym5 := defaultSym5, sym6 := defaultSym6 }

/-- `PAD5[r]`, `r = L mod 8`: the number of `=` written after `L` symbols (rule R90). -/
def pad5 : List Nat := [0, 0, 6, 0, 4, 3, 0, 1]

/-- `PAD6[r]`, `r = L mod 4` (rule R90). -/
def pad6 : List Nat := [0, 0, 2, 1]

/-- The padding character `=` (rules R10, R88). -/
def padChar : Byte := 0x3D

/-- The compression symbol `z` of base-85 (rules R10, R88). -/
def zeroChar : Byte := 0x7A

/-- The largest 32-bit value, the bound of a base-85 group (rules R140, R143). -/
def maxGroup : Nat := 0xFFFFFFFF

/-- The filler digit of a short base-85 group (rules R6, R140). -/
def fillerDigit : Nat := 84

/-- The character of a base-85 digit: code `d + 33` (rule R87). -/
def digitChar (d : Nat) : Byte := BitVec.ofNat 8 (d + 33)

/-- The digit of a character: `c - 33` for `33 <= c <= 117`, none for any other code (rule R87). -/
def charDigit (c : Byte) : Option Nat :=
  if 33 ≤ c.toNat ∧ c.toNat ≤ 117 then some (c.toNat - 33) else none

end Sys2Proof.Machine
end

