-- ==== Sys2Proof/Machine/State.lean ====
section
/-! DEFINITION. The state of the block as plain data: the five host-visible registers (rule R24), the four hidden
datapath registers (rule R21), the two buffers (rules R30, R31); beside them the model's own fields: the parameters
(rule R7), what the outside world does next and what the port has answered (rule R54), and the number of resets so far.
Also the error codes (rule R150), the port's transactions and answers (rule R54), and the reset state (rule R34). -/

namespace Sys2Proof.Machine

/-- The five errors (rule R150). -/
inductive ErrorCode where
  /-- a scanned character is not in the active alphabet -/
  | eSym
  /-- `z` inside a base-85 group -/
  | eZpos
  /-- a base-85 group above `2^32 - 1` -/
  | eRange
  /-- the value written to CMD is not a command -/
  | eIllop
  /-- a legal command while `ILEN > IN_MAX` -/
  | eLen
  deriving DecidableEq, Repr

/-- One host transaction on the port (rule R54). An address is a pair of a space and an index (rule R51); register
numbers and indices are natural numbers, since the port answers `NAK` outside the ranges (rule R55). -/
inductive Transaction where
  /-- `RD REG[k]` -/
  | rdReg (k : Nat)
  /-- `WR REG[k], v` -/
  | wrReg (k : Nat) (v : Word)
  /-- `RD IBUF[i]` -/
  | rdIbuf (i : Nat)
  /-- `WR IBUF[i], b` -/
  | wrIbuf (i : Nat) (b : Byte)
  /-- `RD OBUF[j]` -/
  | rdObuf (j : Nat)
  /-- `WR OBUF[j], b` -/
  | wrObuf (j : Nat) (b : Byte)
  deriving DecidableEq, Repr

/-- The port's answer to one transaction (rule R54). -/
inductive Answer where
  /-- `OK` to a write -/
  | ok
  /-- `OK(v)` to a register read -/
  | okWord (v : Word)
  /-- `OK(b)` to a buffer read -/
  | okByte (b : Byte)
  /-- `NAK` (rule R55) -/
  | nak
  deriving DecidableEq, Repr

/-- One thing the outside world does at one instant between two engine actions (rules R22, R54, R62, R180). -/
inductive Input where
  /-- the host performs a transaction -/
  | txn (t : Transaction)
  /-- the host pauses and the engine performs its enabled action, if it has one (notes/assumptions/6.md) -/
  | engine
  /-- the reset input is applied (rule R180) -/
  | reset
  deriving DecidableEq, Repr

/-- A buffer: the cells written since reset, as (index, byte) pairs with strictly rising indices. An index that is not
listed has not been written since reset; what it reads as is `State.ibufByte` or `State.obufByte`
(notes/assumptions/9.md). -/
abbrev Memory := List Host.Cell

/-- The whole state. The first eleven fields are the spec's (rule R20); the last four are the model's own. -/
structure State where
  /-- `CMD`, register 0 (rule R25) -/
  cmd : Word
  /-- `STATUS`, register 1 (rule R26) -/
  status : Word
  /-- `ILEN`, register 2 (rule R27) -/
  ilen : Word
  /-- `OLEN`, register 3 (rule R28) -/
  olen : Word
  /-- `EPOS`, register 4 (rule R29) -/
  epos : Word
  /-- `IBUF` (rule R30) -/
  ibuf : Memory
  /-- `OBUF` (rule R31) -/
  obuf : Memory
  /-- `ACC`, the hidden accumulator, 33 bits (rule R21) -/
  acc : BitVec 33
  /-- `NB`, the hidden count that goes with `ACC`, 4 bits (rule R21) -/
  nb : BitVec 4
  /-- `IP`, the hidden input cursor (rules R21, R23) -/
  ip : Word
  /-- `OP`, the hidden output cursor (rule R21) -/
  op : Word
  /-- MODEL'S OWN: the parameters of rule R7, which no step changes (notes/assumptions/1.md) -/
  par : Params
  /-- MODEL'S OWN: what the outside world does next, first element first (rules R54, R62; notes/assumptions/6.md) -/
  inputs : List Input
  /-- MODEL'S OWN: the port's answers so far, oldest first (rule R54; notes/assumptions/6.md) -/
  answers : List Answer
  /-- MODEL'S OWN: how many times reset was applied: which draw of the free values holds (notes/assumptions/3.md) -/
  resets : Nat
  deriving DecidableEq, Repr

/-- Why a step stops. All four can arise only in states that no run from reset reaches; each is SAFE, since the model
stops where the spec says nothing (notes/assumptions/10.md). -/
inductive Fault where
  /-- An operation while `BUSY = 1` and `IP > ILEN`, where rule R22 enables neither `step` nor `end`. Raised by
  `operate`; safe. -/
  | noActionEnabled
  /-- `BUSY = 1` while CMD holds no legal command: no operation is running (rules R22, R80). Raised by `engineTurn`;
  safe. -/
  | busyWithoutCommand
  /-- The engine reads IBUF at an index that does not exist, `>= IN_MAX` (rules R51, R57). Raised by `fetchInput` and
  `fetchChunk`; safe. -/
  | outsideIbuf
  /-- The engine writes OBUF at an index that does not exist, `>= OUT_MAX` (rules R51, R58). Raised by `emitAll`;
  safe. -/
  | outsideObuf
  deriving DecidableEq, Repr

/-- Why the model has no meaning for an instruction. -/
inductive Refusal where
  /-- The instruction of this mnemonic is not modelled. Raised only by a rejected arm of `exec`, and no arm is
  rejected; safe. -/
  | notModelled (mnemonic : String)
  deriving DecidableEq, Repr

/-- The outcome of an action. -/
abbrev Result := Host.Outcome State Fault Refusal

/-- The state right after reset number `r` of an instance with parameters `p` (rules R34, R180): the five registers are
0, nothing of either buffer is written. The hidden registers are "unspecified and unobservable"; they are 0 here
(DESIGN CHOICE, notes/assumptions/5.md). -/
def State.atReset (p : Params) (r : Nat) (inputs : List Input) (answers : List Answer) : State where
  cmd := 0
  status := 0
  ilen := 0
  olen := 0
  epos := 0
  ibuf := []
  obuf := []
  acc := 0
  nb := 0
  ip := 0
  op := 0
  par := p
  inputs := inputs
  answers := answers
  resets := r

/-- The machine right after reset, before the host has done anything (rules R34, R180, R183). -/
def State.reset : State := State.atReset defaultParams 0 [] []

end Sys2Proof.Machine
end

