-- ==== Sys2Proof/Machine/Flags.lean ====
section
/-! DEFINITION. The block's only flags, the fields of STATUS (rules R26, R33): the words STATUS takes and the accessors
of its fields. There are no arithmetic flags (rule R33). -/

namespace Sys2Proof.Machine

/-- `ECODE` of an error (rule R150). -/
def errorCode : ErrorCode → Nat
  | .eSym => 1
  | .eZpos => 2
  | .eRange => 3
  | .eIllop => 4
  | .eLen => 5

/-- STATUS while an operation runs: `BUSY = 1` and nothing else (rules R26, R80). -/
def statusBusy : Word := 0x01

/-- STATUS after `finish()`: `DONE = 1` and nothing else (rules R26, R155). -/
def statusDone : Word := 0x02

/-- STATUS after an error: `(ECODE << 4) | 0x04` (rules R26, R156). -/
def statusError (e : ErrorCode) : Word := (BitVec.ofNat 32 (errorCode e) <<< 4) ||| 0x04

/-- `STATUS.BUSY`, bit 0 (rule R26). -/
def State.busy (s : State) : Bool := s.status.getLsbD 0

/-- `STATUS.DONE`, bit 1 (rule R26). -/
def State.done (s : State) : Bool := s.status.getLsbD 1

/-- `STATUS.ERR`, bit 2 (rule R26). -/
def State.err (s : State) : Bool := s.status.getLsbD 2

/-- `STATUS.ECODE`, bits 7:4 (rules R26, R150). -/
def State.ecode (s : State) : BitVec 4 := s.status.extractLsb' 4 4

end Sys2Proof.Machine
end

