-- ==== Sys2Proof/Machine/Operands.lean ====
section
/-! DEFINITION. The data encodings the operations use as operands: the symbol tables and their inverses (rules R83,
R86), the padding rule (rule R90), the family parameters (rules R110, R120), and the arithmetic on the accumulator that
the pseudocode shares (rules R112, R113, R122, R123, R132, R142). All values are exact natural numbers (rule R9). -/

namespace Sys2Proof.Machine

/-- Everything that differs between the two bit-grouped families (rules R110, R120). -/
structure Grouped where
  /-- `w`, the chunk width in bits -/
  width : Nat
  /-- `F`, the framing width in symbols -/
  frame : Nat
  /-- the symbol table -/
  table : List Byte
  /-- the padding table -/
  pad : List Nat
  deriving DecidableEq, Repr

/-- The 5-bit family: `w = 5`, `F = 8`, `SYM5`, `PAD5` (rules R76, R110, R120). -/
def grouped5 (p : Params) : Grouped := { width := 5, frame := 8, table := p.sym5, pad := pad5 }

/-- The 6-bit family: `w = 6`, `F = 4`, `SYM6`, `PAD6` (rules R76, R110, R120). -/
def grouped6 (p : Params) : Grouped := { width := 6, frame := 4, table := p.sym6, pad := pad6 }

/-- `SYMw[v]` (rule R83). The operations pass only `w`-bit values, so with a table of `2^w` entries the lookup is never
out of range. -/
def Grouped.forward (g : Grouped) (v : Nat) : Byte := g.table.getD v 0

/-- `INVw[c]`: `some v` for `(ok = 1, v)`, none for `ok = 0` (rule R86). The tables are injective (rule R7), so the
least index is the only one (notes/assumptions/17.md). -/
def Grouped.inverse (g : Grouped) (c : Byte) : Option Nat := g.table.findIdx? (fun e => e == c)

/-- `PADw[L mod F]`: how many `=` follow `L` symbols (rules R89, R90). -/
def Grouped.padCount (g : Grouped) (symbols : Nat) : Nat := g.pad.getD (symbols % g.frame) 0

/-- `(ACC << k) | x` (rules R57, R112, R122). -/
def shiftIn (acc k x : Nat) : Nat := (acc <<< k) ||| x

/-- `ACC & (2^NB - 1)`: the `NB` youngest bits (rules R112, R113, R122, R123). -/
def lowBits (acc nb : Nat) : Nat := acc &&& (2 ^ nb - 1)

/-- The symbols a `while NB >= w` loop of ENC5 and ENC6 takes out of the accumulator, oldest first (rules R112, R113);
the first argument bounds the number of turns. -/
def drainSymbols (w : Nat) : Nat → Nat → Nat → List Nat
  | 0, _, _ => []
  | fuel + 1, acc, nb =>
    if w ≤ nb then lowBits (acc >>> (nb - w)) w :: drainSymbols w fuel (lowBits acc (nb - w)) (nb - w) else []

/-- `NB` when that loop ends (rules R112, R113). -/
def drainCount (w : Nat) : Nat → Nat → Nat
  | 0, nb => nb
  | fuel + 1, nb => if w ≤ nb then drainCount w fuel (nb - w) else nb

/-- `ACC` when that loop ends (rules R112, R113). -/
def drainAcc (w : Nat) : Nat → Nat → Nat → Nat
  | 0, acc, _ => acc
  | fuel + 1, acc, nb => if w ≤ nb then drainAcc w fuel (lowBits acc (nb - w)) (nb - w) else acc

/-- The short last window, left-aligned and zero-filled: `(ACC << (w - NB)) & (2^w - 1)` (rules R112, R113). -/
def lastWindow (w acc nb : Nat) : Nat := lowBits (acc <<< (w - nb)) w

/-- The 32-bit big-endian value of a chunk of up to 4 bytes, a short chunk left-aligned (rules R59, R132). -/
def chunkValue (bytes : List Byte) : Nat :=
  (bytes.foldl (fun acc b => shiftIn acc 8 b.toNat) 0) <<< (8 * (4 - bytes.length))

/-- Digit `i` of a 32-bit value, digit 0 most significant: `(V div 85^(4-i)) mod 85` (rules R131, R132). -/
def digitOf (v i : Nat) : Nat := v / 85 ^ (4 - i) % 85

/-- What ENC85 writes for a chunk of `m` bytes of value `v`: `z` for a full zero chunk, otherwise `m + 1` digit
characters (rules R132, R133). -/
def chunkChars (m v : Nat) : List Byte :=
  if m = 4 ∧ v = 0 then [zeroChar] else (List.range (m + 1)).map (fun i => digitChar (digitOf v i))

/-- `ACC <- ACC * 85 + 84`, `k` times (rule R142, `end`). -/
def fillGroup : Nat → Nat → Nat
  | 0, acc => acc
  | k + 1, acc => fillGroup k (acc * 85 + fillerDigit)

/-- The first `k` of the 4 big-endian bytes of a 32-bit value: `V[31:24]`, `V[23:16]`, `V[15:8]`, `V[7:0]`
(rules R59, R142). -/
def leadingBytes (k v : Nat) : List Byte := (List.range k).map (fun j => BitVec.ofNat 8 (v >>> (24 - 8 * j)))

end Sys2Proof.Machine
end

