-- ==== Sys2Proof/Machine/Ops.lean ====
section
/-! DEFINITION. The named operations over buffers and registers: a buffer's cells, the engine's reads and writes
(rules R57, R58), the two exits of an operation (rule R155, `finish()`; rule R156, `raise`, the block's whole "trap
entry", from which rule R157 says there is no return), the command trigger (rule R80), reset (rule R180), and how an
operation's three guarded pieces run (rule R22). -/

namespace Sys2Proof.Machine

/-- The canonical form of a buffer: indices strictly rising (so none repeats). No listed cell reads as an unlisted one,
since an unlisted cell has no written value at all (notes/assumptions/9.md). -/
abbrev Memory.wf (m : Memory) : Prop := m.Pairwise (fun a b => a.1 < b.1)

/-- The byte written last at an index since reset, none where nothing was written. -/
def Memory.lookup : Memory → Nat → Option Byte
  | [], _ => none
  | (b, x) :: rest, a => if a = b then some x else Memory.lookup rest a

/-- `m` with the byte `x` written at index `a`, in canonical form. -/
def Memory.write : Memory → Nat → Byte → Memory
  | [], a, x => [(a, x)]
  | (b, y) :: rest, a, x =>
    if a < b then (a, x) :: (b, y) :: rest
    else if a = b then (a, x) :: rest
    else (b, y) :: Memory.write rest a x

/-- What cell `i` of IBUF holds: the byte written last, or what the reset drew (rules R30, R34). -/
def State.ibufByte (s : State) (i : Nat) : Byte := (Memory.lookup s.ibuf i).getD (Config.ibufAtReset s.resets i)

/-- What cell `j` of OBUF holds: the byte the engine wrote last, or what the reset drew (rules R31, R34). -/
def State.obufByte (s : State) (j : Nat) : Byte := (Memory.lookup s.obuf j).getD (Config.obufAtReset s.resets j)

/-- `s` with the answer of one transaction recorded (rule R54). -/
def State.pushAnswer (a : Answer) (s : State) : State := { s with answers := s.answers ++ [a] }

/-- `s` with the outside world's next inputs `rest`. -/
def State.setInputs (rest : List Input) (s : State) : State := { s with inputs := rest }

/-- `ILEN <- v` (rules R27, R54). -/
def State.setIlen (v : Word) (s : State) : State := { s with ilen := v }

/-- `IBUF[i] <- b` (rules R30, R54). -/
def State.storeIbuf (i : Nat) (b : Byte) (s : State) : State := { s with ibuf := Memory.write s.ibuf i b }

/-- `ACC <- acc; NB <- nb`, narrowed to 33 and 4 bits; rule R21 bounds both, so nothing is lost in a state that
rule R21 describes (notes/assumptions/12.md). -/
def State.setAcc (acc nb : Nat) (s : State) : State := { s with acc := BitVec.ofNat 33 acc, nb := BitVec.ofNat 4 nb }

/-- `IP <- IP + n` (rules R21, R23). -/
def State.advance (n : Nat) (s : State) : State := { s with ip := s.ip + BitVec.ofNat 32 n }

/-- `emit(b)` without its range check: `OBUF[OP] <- b; OP <- OP + 1` (rules R11, R58). -/
def State.emit (b : Byte) (s : State) : State :=
  { s with obuf := Memory.write s.obuf s.op.toNat b, op := s.op + 1 }

/-- The state after `finish()`, the success exit (rule R155): `OLEN <- OP; STATUS <- 0x02`. -/
def State.finished (s : State) : State := { s with olen := s.op, status := statusDone }

/-- The state after `raise e(pos)`, the error exit (rule R156):
`OLEN <- 0; EPOS <- pos; STATUS <- (ECODE << 4) | 0x04`. -/
def State.raised (e : ErrorCode) (pos : Nat) (s : State) : State :=
  { s with olen := 0, epos := BitVec.ofNat 32 pos, status := statusError e }

/-- `CMD <- v; OLEN <- 0; EPOS <- 0; STATUS <- st`: what every command write does (rule R80). -/
def State.latchCommand (v st : Word) (s : State) : State := { s with cmd := v, olen := 0, epos := 0, status := st }

/-- `ACC <- 0; NB <- 0; IP <- 0; OP <- 0`: the rest of `start` (rules R21, R80). -/
def State.clearDatapath (s : State) : State := { s with acc := 0, nb := 0, ip := 0, op := 0 }

/-- The state after reset is applied (rules R180, R181): the reset state of rule R34, whatever the block was doing. The
parameters, what the outside world does next and the answers already given are not the block's state, and both buffers
hold a new draw (notes/assumptions/14.md). -/
def State.afterReset (s : State) : State := State.atReset s.par (s.resets + 1) s.inputs s.answers

/-- The command trigger (rule R80), for a write of `v` to CMD that the port does not refuse: one atomic action.
`E_ILLOP` is tested first (rules R81, R154). -/
def commandTrigger (v : Word) (s : State) : State :=
  if illegalCommand v then s.latchCommand v (statusError .eIllop)
  else if s.par.inMax < s.ilen.toNat then s.latchCommand v (statusError .eLen)
  else (s.clearDatapath).latchCommand v statusBusy

/-- Run `f` on the next state of an action; a stop stays a stop. -/
def andThen (r : Result) (f : State → Result) : Result :=
  match r with
  | .next s => f s
  | .fault e => .fault e
  | .refused e => .refused e

/-- The engine's read `IBUF[IP]`, given to `k` (rule R57). -/
def fetchInput (s : State) (k : Byte → Result) : Result :=
  if s.ip.toNat < s.par.inMax then k (s.ibufByte s.ip.toNat) else .fault .outsideIbuf

/-- The engine's reads `IBUF[IP], ..., IBUF[IP + m - 1]`, given to `k` (rule R57, ENC85). -/
def fetchChunk (m : Nat) (s : State) (k : List Byte → Result) : Result :=
  if s.ip.toNat + m ≤ s.par.inMax then k ((List.range m).map (fun j => s.ibufByte (s.ip.toNat + j)))
  else .fault .outsideIbuf

/-- `emit` each byte in turn (rule R58). -/
def emitAll : List Byte → State → Result
  | [], s => .next s
  | b :: rest, s => if s.op.toNat < s.par.outMax then emitAll rest (s.emit b) else .fault .outsideObuf

/-- `finish()` (rule R155). -/
def finish (s : State) : Result := .next s.finished

/-- `raise e(pos)` (rule R156); nothing of the action that calls it runs afterwards. -/
def raise (e : ErrorCode) (pos : Nat) (s : State) : Result := .next (s.raised e pos)

/-- The next atomic action of operation `i` (rules R11, R22): `start`, the command trigger with the command word of `i`,
while no operation runs (rule R80); `step` while one runs and `IP < ILEN`; `end` at `IP = ILEN`
(notes/assumptions/8.md). -/
def operate (i : Instr) (stepAction endAction : State → Result) (s : State) : Result :=
  if s.busy then
    if s.ip.toNat < s.ilen.toNat then stepAction s
    else if s.ip.toNat = s.ilen.toNat then endAction s
    else .fault .noActionEnabled
  else .next (commandTrigger (encode i) s)

end Sys2Proof.Machine
end

