-- ==== Sys2Proof/Machine/Base85.lean ====
section
/-! DEFINITION. The base-85 operations ENC85 (42_base85_encode.md) and DEC85 (43_base85_decode.md). -/

namespace Sys2Proof.Machine

/-- `step` of ENC85: take one chunk of up to 4 bytes and write its characters (rules R132, R133). -/
def encode85Step (s : State) : Result :=
  let m := min 4 (s.ilen.toNat - s.ip.toNat)
  fetchChunk m s fun bytes =>
    let v := chunkValue bytes
    emitAll (chunkChars m v) ((s.setAcc v s.nb.toNat).advance m)

/-- `step` of DEC85 for a digit of value `d` (rules R142, R143, R147). -/
def decode85Digit (d : Nat) (s : State) : Result :=
  let acc := s.acc.toNat * 85 + d
  let nb := s.nb.toNat + 1
  if nb = 5 then
    if maxGroup < acc then raise .eRange s.ip.toNat (s.setAcc acc nb)
    else emitAll (leadingBytes 4 acc) ((s.setAcc 0 0).advance 1)
  else .next ((s.setAcc acc nb).advance 1)

/-- `step` of DEC85: `z` at a chunk boundary, a digit, or an error (rules R142, R145, R148). -/
def decode85Step (s : State) : Result :=
  fetchInput s fun c =>
    if c = zeroChar then
      if s.nb.toNat ≠ 0 then raise .eZpos s.ip.toNat s else emitAll [0, 0, 0, 0] (s.advance 1)
    else
      match charDigit c with
      | none => raise .eSym s.ip.toNat s
      | some d => decode85Digit d s

/-- `end` of DEC85: fill out and write a last group of 1 to 4 digits, then `finish()` (rules R142, R143, R144). -/
def decode85End (s : State) : Result :=
  let g := s.nb.toNat
  if 0 < g then
    let v := fillGroup (5 - g) s.acc.toNat
    if maxGroup < v then raise .eRange (s.ilen.toNat - 1) (s.setAcc v g)
    else andThen (emitAll (leadingBytes (g - 1) v) (s.setAcc 0 0)) finish
  else finish s

/-- ENC85 (rule R132); its `end` is `finish()`. -/
def execEnc85 (s : State) : Result := operate .enc85 encode85Step finish s

/-- DEC85 (rule R142). -/
def execDec85 (s : State) : Result := operate .dec85 decode85Step decode85End s

end Sys2Proof.Machine
end

