-- ==== Sys2Proof/Machine/BitGrouped.lean ====
section
/-! DEFINITION. The bit-grouped operations ENC5, ENC6 (40_bitgrouped_encode.md) and DEC5, DEC6
(41_bitgrouped_decode.md): one `step` and one `end` for each direction, parameterised by the family (rules R110, R120),
and one meaning per operation. -/

namespace Sys2Proof.Machine

/-- `step` of ENC5 and ENC6: take one byte, give out every whole window (rules R112, R113). -/
def encodeStep (g : Grouped) (s : State) : Result :=
  fetchInput s fun b =>
    let acc := shiftIn s.acc.toNat 8 b.toNat
    let nb := s.nb.toNat + 8
    emitAll ((drainSymbols g.width nb acc nb).map g.forward)
      ((s.setAcc (drainAcc g.width nb acc nb) (drainCount g.width nb nb)).advance 1)

/-- The short last window of `end`, when bits remain (rules R112, R113). -/
def encodeTail (g : Grouped) (s : State) : Result :=
  if 0 < s.nb.toNat then emitAll [g.forward (lastWindow g.width s.acc.toNat s.nb.toNat)] (s.setAcc 0 0) else .next s

/-- `end` of ENC5 and ENC6: the short last window, the padding, `finish()` (rules R112, R113). -/
def encodeEnd (g : Grouped) (s : State) : Result :=
  andThen (encodeTail g s) fun s1 =>
    andThen (emitAll (List.replicate (g.padCount s1.op.toNat) padChar) s1) finish

/-- `step` of DEC5 and DEC6 for a character of value `v` (rules R122, R123). -/
def decodeSymbol (g : Grouped) (v : Nat) (s : State) : Result :=
  let acc := shiftIn s.acc.toNat g.width v
  let nb := s.nb.toNat + g.width
  if 8 ≤ nb then
    emitAll [BitVec.ofNat 8 (lowBits (acc >>> (nb - 8)) 8)] ((s.setAcc (lowBits acc (nb - 8)) (nb - 8)).advance 1)
  else .next ((s.setAcc acc nb).advance 1)

/-- `step` of DEC5 and DEC6: stop at `=`, raise `E_SYM` on a foreign character, otherwise take the symbol in
(rules R122, R123, R124, R125). -/
def decodeStep (g : Grouped) (s : State) : Result :=
  fetchInput s fun c =>
    if c = padChar then finish s
    else
      match g.inverse c with
      | none => raise .eSym s.ip.toNat s
      | some v => decodeSymbol g v s

/-- ENC5 (rule R112). -/
def execEnc5 (s : State) : Result := operate .enc5 (encodeStep (grouped5 s.par)) (encodeEnd (grouped5 s.par)) s

/-- ENC6 (rule R113). -/
def execEnc6 (s : State) : Result := operate .enc6 (encodeStep (grouped6 s.par)) (encodeEnd (grouped6 s.par)) s

/-- DEC5 (rule R122); its `end` is `finish()`. -/
def execDec5 (s : State) : Result := operate .dec5 (decodeStep (grouped5 s.par)) finish s

/-- DEC6 (rule R123); its `end` is `finish()`. -/
def execDec6 (s : State) : Result := operate .dec6 (decodeStep (grouped6 s.par)) finish s

end Sys2Proof.Machine
end

