-- ==== Sys2Proof/Machine/Dispatch.lean ====
section
/-! DEFINITION. One arm per operation (rule R78). -/

namespace Sys2Proof.Machine

def exec (i : Instr) (s : State) : Host.Outcome State Fault Refusal :=
  match i with
  | .enc5 => Sys2Proof.Machine.execEnc5 s
  | .dec5 => Sys2Proof.Machine.execDec5 s
  | .enc6 => Sys2Proof.Machine.execEnc6 s
  | .dec6 => Sys2Proof.Machine.execDec6 s
  | .enc85 => Sys2Proof.Machine.execEnc85 s
  | .dec85 => Sys2Proof.Machine.execDec85 s

end Sys2Proof.Machine
end

