-- ==== Sys2Proof/Machine/Agents.lean ====
section
/-! DEFINITION. The two agents and the reset input (rules R13, R22, R54, R180): what the port refuses (rules R55, R56),
what it answers and does (rule R54), the engine's turn (rule R22), and the next thing that happens. -/

namespace Sys2Proof.Machine

/-- The value a read of register `k` answers; there are five registers (rule R24). -/
def regValue (k : Nat) (s : State) : Word :=
  match k with
  | 0 => s.cmd
  | 1 => s.status
  | 2 => s.ilen
  | 3 => s.olen
  | _ => s.epos

/-- Whether the port answers `NAK`: the six rows of rule R55, the last being the BUSY lock of rule R56. -/
def portRefuses (t : Transaction) (s : State) : Bool :=
  match t with
  | .rdReg k => 5 ≤ k || (s.busy && (k == 3 || k == 4))
  | .wrReg k _ => 5 ≤ k || k == 1 || k == 3 || k == 4 || (s.busy && (k == 0 || k == 2))
  | .rdIbuf i => s.par.inMax ≤ i || s.busy
  | .wrIbuf i _ => s.par.inMax ≤ i || s.busy
  | .rdObuf j => s.olen.toNat ≤ j || s.par.outMax ≤ j || s.busy
  | .wrObuf _ _ => true

/-- The command write, when the port does not refuse it: the operation the word selects performs its `start` (or is
refused with `E_LEN`), and a word that selects none is refused with `E_ILLOP` (rules R80, R81). -/
def writeCommand (v : Word) (s : State) : Result :=
  match decode v with
  | .ok i => exec i s
  | .error _ => .next (commandTrigger v s)

/-- A write of register `k` that the port does not refuse: `k = 2` stores ILEN, `k = 0` is the command trigger
(rules R27, R54, R80). -/
def writeRegister (k : Nat) (v : Word) (s : State) : Result := if k = 0 then writeCommand v s else .next (s.setIlen v)

/-- One host transaction: its answer and its effect, at one instant (rules R54, R55). -/
def transact (t : Transaction) (s : State) : Result :=
  if portRefuses t s then .next (s.pushAnswer .nak)
  else
    match t with
    | .rdReg k => .next (s.pushAnswer (.okWord (regValue k s)))
    | .wrReg k v => andThen (writeRegister k v s) (fun s' => .next (s'.pushAnswer .ok))
    | .rdIbuf i => .next (s.pushAnswer (.okByte (s.ibufByte i)))
    | .wrIbuf i b => .next ((s.storeIbuf i b).pushAnswer .ok)
    | .rdObuf j => .next (s.pushAnswer (.okByte (s.obufByte j)))
    | .wrObuf _ _ => .next (s.pushAnswer .nak)

/-- The engine's turn: while BUSY, the next action of the operation CMD selects (rule R22); otherwise an idle block
waits and loses nothing (rule R168). -/
def engineTurn (s : State) : Result :=
  if s.busy then
    match decode s.cmd with
    | .ok i => exec i s
    | .error _ => .fault .busyWithoutCommand
  else .next s

/-- One atomic event: the outside world's next input, or, when it does nothing more, the engine's turn
(rules R22, R54, R62, R191; notes/assumptions/6.md). -/
def nextEvent (s : State) : Result :=
  match s.inputs with
  | [] => engineTurn s
  | .txn t :: rest => transact t (s.setInputs rest)
  | .engine :: rest => engineTurn (s.setInputs rest)
  | .reset :: rest => .next (s.setInputs rest).afterReset

/-- `s` with the command word `v` where the next event takes its instruction from: while no operation runs, the next
input is the write of `v` to CMD; while one runs, CMD holds `v` and the engine moves next (notes/assumptions/7.md). -/
def placeCommand (v : Word) (s : State) : State :=
  if s.busy then { s with cmd := v, inputs := .engine :: s.inputs }
  else s.setInputs (.txn (.wrReg 0 v) :: s.inputs)

end Sys2Proof.Machine
end

