-- ==== Sys2Proof/Machine/Step.lean ====
section
/-! DEFINITION. The step function: one atomic event (rules R22, R54, R62). -/

namespace Sys2Proof.Machine

/-- One step of the machine. -/
def step : State → Host.Outcome State Fault Refusal := fun s => nextEvent s

/-- `s` with the instruction of a table row's bits placed where `step` takes its next instruction from. -/
def State.withFetchWord (s : State) (nbits w : Nat) : State := placeCommand (tableWord nbits w) s

end Sys2Proof.Machine
end

