-- ==== Sys2Proof/Machine/HostScript.lean ====
section
/-! DEFINITION. Host programs (rules R97, R98): the transactions that do not depend on an answer, as lists, and the four
pseudo-instructions as a host performs them, one transaction at a time, deciding by the answer to the last one what to do
next. How many turns the engine gets before each transaction is an argument (notes/assumptions/18.md). -/

namespace Sys2Proof.Machine

/-- The writes `WR IBUF[i], b0`, `WR IBUF[i+1], b1`, ... -/
def writeBytes : Nat → List Byte → List Transaction
  | _, [] => []
  | i, b :: rest => .wrIbuf i b :: writeBytes (i + 1) rest

/-- `LOAD b0 b1 ... b(n-1)`: the message, then its length (rule R98). -/
def scriptLoad (bytes : List Byte) : List Transaction :=
  writeBytes 0 bytes ++ [.wrReg 2 (BitVec.ofNat 32 bytes.length)]

/-- The transactions `FETCH` performs when `RD OLEN` answers `m` (rule R98). -/
def scriptFetch (m : Nat) : List Transaction := .rdReg 3 :: (List.range m).map .rdObuf

/-- A list of transactions as the inputs it gives the machine (rule R97). -/
def scriptInputs (ts : List Transaction) : List Input := ts.map .txn

/-! ### The host as it hears the answers -/

/-- What a piece of a host program comes to: how the block stands, and what the host knows from the answers. -/
inductive Dialogue (α : Type) where
  /-- it is finished, with the result `value` -/
  | done (s : State) (value : α)
  /-- every poll asked for was answered with `BUSY` set: `RUN` is not finished yet -/
  | polling (s : State)
  /-- the answer `a` is none that the expansion of rule R98 goes on from (a `NAK` to `RD OLEN` or to `RD OBUF`) -/
  | offScript (s : State) (a : Answer)
  /-- the machine stopped -/
  | fault (f : Fault)
  /-- the machine has no meaning for what was asked -/
  | refused (r : Refusal)
  deriving DecidableEq, Repr

/-- Go on with the result of a finished piece; anything else stays as it is. -/
def Dialogue.andThen {α β : Type} (d : Dialogue α) (k : State → α → Dialogue β) : Dialogue β :=
  match d with
  | .done s a => k s a
  | .polling s => .polling s
  | .offScript s a => .offScript s a
  | .fault f => .fault f
  | .refused r => .refused r

/-- The next event is `x`: one step of the machine. What was to come before comes after it. -/
def offer (x : Input) (s : State) : Result := step (s.setInputs (x :: s.inputs))

/-- `pause` turns of the engine, then the transaction `t`; its result is the port's answer (rules R22, R54). -/
def send : Nat → Transaction → State → Dialogue Answer
  | 0, t, s =>
    match offer (.txn t) s with
    | .next u => .done u (u.answers.getLastD .nak)
    | .fault f => .fault f
    | .refused r => .refused r
  | pause + 1, t, s =>
    match offer .engine s with
    | .next u => send pause t u
    | .fault f => .fault f
    | .refused r => .refused r

/-- The transactions of a list in order; the result is their answers. Entry `k` of `pauses` is the number of turns the
engine gets before transaction `k`, 0 beyond the list's end. -/
def hostAll : List Nat → List Transaction → State → Dialogue (List Answer)
  | _, [], s => .done s []
  | pauses, t :: rest, s =>
    (send (pauses.headD 0) t s).andThen fun u a =>
      (hostAll pauses.tail rest u).andThen fun v as => .done v (a :: as)

/-- `LOAD` (rule R98); the result is the answers. -/
def hostLoad (pauses : List Nat) (bytes : List Byte) (s : State) : Dialogue (List Answer) :=
  hostAll pauses (scriptLoad bytes) s

/-- `RD STATUS` repeated until the answer has bit 0 (`BUSY`) clear; that answer is the result (rule R98). One entry of
the list for each poll: the turns the engine gets before it. The polls after the one that ends it are not made. -/
def hostPoll : List Nat → State → Dialogue Word
  | [], s => .polling s
  | pause :: rest, s =>
    (send pause (.rdReg 1) s).andThen fun u a =>
      match a with
      | .okWord v => if v.getLsbD 0 then hostPoll rest u else .done u v
      | .ok => .offScript u .ok
      | .okByte b => .offScript u (.okByte b)
      | .nak => .offScript u .nak

/-- `RUN <mnemonic>`: `WR CMD, <mnemonic>`, then the polls; the last answer is the result (rule R98). -/
def hostRun (i : Instr) (pauses : List Nat) (s : State) : Dialogue Word :=
  (send (pauses.headD 0) (.wrReg 0 (encode i)) s).andThen fun u _ => hostPoll pauses.tail u

/-- `RD OBUF[j]` for each index of the second list, in order; the result is the bytes answered (rule R98). -/
def hostRead : List Nat → List Nat → State → Dialogue (List Byte)
  | _, [], s => .done s []
  | pauses, j :: rest, s =>
    (send (pauses.headD 0) (.rdObuf j) s).andThen fun u a =>
      match a with
      | .okByte b => (hostRead pauses.tail rest u).andThen fun v bytes => .done v (b :: bytes)
      | .ok => .offScript u .ok
      | .okWord v => .offScript u (.okWord v)
      | .nak => .offScript u .nak

/-- `FETCH`: `RD OLEN -> OK(m)`, then `RD OBUF[0]` ... `RD OBUF[m-1]`; the result is the `m` bytes read (rule R98). -/
def hostFetch (pauses : List Nat) (s : State) : Dialogue (List Byte) :=
  (send (pauses.headD 0) (.rdReg 3) s).andThen fun u a =>
    match a with
    | .okWord m => hostRead pauses.tail (List.range m.toNat) u
    | .ok => .offScript u .ok
    | .okByte b => .offScript u (.okByte b)
    | .nak => .offScript u .nak

/-- `MOVE`: `FETCH`, then `LOAD` of the bytes fetched, which are the result (rule R98). -/
def hostMove (pauses : List Nat) (s : State) : Dialogue (List Byte) :=
  (hostFetch pauses s).andThen fun u bytes =>
    (hostLoad (pauses.drop (bytes.length + 1)) bytes u).andThen fun v _ => .done v bytes

end Sys2Proof.Machine
end

