-- ==== Sys2Proof/Machine/Stateless.lean ====
section
/-! DEFINITION. What each operation computes, stated without the engine: rules R111 (ENC5, ENC6), R121 (DEC5, DEC6), R131
(ENC85) and R141 (DEC85). Written from those rules' own words, on bit streams and sums of products, and not from the
`step`/`end` pseudocode, which the claims compare with it. -/

namespace Sys2Proof.Machine

/-- What an operation gives: the bytes of its result, or the error and its position (rules R155, R156). -/
abbrev Outcome := Except (ErrorCode × Nat) (List Byte)

/-- Bit `t` of the stream `B` of rule R111: bit `7 - (t mod 8)` of byte `t div 8`; beyond the last byte, the zero
fill. -/
def streamBit (bytes : List Byte) (t : Nat) : Bool := (bytes.getD (t / 8) 0).getLsbD (7 - t % 8)

/-- The unsigned value of `count` bits from `start` on, the first most significant (rules R111, R121). -/
def bitsValue (bit : Nat → Bool) (start count : Nat) : Nat :=
  (List.range count).foldl (fun v i => 2 * v + (bit (start + i)).toNat) 0

/-- `L = ceil(8 * n / w)` (rules R89, R111). -/
def symbolCount (w n : Nat) : Nat := (8 * n + (w - 1)) / w

/-- The container ENC5 or ENC6 writes for a message (rule R111). -/
def encodeGrouped (g : Grouped) (message : List Byte) : List Byte :=
  (List.range (symbolCount g.width message.length)).map
      (fun k => g.forward (bitsValue (streamBit message) (k * g.width) g.width)) ++
    List.replicate (g.padCount (symbolCount g.width message.length)) padChar

/-- The characters DEC5 or DEC6 scans: those before the first `=` (rules R121, R125). -/
def scanned (text : List Byte) : List Byte := text.takeWhile (fun c => c != padChar)

/-- Bit `t` of the stream `B` of rule R121: the values as `w` bits each, most significant first. -/
def symbolBit (w : Nat) (values : List Nat) (t : Nat) : Bool := (values.getD (t / w) 0).testBit (w - 1 - t % w)

/-- The bytes of a sequence of symbol values; the last `w * S mod 8` bits are not used (rules R121, R127). -/
def regroup (w : Nat) (values : List Nat) : List Byte :=
  (List.range (w * values.length / 8)).map (fun j => BitVec.ofNat 8 (bitsValue (symbolBit w values) (8 * j) 8))

/-- What DEC5 or DEC6 gives for a text (rules R121, R124). -/
def decodeGrouped (g : Grouped) (text : List Byte) : Outcome :=
  match (scanned text).findIdx? (fun c => (g.inverse c).isNone) with
  | some i => .error (.eSym, i)
  | none => .ok (regroup g.width ((scanned text).map (fun c => (g.inverse c).getD 0)))

/-- `V = c_0 * 2^24 + c_1 * 2^16 + c_2 * 2^8 + c_3`, the missing bytes taken as 0 (rule R131). -/
def chunkSum (chunk : List Byte) : Nat :=
  (chunk.getD 0 0).toNat * 2 ^ 24 + (chunk.getD 1 0).toNat * 2 ^ 16 + (chunk.getD 2 0).toNat * 2 ^ 8 +
    (chunk.getD 3 0).toNat

/-- A chunk's text (rules R131, R133). -/
def chunkText (chunk : List Byte) : List Byte :=
  if chunk.length = 4 ∧ chunkSum chunk = 0 then [zeroChar]
  else (List.range (chunk.length + 1)).map (fun i => digitChar (chunkSum chunk / 85 ^ (4 - i) % 85))

/-- The container ENC85 writes for a message: the texts of its chunks in order (rule R131). -/
def encode85 (message : List Byte) : List Byte :=
  (List.range ((message.length + 3) / 4)).flatMap (fun q => chunkText ((message.drop (4 * q)).take 4))

/-- A group of up to 5 digits, filled out with the digit 84, as the sum `d_i * 85^(4-i)` (rule R141). -/
def groupSum (digits : List Nat) : Nat :=
  digits.getD 0 fillerDigit * 85 ^ 4 + digits.getD 1 fillerDigit * 85 ^ 3 + digits.getD 2 fillerDigit * 85 ^ 2 +
    digits.getD 3 fillerDigit * 85 + digits.getD 4 fillerDigit

/-- The 4 big-endian bytes of a 32-bit value (rule R141). -/
def bigEndian (v : Nat) : List Byte :=
  [BitVec.ofNat 8 (v / 2 ^ 24), BitVec.ofNat 8 (v / 2 ^ 16), BitVec.ofNat 8 (v / 2 ^ 8), BitVec.ofNat 8 v]

/-- The scan of DEC85 (rule R141): the rest of the text, the index of its first character, and the group so far. -/
def scan85 : List Byte → Nat → List Nat → Outcome
  | [], pos, group =>
    if group = [] then .ok []
    else if maxGroup < groupSum group then .error (.eRange, pos - 1)
    else .ok ((bigEndian (groupSum group)).take (group.length - 1))
  | c :: rest, pos, group =>
    if c = zeroChar then
      if group = [] then (scan85 rest (pos + 1) []).map ([0, 0, 0, 0] ++ ·) else .error (.eZpos, pos)
    else
      match charDigit c with
      | none => .error (.eSym, pos)
      | some d =>
        if group.length + 1 = 5 then
          if maxGroup < groupSum (group ++ [d]) then .error (.eRange, pos)
          else (scan85 rest (pos + 1) []).map (bigEndian (groupSum (group ++ [d])) ++ ·)
        else scan85 rest (pos + 1) (group ++ [d])

/-- What DEC85 gives for a text (rule R141). -/
def decode85 (text : List Byte) : Outcome := scan85 text 0 []

/-- What each operation gives for a message, for an instance's parameters (rules R111, R121, R131, R141). -/
def outcomeOf (p : Params) (message : List Byte) : Instr → Outcome
  | .enc5 => .ok (encodeGrouped (grouped5 p) message)
  | .dec5 => decodeGrouped (grouped5 p) message
  | .enc6 => .ok (encodeGrouped (grouped6 p) message)
  | .dec6 => decodeGrouped (grouped6 p) message
  | .enc85 => .ok (encode85 message)
  | .dec85 => decode85 message

end Sys2Proof.Machine
end

