-- ==== Sys2Proof/WellFormed.lean ====
section
/-! DEFINITION. The static checks. An instruction has no field (rule R77), so every instruction is well formed; the
parameters have the constraints of rule R7, which are "checked when the block is configured, never at run time"
(rule R182). -/

namespace Sys2Proof

/-- Every term of `Instr` is an instruction of the block: a command has no operand field that could hold a bad value
(rule R77). One arm per constructor, so that an instruction added with operands cannot slip past. -/
def Instr.wellFormed : Instr → Bool
  | .enc5 => true
  | .dec5 => true
  | .enc6 => true
  | .dec6 => true
  | .enc85 => true
  | .dec85 => true

/-- A printable ASCII code, `0x21..0x7E` (rules R7, R10). -/
def printable (c : Byte) : Bool := 0x21 ≤ c.toNat && c.toNat ≤ 0x7E

/-- The constraints on one symbol table (rule R7): its size, injectivity, every entry printable, no entry `=`. -/
def tableWellFormed (size : Nat) (table : List Byte) : Bool :=
  table.length == size && decide table.Nodup && table.all printable && !table.contains 0x3D

/-- The constraints of rule R7 on the parameters. -/
def Params.wellFormed (p : Params) : Bool :=
  decide (1 ≤ p.inMax) && decide (p.inMax ≤ 2 ^ 28) && tableWellFormed 32 p.sym5 && tableWellFormed 64 p.sym6

end Sys2Proof
end

