-- ==== Sys2Proof/Safety.lean ====
section
/-! DEFINITION. The terms claims use: the message and the result (rules R12, R155), the conditions of the block (rule
R35), the invariant of the machine (rules R21, R22, R26 to R29), what an engine action or an event leaves alone (rules
R30, R58), and a command run to its end (rule R193). -/

namespace Sys2Proof.Machine

/-- The message: `IBUF[0 .. ILEN-1]` (rule R12). -/
def State.message (s : State) : List Byte := (List.range s.ilen.toNat).map s.ibufByte

/-- The result: `OBUF[0 .. OLEN-1]` (rules R12, R193). -/
def State.result (s : State) : List Byte := (List.range s.olen.toNat).map s.obufByte

/-- What an outcome says of the registers and the readable part of OBUF right after the action that ends the operation
(rules R155, R156, R193). -/
def State.shows (s : State) (o : Outcome) : Prop :=
  match o with
  | .ok bytes => s.status = statusDone ∧ s.epos = 0 ∧ s.olen.toNat = bytes.length ∧ s.result = bytes
  | .error (e, pos) => s.status = statusError e ∧ s.epos = BitVec.ofNat 32 pos ∧ s.olen = 0

/-- The values STATUS takes (rule R26). -/
def statusValues : List Word := [0x00, 0x01, 0x02, 0x14, 0x24, 0x34, 0x44, 0x54]

/-- Whether an answer is a next state: the machine goes on. -/
def goesOn (r : Result) : Prop := ∃ t, r = .next t

/-- What the engine never changes (rules R30, R54, R58, R181): CMD, ILEN, IBUF, the parameters, and the model's own
record of the outside world. -/
structure HostSideSame (s t : State) : Prop where
  cmd : t.cmd = s.cmd
  ilen : t.ilen = s.ilen
  ibuf : t.ibuf = s.ibuf
  par : t.par = s.par
  inputs : t.inputs = s.inputs
  answers : t.answers = s.answers
  resets : t.resets = s.resets

/-- STATUS, OLEN and EPOS are as before. -/
structure ReportSame (s t : State) : Prop where
  status : t.status = s.status
  olen : t.olen = s.olen
  epos : t.epos = s.epos

/-- The hidden registers are as before. -/
structure DatapathSame (s t : State) : Prop where
  acc : t.acc = s.acc
  nb : t.nb = s.nb
  ip : t.ip = s.ip
  op : t.op = s.op

/-- From `s` to `t` the engine wrote exactly the bytes `bs` to OBUF, at `OP`, `OP + 1`, ..., and advanced `OP` past them;
every other byte of OBUF is as before (rule R58). -/
structure Emitted (bs : List Byte) (s t : State) : Prop where
  op : t.op.toNat = s.op.toNat + bs.length
  written : ∀ j, j < bs.length → t.obufByte (s.op.toNat + j) = bs.getD j 0
  others : ∀ a, a < s.op.toNat ∨ s.op.toNat + bs.length ≤ a → t.obufByte a = s.obufByte a

/-- Between the actions of an ENC5 or ENC6 run of width `w` (rules R21, R111). -/
structure EncodeInv (w : Nat) (s : State) : Prop where
  acc : s.acc.toNat < 2 ^ s.nb.toNat
  nb : s.nb.toNat < w
  progress : w * s.op.toNat + s.nb.toNat = 8 * s.ip.toNat

/-- Between the actions of a DEC5 or DEC6 run of width `w` (rules R21, R121). -/
structure DecodeInv (w : Nat) (s : State) : Prop where
  acc : s.acc.toNat < 2 ^ s.nb.toNat
  nb : s.nb.toNat < 8
  progress : 8 * s.op.toNat + s.nb.toNat = w * s.ip.toNat

/-- Between the actions of an ENC85 run (rules R21, R53, R60, R132). -/
structure Encode85Inv (s : State) : Prop where
  acc : s.acc.toNat < 2 ^ 32
  nb : s.nb = 0
  aligned : s.ip.toNat % 4 = 0 ∨ s.ip = s.ilen
  progress : s.op.toNat ≤ 5 * (s.ip.toNat / 4) + (if s.ip.toNat % 4 = 0 then 0 else s.ip.toNat % 4 + 1)

/-- Between the actions of a DEC85 run (rules R21, R53, R142). -/
structure Decode85Inv (s : State) : Prop where
  acc : s.acc.toNat < 85 ^ s.nb.toNat
  nb : s.nb.toNat ≤ 4
  group : s.nb.toNat ≤ s.ip.toNat
  progress : s.op.toNat ≤ 4 * (s.ip.toNat - s.nb.toNat)

/-- Between the actions of a run of operation `i`: the message fits IBUF, the cursor is in it, and the operation's own
bounds hold (rules R21, R22). -/
structure RunInv (i : Instr) (s : State) : Prop where
  fits : s.ilen.toNat ≤ s.par.inMax
  cursor : s.ip.toNat ≤ s.ilen.toNat
  bounds : match i with
    | .enc5 => EncodeInv 5 s
    | .enc6 => EncodeInv 6 s
    | .dec5 => DecodeInv 5 s
    | .dec6 => DecodeInv 6 s
    | .enc85 => Encode85Inv s
    | .dec85 => Decode85Inv s

/-- `IN_MAX` is in its range (rule R7), which keeps every length and position inside 32 bits. -/
abbrev Params.sized (p : Params) : Prop := 1 ≤ p.inMax ∧ p.inMax ≤ 2 ^ 28

/-- The invariant of the machine. -/
structure State.Inv (s : State) : Prop where
  /-- the constraints on `IN_MAX` and on both symbol tables (rules R7, R182) -/
  params : s.par.wellFormed = true
  /-- the canonical form of IBUF, no cell outside it (rule R30) -/
  ibuf : Memory.wf s.ibuf ∧ ∀ c ∈ s.ibuf, c.1 < s.par.inMax
  /-- the canonical form of OBUF, no cell outside it (rule R31) -/
  obuf : Memory.wf s.obuf ∧ ∀ c ∈ s.obuf, c.1 < s.par.outMax
  /-- STATUS takes only the values of rule R26 -/
  status : s.status ∈ statusValues
  /-- "OLEN is non-zero only while STATUS.DONE = 1" and is at most `OUT_MAX` (rule R28) -/
  olen : s.olen.toNat ≤ s.par.outMax ∧ (s.olen ≠ 0 → s.status = statusDone)
  /-- EPOS is an index into IBUF, and 0 but for the errors of a scan (rule R29) -/
  epos : s.epos.toNat < s.par.inMax ∧
    (s.epos ≠ 0 → s.status = statusError .eSym ∨ s.status = statusError .eZpos ∨ s.status = statusError .eRange)
  /-- while BUSY, CMD holds a legal command and its run's bounds hold (rules R22, R80) -/
  run : s.busy = true → ∃ i, decode s.cmd = .ok i ∧ RunInv i s

/-- `s`, not BUSY, with one host transaction to come: the write of operation `i`'s command word to CMD. -/
def commanding (i : Instr) (s : State) : State := s.setInputs [.txn (.wrReg 0 (encode i))]

/-- The command of operation `i` written and the engine left to run: the command write, at most `ILEN` steps and one
`end` (rules R191, R193). -/
def runCommand (i : Instr) (s : State) : Result := core.run (s.ilen.toNat + 2) (commanding i s)

end Sys2Proof.Machine
end

