-- ==== Sys2Proof/Certificates/Slice0/Obligations.lean ====
section
/-! DEFINITION. The statements for the provers. Each docstring names the rules of spec/ that it formalises. Helper
predicates come first: a case of an operation as one predicate over both bit-grouped families, and the port's refusals in
the spec's own rows. -/

namespace Sys2Proof.Certificates

open Sys2Proof.Machine

/-- The operation `i` is at a `step` in `s` (rule R22). -/
structure AtStep (i : Instr) (s : State) : Prop where
  busy : s.busy = true
  sized : Params.sized s.par
  run : RunInv i s
  more : s.ip.toNat < s.ilen.toNat

/-- The operation `i` is at its `end` in `s` (rule R22). -/
structure AtEnd (i : Instr) (s : State) : Prop where
  busy : s.busy = true
  sized : Params.sized s.par
  run : RunInv i s
  last : s.ip.toNat = s.ilen.toNat

/-- What an action that leaves the operation running keeps: the host's side and the report. -/
def Continues (s t : State) : Prop := HostSideSame s t ∧ ReportSame s t

/-- The report of `finish()` (rule R155): `OLEN` is the output cursor, `STATUS` is `0x02`, `EPOS` stays. -/
def Finishes (s t : State) : Prop :=
  HostSideSame s t ∧ t.status = 0x02 ∧ t.olen = t.op ∧ t.epos = s.epos

/-- The report of `raise e(pos)` (rule R156); nothing is written to OBUF. -/
def Raises (status : Word) (pos : Nat) (s t : State) : Prop :=
  HostSideSame s t ∧ t.status = status ∧ t.olen = 0 ∧ t.epos = BitVec.ofNat 32 pos ∧ t.obuf = s.obuf

/-- A `step` of ENC5 or ENC6, in closed form (rules R111, R112, R113): with `x` the accumulator and the byte read, the
symbols given out are the whole `w`-bit windows of `x` from the top, and the rest stays. -/
def EncodeStepSpec (i : Instr) (w : Nat) (g : Params → Grouped) : Prop :=
  ∀ s : State, AtStep i s →
    ∃ t, exec i s = .next t ∧ Continues s t ∧
      Emitted ((List.range ((s.nb.toNat + 8) / w)).map fun k =>
        (g s.par).forward ((s.acc.toNat * 2 ^ 8 + (s.ibufByte s.ip.toNat).toNat) /
          2 ^ (s.nb.toNat + 8 - w * (k + 1)) % 2 ^ w)) s t ∧
      t.nb.toNat = (s.nb.toNat + 8) % w ∧
      t.acc.toNat = (s.acc.toNat * 2 ^ 8 + (s.ibufByte s.ip.toNat).toNat) % 2 ^ ((s.nb.toNat + 8) % w) ∧
      t.ip.toNat = s.ip.toNat + 1

/-- The short last window of an encoder, none when no bit is left (rules R111, R112, R113). -/
def lastSymbol (w : Nat) (g : Grouped) (s : State) : List Byte :=
  if s.nb = 0 then [] else [g.forward (s.acc.toNat * 2 ^ (w - s.nb.toNat))]

/-- The `end` of ENC5 or ENC6 (rules R89, R111, R112, R113): the short last window, `=` up to the next multiple of the
framing width, `finish()`. -/
def EncodeEndSpec (i : Instr) (w frame : Nat) (g : Params → Grouped) : Prop :=
  ∀ s : State, AtEnd i s →
    ∃ t, exec i s = .next t ∧ Finishes s t ∧ t.ip = s.ip ∧ t.op.toNat % frame = 0 ∧
      Emitted (lastSymbol w (g s.par) s ++
        List.replicate ((frame - (s.op.toNat + (lastSymbol w (g s.par) s).length) % frame) % frame) 0x3D) s t

/-- A decoder of the bit-grouped families succeeds at the first `=`, and at the end of the text (rules R121, R122, R123,
R125): nothing is written, and the hidden registers keep what they held (rule R155). -/
def DecodeFinishSpec (i : Instr) : Prop :=
  ∀ s : State, (AtStep i s ∧ s.ibufByte s.ip.toNat = 0x3D ∨ AtEnd i s) →
    ∃ t, exec i s = .next t ∧ Finishes s t ∧ t.obuf = s.obuf ∧ DatapathSame s t

/-- A decoder of the bit-grouped families raises `E_SYM` at the first character that is neither `=` nor in its alphabet
(rules R122, R123, R124, R151). `DatapathSame`, the hidden registers after the error, is the model's choice
(notes/assumptions/11.md, DEDUCED): rule R21 calls them unspecified once an operation has ended. -/
def DecodeForeignSpec (i : Instr) (table : Params → List Byte) : Prop :=
  ∀ s : State, AtStep i s → s.ibufByte s.ip.toNat ≠ 0x3D → s.ibufByte s.ip.toNat ∉ table s.par →
    ∃ t, exec i s = .next t ∧ Raises 0x14 s.ip.toNat s t ∧ DatapathSame s t

/-- A decoder of the bit-grouped families takes in the symbol of value `v` (rules R121, R122, R123): the new bits join
the stream, and a byte goes out as soon as 8 bits are there. -/
def DecodeSymbolSpec (i : Instr) (w : Nat) (table : Params → List Byte) : Prop :=
  ∀ (s : State) (v : Nat), AtStep i s → s.par.wellFormed = true →
    (table s.par)[v]? = some (s.ibufByte s.ip.toNat) →
    ∃ t, exec i s = .next t ∧ Continues s t ∧ t.ip.toNat = s.ip.toNat + 1 ∧
      t.nb.toNat = (s.nb.toNat + w) % 8 ∧
      t.acc.toNat = (s.acc.toNat * 2 ^ w + v) % 2 ^ ((s.nb.toNat + w) % 8) ∧
      Emitted (if s.nb.toNat + w < 8 then []
        else [BitVec.ofNat 8 ((s.acc.toNat * 2 ^ w + v) / 2 ^ (s.nb.toNat + w - 8))]) s t

/-- `Z` of rule R92: how many of the `n div 4` full chunks of a message are all zero. -/
def zeroChunkCount (m : List Byte) : Nat :=
  ((List.range (m.length / 4)).filter fun q => (m.drop (4 * q)).take 4 == [0, 0, 0, 0]).length

/-- The six rows of rule R55 in its own words: the transactions the port refuses. -/
inductive RefusedRow : Transaction → State → Prop where
  | noSuchRegisterRead (k : Nat) (s : State) (h : 5 ≤ k) : RefusedRow (.rdReg k) s
  | noSuchRegisterWrite (k : Nat) (v : Word) (s : State) (h : 5 ≤ k) : RefusedRow (.wrReg k v) s
  | readOnly (k : Nat) (v : Word) (s : State) (h : k = 1 ∨ k = 3 ∨ k = 4) : RefusedRow (.wrReg k v) s
  | outsideIbufRead (i : Nat) (s : State) (h : s.par.inMax ≤ i) : RefusedRow (.rdIbuf i) s
  | outsideIbufWrite (i : Nat) (b : Byte) (s : State) (h : s.par.inMax ≤ i) : RefusedRow (.wrIbuf i b) s
  | notInResult (j : Nat) (s : State) (h : s.olen.toNat ≤ j ∨ s.par.outMax ≤ j) : RefusedRow (.rdObuf j) s
  | obufWrite (j : Nat) (b : Byte) (s : State) : RefusedRow (.wrObuf j b) s
  | busyRegisterWrite (k : Nat) (v : Word) (s : State) (hb : s.busy = true) (h : k = 0 ∨ k = 2) :
      RefusedRow (.wrReg k v) s
  | busyRegisterRead (k : Nat) (s : State) (hb : s.busy = true) (h : k = 3 ∨ k = 4) : RefusedRow (.rdReg k) s
  | busyIbufRead (i : Nat) (s : State) (hb : s.busy = true) : RefusedRow (.rdIbuf i) s
  | busyIbufWrite (i : Nat) (b : Byte) (s : State) (hb : s.busy = true) : RefusedRow (.wrIbuf i b) s
  | busyObufRead (j : Nat) (s : State) (hb : s.busy = true) : RefusedRow (.rdObuf j) s

/-- The state and the answer record after a transaction that changes nothing else (rules R54, R55). -/
def OnlyAnswered (s t : State) (rest : List Input) (a : Answer) : Prop :=
  t = { s with inputs := rest, answers := s.answers ++ [a] }

/-- A run of operation `i` from any idle state gives what the stateless rule says, and leaves the message alone
(rules R111, R121, R131, R141, R193). -/
def RunGives (i : Instr) : Prop :=
  ∀ s : State, s.par.wellFormed = true → s.busy = false → s.ilen.toNat ≤ s.par.inMax →
    ∃ t, runCommand i s = .next t ∧ t.shows (outcomeOf s.par s.message i) ∧
      t.cmd = encode i ∧ t.ilen = s.ilen ∧ t.ibuf = s.ibuf ∧ t.par = s.par

/-- The `t` of `runCommand i s = .next t` shows the same report and result as that of `s'` (rule R193). -/
def SameOutcome (i : Instr) (s s' : State) : Prop :=
  ∃ t t', runCommand i s = .next t ∧ runCommand i s' = .next t' ∧
    t.status = t'.status ∧ t.olen = t'.olen ∧ t.epos = t'.epos ∧ t.result = t'.result

/-- From `s`, idle, the operation `i` run to its end, and then the operation `j` run on a state whose message is its
result, gives back the first message (rules R126, R146). -/
def MachineRoundTrip (i j : Instr) : Prop :=
  ∀ s u : State, s.par.wellFormed = true → s.busy = false → s.ilen.toNat ≤ s.par.inMax →
    ∃ t, runCommand i s = .next t ∧
      (u.par = s.par → u.busy = false → u.ilen.toNat ≤ u.par.inMax → u.message = t.result →
        ∃ r, runCommand j u = .next r ∧ r.status = 0x02 ∧ r.result = s.message)

end Sys2Proof.Certificates

open Sys2Proof Sys2Proof.Machine Sys2Proof.Certificates

/-! ## Encoding -/

/-- Words written out from rule R75's format: `RSV` (31:3), `CODEC` (2:1), `DIR` (0). -/
def Obligations.CommandWordsDecode : Prop :=
  decode ((0 : BitVec 29) ++ (0 : BitVec 2) ++ (0 : BitVec 1)) = .ok .enc5 ∧
  decode ((0 : BitVec 29) ++ (0 : BitVec 2) ++ (1 : BitVec 1)) = .ok .dec5 ∧
  decode ((0 : BitVec 29) ++ (1 : BitVec 2) ++ (0 : BitVec 1)) = .ok .enc6 ∧
  decode ((0 : BitVec 29) ++ (1 : BitVec 2) ++ (1 : BitVec 1)) = .ok .dec6 ∧
  decode ((0 : BitVec 29) ++ (2 : BitVec 2) ++ (0 : BitVec 1)) = .ok .enc85 ∧
  decode ((0 : BitVec 29) ++ (2 : BitVec 2) ++ (1 : BitVec 1)) = .ok .dec85 ∧
  decode ((0 : BitVec 29) ++ (3 : BitVec 2) ++ (0 : BitVec 1)) = .error .reservedCodec ∧
  decode ((1 : BitVec 29) ++ (0 : BitVec 2) ++ (0 : BitVec 1)) = .error .reservedBits

/-- Rule R78: exactly six of the `2^32` words are commands, and which. -/
def Obligations.ExactlySixCommands : Prop :=
  (∀ (v : Word) (i : Instr), decode v = .ok i ↔ v = encode i) ∧
  encode .enc5 = 0x00000000 ∧ encode .dec5 = 0x00000001 ∧ encode .enc6 = 0x00000002 ∧
  encode .dec6 = 0x00000003 ∧ encode .enc85 = 0x00000004 ∧ encode .dec85 = 0x00000005

/-- Rules R75, R76, R79, R80: the trigger's test and the decoder refuse the same words, each by its name. -/
def Obligations.IllegalWordsAreNamed : Prop :=
  ∀ v : Word,
    (illegalCommand v = true ↔ 5 < v.toNat) ∧
    (decode v = .error .reservedBits ↔ 8 ≤ v.toNat) ∧
    (decode v = .error .reservedCodec ↔ v.toNat = 6 ∨ v.toNat = 7)

/-! ## Reset -/

/-- Rule R34, for the registers. What the cells of the buffers read as is the model's choice, since the spec gives no value:
a free value of IBUF (notes/assumptions/3.md, DESIGN CHOICE) and of OBUF (notes/assumptions/4.md, DESIGN CHOICE), in the draw
that the reset state's own counter names. -/
def Obligations.ResetRegisters : Prop :=
  State.reset.cmd = 0 ∧ State.reset.status = 0 ∧ State.reset.ilen = 0 ∧ State.reset.olen = 0 ∧ State.reset.epos = 0 ∧
  State.reset.busy = false ∧ State.reset.done = false ∧ State.reset.err = false ∧ State.reset.ecode = 0 ∧
  (∀ i, State.reset.ibufByte i = Config.ibufAtReset State.reset.resets i) ∧
  (∀ j, State.reset.obufByte j = Config.obufAtReset State.reset.resets j)

/-- Rules R180, R181: reset, whatever the block was doing. Two clauses are the model's choice and no rule of the spec: what
the outside world does next and the answers given are kept (notes/assumptions/14.md, DEDUCED), and a cell of IBUF then reads
as the free value of a new draw, number `resets + 1` (notes/assumptions/3.md, DESIGN CHOICE). -/
def Obligations.ResetAbandonsEverything : Prop :=
  ∀ (s : State) (rest : List Input), s.inputs = .reset :: rest →
    ∃ t, step s = .next t ∧ t.cmd = 0 ∧ t.status = 0 ∧ t.ilen = 0 ∧ t.olen = 0 ∧ t.epos = 0 ∧ t.busy = false ∧
      t.par = s.par ∧ t.inputs = rest ∧ t.answers = s.answers ∧
      (∀ i, t.ibufByte i = Config.ibufAtReset (s.resets + 1) i) ∧ (∀ j, portRefuses (.rdObuf j) t = true)

/-! ## The step -/

/-- Rule R22: while BUSY, the engine's turn performs the next action of the operation CMD selects. -/
def Obligations.StepRunsTheCommandInCmd : Prop :=
  ∀ (s : State) (i : Instr) (rest : List Input), s.busy = true → decode s.cmd = .ok i →
    (s.inputs = .engine :: rest → step s = exec i { s with inputs := rest }) ∧
    (s.inputs = [] → step s = exec i s)

/-- Rules R54, R80: the write of a command word to an idle block performs the operation's `start`, and the port answers
`OK`. -/
def Obligations.StepRunsTheCommandWritten : Prop :=
  ∀ (s : State) (i : Instr) (v : Word) (rest : List Input), s.busy = false → decode v = .ok i →
    s.inputs = .txn (.wrReg 0 v) :: rest →
    ∃ t, exec i { s with inputs := rest } = .next t ∧ step s = .next { t with answers := t.answers ++ [.ok] }

/-- Rule R168: an idle block waits and loses nothing. -/
def Obligations.IdleBlockWaits : Prop :=
  ∀ (s : State) (rest : List Input), s.busy = false →
    (s.inputs = [] → step s = .next s) ∧ (s.inputs = .engine :: rest → step s = .next { s with inputs := rest })

/-! ## The command trigger -/

/-- Rules R80, R81: a command write to an idle block, accepted or refused. -/
def Obligations.CommandTriggerWrite : Prop :=
  ∀ (s : State) (v : Word) (rest : List Input), s.busy = false → s.inputs = .txn (.wrReg 0 v) :: rest →
    ∃ t, step s = .next t ∧ t.cmd = v ∧ t.olen = 0 ∧ t.epos = 0 ∧
      t.ilen = s.ilen ∧ t.ibuf = s.ibuf ∧ t.obuf = s.obuf ∧ t.par = s.par ∧ t.resets = s.resets ∧
      t.inputs = rest ∧ t.answers = s.answers ++ [.ok] ∧
      (if v.extractLsb' 3 29 ≠ 0 ∨ v.extractLsb' 1 2 = 3 then t.status = 0x44 ∧ t.busy = false ∧ DatapathSame s t
        else if s.par.inMax < s.ilen.toNat then t.status = 0x54 ∧ t.busy = false ∧ DatapathSame s t
        else t.status = 0x01 ∧ t.acc = 0 ∧ t.nb = 0 ∧ t.ip = 0 ∧ t.op = 0)

/-- Rules R22, R80, R154: the `start` of each of the six operations, and its refusal with `E_LEN`. -/
def Obligations.EveryOperationStarts : Prop :=
  ∀ (i : Instr) (s : State), s.busy = false →
    exec i s = .next
      (if s.ilen.toNat ≤ s.par.inMax then
        { s with cmd := encode i, olen := 0, epos := 0, status := 0x01, acc := 0, nb := 0, ip := 0, op := 0 }
      else { s with cmd := encode i, olen := 0, epos := 0, status := 0x54 })

/-- Rules R150, R155, R156: the two exits of an operation, and the STATUS word of each error. That the hidden registers stand
as they were after `raise` is the model's choice (notes/assumptions/11.md, DEDUCED), since rule R21 calls them unspecified
then; after `finish()` rule R155 says that they keep what they held. -/
def Obligations.ExitsReport : Prop :=
  (∀ s : State, finish s = .next { s with olen := s.op, status := 0x02 }) ∧
  (∀ (e : ErrorCode) (pos : Nat) (s : State),
    raise e pos s = .next { s with
      olen := 0, epos := BitVec.ofNat 32 pos,
      status := match e with
        | .eSym => 0x14
        | .eZpos => 0x24
        | .eRange => 0x34
        | .eIllop => 0x44
        | .eLen => 0x54 })

/-! ## The data encodings -/

/-- Rules R84, R85: the default tables. -/
def Obligations.DefaultTables : Prop :=
  defaultSym5.length = 32 ∧ defaultSym6.length = 64 ∧
  (∀ v, v ≤ 25 → defaultSym5[v]? = some (BitVec.ofNat 8 (0x41 + v))) ∧
  (∀ v, 26 ≤ v → v ≤ 31 → defaultSym5[v]? = some (BitVec.ofNat 8 (0x32 + (v - 26)))) ∧
  (∀ v, v ≤ 25 → defaultSym6[v]? = some (BitVec.ofNat 8 (0x41 + v))) ∧
  (∀ v, 26 ≤ v → v ≤ 51 → defaultSym6[v]? = some (BitVec.ofNat 8 (0x61 + (v - 26)))) ∧
  (∀ v, 52 ≤ v → v ≤ 61 → defaultSym6[v]? = some (BitVec.ofNat 8 (0x30 + (v - 52)))) ∧
  defaultSym6[62]? = some 0x2B ∧ defaultSym6[63]? = some 0x2F

/-- Rule R86: the inverse tables, for all well-formed parameters; and what the default ones accept. -/
def Obligations.InverseTables : Prop :=
  (∀ (p : Params) (c : Byte) (v : Nat), p.wellFormed = true →
    ((grouped5 p).inverse c = some v ↔ p.sym5[v]? = some c) ∧ ((grouped6 p).inverse c = some v ↔ p.sym6[v]? = some c)) ∧
  (∀ c : Byte, ((grouped5 defaultParams).inverse c).isSome = true ↔
    (0x41 ≤ c.toNat ∧ c.toNat ≤ 0x5A) ∨ (0x32 ≤ c.toNat ∧ c.toNat ≤ 0x37)) ∧
  (∀ c : Byte, ((grouped6 defaultParams).inverse c).isSome = true ↔
    (0x41 ≤ c.toNat ∧ c.toNat ≤ 0x5A) ∨ (0x61 ≤ c.toNat ∧ c.toNat ≤ 0x7A) ∨ (0x30 ≤ c.toNat ∧ c.toNat ≤ 0x39) ∨
      c = 0x2B ∨ c = 0x2F)

/-- Rule R87: the base-85 digits are the codes 33 to 117 in order, and no other code is a digit. -/
def Obligations.Base85Digits : Prop :=
  (∀ d, d ≤ 84 → (digitChar d).toNat = d + 33 ∧ charDigit (digitChar d) = some d) ∧
  (∀ (c : Byte) (d : Nat), charDigit c = some d ↔ 33 ≤ c.toNat ∧ c.toNat ≤ 117 ∧ d = c.toNat - 33)

/-! ## The actions of the operations -/

/-- Rules R112, R113, `step`. -/
def Obligations.GroupedEncodersTakeAByte : Prop :=
  EncodeStepSpec .enc5 5 grouped5 ∧ EncodeStepSpec .enc6 6 grouped6

/-- Rules R112, R113, `end`. -/
def Obligations.GroupedEncodersPadAndFinish : Prop :=
  EncodeEndSpec .enc5 5 8 grouped5 ∧ EncodeEndSpec .enc6 6 4 grouped6

/-- Rules R122, R123, R125: the two ways to succeed. -/
def Obligations.GroupedDecodersFinish : Prop := DecodeFinishSpec .dec5 ∧ DecodeFinishSpec .dec6

/-- Rules R122, R123, R124: the error. That the hidden registers are as before is the model's choice
(notes/assumptions/11.md, DEDUCED), not the spec's. -/
def Obligations.GroupedDecodersRaise : Prop :=
  DecodeForeignSpec .dec5 Params.sym5 ∧ DecodeForeignSpec .dec6 Params.sym6

/-- Rules R122, R123: a symbol. -/
def Obligations.GroupedDecodersTakeASymbol : Prop :=
  DecodeSymbolSpec .dec5 5 Params.sym5 ∧ DecodeSymbolSpec .dec6 6 Params.sym6

/-- Rules R131, R132, R133, `step`: a chunk of `m` bytes becomes `z` or its `m + 1` leading digits. -/
def Obligations.Encode85TakesAChunk : Prop :=
  ∀ s : State, AtStep .enc85 s →
    ∃ t, exec .enc85 s = .next t ∧ Continues s t ∧ t.nb = 0 ∧
      t.ip.toNat = s.ip.toNat + min 4 (s.ilen.toNat - s.ip.toNat) ∧
      t.acc.toNat = chunkSum ((s.message.drop s.ip.toNat).take 4) ∧
      Emitted (chunkText ((s.message.drop s.ip.toNat).take 4)) s t

/-- Rules R132, R155: the `end` of ENC85. -/
def Obligations.Encode85Finishes : Prop :=
  ∀ s : State, AtEnd .enc85 s →
    exec .enc85 s = .next { s with olen := s.op, status := 0x02 }

/-- Rules R142, R145: `z` at a chunk boundary gives 4 zero bytes, inside a group it is `E_ZPOS`. -/
def Obligations.Decode85ZeroSymbol : Prop :=
  ∀ s : State, AtStep .dec85 s → s.ibufByte s.ip.toNat = 0x7A →
    ∃ t, exec .dec85 s = .next t ∧
      (if s.nb = 0 then
        Continues s t ∧ Emitted [0, 0, 0, 0] s t ∧ t.ip.toNat = s.ip.toNat + 1 ∧ t.acc = s.acc ∧ t.nb = 0
      else Raises 0x24 s.ip.toNat s t)

/-- Rules R87, R142, R143, R147: a digit joins the group; the fifth one gives 4 bytes or `E_RANGE`. -/
def Obligations.Decode85Digit : Prop :=
  ∀ (s : State) (d : Nat), AtStep .dec85 s → d ≤ 84 → (s.ibufByte s.ip.toNat).toNat = d + 33 →
    ∃ t, exec .dec85 s = .next t ∧
      (if s.nb.toNat < 4 then
        Continues s t ∧ Emitted [] s t ∧ t.ip.toNat = s.ip.toNat + 1 ∧ t.nb.toNat = s.nb.toNat + 1 ∧
          t.acc.toNat = s.acc.toNat * 85 + d
      else if s.acc.toNat * 85 + d ≤ 0xFFFFFFFF then
        Continues s t ∧ Emitted (bigEndian (s.acc.toNat * 85 + d)) s t ∧ t.ip.toNat = s.ip.toNat + 1 ∧
          t.nb = 0 ∧ t.acc = 0
      else Raises 0x34 s.ip.toNat s t)

/-- Rules R142, R148, R150: any other character is `E_SYM`. `DatapathSame`, the hidden registers after the error, is the
model's choice (notes/assumptions/11.md, DEDUCED): rule R21 calls them unspecified once an operation has ended. -/
def Obligations.Decode85ForeignCharacter : Prop :=
  ∀ s : State, AtStep .dec85 s → s.ibufByte s.ip.toNat ≠ 0x7A →
    ((s.ibufByte s.ip.toNat).toNat < 33 ∨ 117 < (s.ibufByte s.ip.toNat).toNat) →
    ∃ t, exec .dec85 s = .next t ∧ Raises 0x14 s.ip.toNat s t ∧ DatapathSame s t

/-- Rules R141, R142, R143, R144, `end`: with no digit left it finishes; a last group of `g` digits, filled out with 84,
gives its first `g - 1` bytes or `E_RANGE` at the last character. -/
def Obligations.Decode85LastGroup : Prop :=
  ∀ s : State, AtEnd .dec85 s →
    ∃ t, exec .dec85 s = .next t ∧
      (if s.nb = 0 then Finishes s t ∧ t.obuf = s.obuf ∧ t.op = s.op
      else if s.acc.toNat * 85 ^ (5 - s.nb.toNat) + (85 ^ (5 - s.nb.toNat) - 1) ≤ 0xFFFFFFFF then
        Finishes s t ∧
          Emitted ((bigEndian (s.acc.toNat * 85 ^ (5 - s.nb.toNat) + (85 ^ (5 - s.nb.toNat) - 1))).take
            (s.nb.toNat - 1)) s t
      else Raises 0x34 (s.ilen.toNat - 1) s t)

/-! ## Whole operations -/

/-- Rule R111: the machine's ENC5 and ENC6 compute the stateless encoder. -/
def Obligations.GroupedEncodersComputeTheirRule : Prop := RunGives .enc5 ∧ RunGives .enc6

/-- Rule R121: the machine's DEC5 and DEC6 compute the stateless decoder, errors and positions included. -/
def Obligations.GroupedDecodersComputeTheirRule : Prop := RunGives .dec5 ∧ RunGives .dec6

/-- Rule R131: the machine's ENC85 computes the stateless encoder. -/
def Obligations.Encode85ComputesItsRule : Prop := RunGives .enc85

/-- Rule R141: the machine's DEC85 computes the stateless decoder, errors and positions included. -/
def Obligations.Decode85ComputesItsRule : Prop := RunGives .dec85

/-- Rule R126, on the stateless definitions, for every message and all well-formed tables. -/
def Obligations.GroupedRoundTrip : Prop :=
  ∀ (p : Params) (m : List Byte), p.wellFormed = true →
    decodeGrouped (grouped5 p) (encodeGrouped (grouped5 p) m) = .ok m ∧
    decodeGrouped (grouped6 p) (encodeGrouped (grouped6 p) m) = .ok m

/-- Rule R146, on the stateless definitions, for every message. -/
def Obligations.Base85RoundTrip : Prop := ∀ m : List Byte, decode85 (encode85 m) = .ok m

/-- Rules R126, R146, on the machine, for all three families. -/
def Obligations.RoundTripOnTheMachine : Prop :=
  MachineRoundTrip .enc5 .dec5 ∧ MachineRoundTrip .enc6 .dec6 ∧ MachineRoundTrip .enc85 .dec85

/-- Rules R21, R22, R190(a): an outcome depends on the parameters and the message alone: not on what a previous
operation left in the hidden registers, OBUF or the report, nor on the bytes of IBUF at or above ILEN. -/
def Obligations.OutcomeDependsOnTheMessageOnly : Prop :=
  ∀ (i : Instr) (s s' : State), s.par.wellFormed = true → s'.par = s.par →
    s.busy = false → s'.busy = false → s'.ilen = s.ilen → s.ilen.toNat ≤ s.par.inMax →
    (∀ k, k < s.ilen.toNat → s'.ibufByte k = s.ibufByte k) → SameOutcome i s s'

/-! ## Properties of the containers -/

/-- Rule R89: the total length, the least multiple of the framing width that holds the symbols. -/
def Obligations.EncodedLength : Prop :=
  ∀ (p : Params) (m : List Byte),
    (encodeGrouped (grouped5 p) m).length = 8 * ((m.length + 4) / 5) ∧
    (encodeGrouped (grouped6 p) m).length = 4 * ((m.length + 2) / 3)

/-- Rule R114: `=` is a suffix, present exactly when the symbols do not fill a frame, and every other character is in
the alphabet. -/
def Obligations.EncodedAlphabet : Prop :=
  ∀ (p : Params) (m : List Byte), p.wellFormed = true →
    (∃ symbols k, encodeGrouped (grouped5 p) m = symbols ++ List.replicate k 0x3D ∧
      symbols.length = (8 * m.length + 4) / 5 ∧ (∀ c ∈ symbols, c ∈ p.sym5) ∧ (k = 0 ↔ symbols.length % 8 = 0)) ∧
    (∃ symbols k, encodeGrouped (grouped6 p) m = symbols ++ List.replicate k 0x3D ∧
      symbols.length = (8 * m.length + 5) / 6 ∧ (∀ c ∈ symbols, c ∈ p.sym6) ∧ (k = 0 ↔ symbols.length % 4 = 0))

/-- Rules R87, R92, R136: the characters of a base-85 container; one `z` for each all-zero full chunk of the message and no
other; its length by rule R92's formula. -/
def Obligations.Encode85Shape : Prop :=
  ∀ m : List Byte,
    (∀ c ∈ encode85 m, c = 0x7A ∨ 33 ≤ c.toNat ∧ c.toNat ≤ 117) ∧
    zeroChunkCount m ≤ m.length / 4 ∧
    (encode85 m).count 0x7A = zeroChunkCount m ∧
    (encode85 m).length =
      5 * (m.length / 4 - zeroChunkCount m) + zeroChunkCount m + (if m.length % 4 = 0 then 0 else m.length % 4 + 1)

/-- Rule R53: no operation gives more bytes than the rule's bound, and the result of a message that fits IBUF fits OBUF. -/
def Obligations.OutputFits : Prop :=
  ∀ (p : Params) (m : List Byte) (i : Instr) (out : List Byte), outcomeOf p m i = .ok out →
    out.length ≤ (match i with
      | .enc5 => 8 * ((m.length + 4) / 5)
      | .enc6 => 4 * ((m.length + 2) / 3)
      | .enc85 => 5 * (m.length / 4) + m.length % 4 + 1
      | .dec5 => 5 * m.length / 8
      | .dec6 => 6 * m.length / 8
      | .dec85 => 4 * m.length) ∧
    out.length ≤ 4 * m.length + 4 ∧
    (m.length ≤ p.inMax → out.length ≤ p.outMax)

/-- Rule R52: a long message may be encoded in pieces whose lengths are multiples of 5, 3 or 4 bytes. -/
def Obligations.EncodingInPieces : Prop :=
  ∀ (p : Params) (a b : List Byte),
    (a.length % 5 = 0 →
      encodeGrouped (grouped5 p) (a ++ b) = encodeGrouped (grouped5 p) a ++ encodeGrouped (grouped5 p) b) ∧
    (a.length % 3 = 0 →
      encodeGrouped (grouped6 p) (a ++ b) = encodeGrouped (grouped6 p) a ++ encodeGrouped (grouped6 p) b) ∧
    (a.length % 4 = 0 → encode85 (a ++ b) = encode85 a ++ encode85 b)

/-- Rule R125: a text with characters after a `=` decodes as if it ended at that `=`. -/
def Obligations.TextAfterPaddingIsIgnored : Prop :=
  ∀ (g : Grouped) (a b : List Byte), decodeGrouped g (a ++ 0x3D :: b) = decodeGrouped g a

/-- Rule R133: `z` for full zero chunks only; a short zero chunk of `r` bytes is `r + 1` characters `!`. -/
def Obligations.ZeroChunks : Prop :=
  ∀ n : Nat, encode85 (List.replicate n 0) =
    List.replicate (n / 4) 0x7A ++ (if n % 4 = 0 then [] else List.replicate (n % 4 + 1) 0x21)

/-- Rules R141, R143: one full group, in range or not. -/
def Obligations.FullGroupRange : Prop :=
  ∀ d0 d1 d2 d3 d4 : Nat, d0 ≤ 84 → d1 ≤ 84 → d2 ≤ 84 → d3 ≤ 84 → d4 ≤ 84 →
    decode85 [digitChar d0, digitChar d1, digitChar d2, digitChar d3, digitChar d4] =
      if d0 * 85 ^ 4 + d1 * 85 ^ 3 + d2 * 85 ^ 2 + d3 * 85 + d4 ≤ 2 ^ 32 - 1 then
        .ok (bigEndian (d0 * 85 ^ 4 + d1 * 85 ^ 3 + d2 * 85 ^ 2 + d3 * 85 + d4))
      else .error (.eRange, 4)

/-- Rules R89, R90, R116: the padding a message gets fills its last frame, and the remainders no message reaches. -/
def Obligations.PaddingFillsTheFrame : Prop :=
  ∀ (p : Params) (n : Nat),
    (grouped5 p).padCount (symbolCount 5 n) = (8 - symbolCount 5 n % 8) % 8 ∧
    (grouped6 p).padCount (symbolCount 6 n) = (4 - symbolCount 6 n % 4) % 4 ∧
    symbolCount 5 n % 8 ∈ [0, 2, 4, 5, 7] ∧ symbolCount 6 n % 4 ∈ [0, 2, 3]

/-! ## The port -/

/-- Rule R55: the port answers `NAK`, and nothing changes, in exactly the cases of its table. -/
def Obligations.PortRefusesExactly : Prop :=
  ∀ (s : State) (q : Transaction) (rest : List Input), s.inputs = .txn q :: rest →
    (RefusedRow q s → ∃ t, step s = .next t ∧ OnlyAnswered s t rest .nak) ∧
    (¬ RefusedRow q s → ∃ t a, step s = .next t ∧ t.answers = s.answers ++ [a] ∧ a ≠ .nak)

/-- Rule R56: the BUSY lock. -/
def Obligations.BusyLock : Prop :=
  ∀ (s : State) (q : Transaction) (rest : List Input), s.busy = true → s.inputs = .txn q :: rest →
    ∃ t, step s = .next t ∧
      OnlyAnswered s t rest (if q = .rdReg 0 then .okWord s.cmd else if q = .rdReg 1 then .okWord s.status
        else if q = .rdReg 2 then .okWord s.ilen else .nak)

/-- Rules R22, R188, R192: whatever the host tries while an operation runs, and however often it polls, only the record
of answers grows. -/
def Obligations.HostCannotDisturbARun : Prop :=
  ∀ (s : State) (qs : List Transaction), s.busy = true →
    ∃ as : List Answer, as.length = qs.length ∧
      core.run qs.length { s with inputs := qs.map .txn ++ s.inputs } = .next { s with answers := s.answers ++ as }

/-- Rules R24, R54: reads of an idle block, with no side effect. -/
def Obligations.PortReads : Prop :=
  ∀ (s : State) (rest : List Input), s.busy = false →
    (∀ k v, [s.cmd, s.status, s.ilen, s.olen, s.epos][k]? = some v → s.inputs = .txn (.rdReg k) :: rest →
      ∃ t, step s = .next t ∧ OnlyAnswered s t rest (.okWord v)) ∧
    (∀ i, i < s.par.inMax → s.inputs = .txn (.rdIbuf i) :: rest →
      ∃ t, step s = .next t ∧ OnlyAnswered s t rest (.okByte (s.ibufByte i))) ∧
    (∀ j, j < s.olen.toNat → j < s.par.outMax → s.inputs = .txn (.rdObuf j) :: rest →
      ∃ t, step s = .next t ∧ OnlyAnswered s t rest (.okByte (s.obufByte j)))

/-- Rules R27, R30, R54: writes of ILEN and of a byte of IBUF in an idle block; every other byte, and everything else,
is as before. -/
def Obligations.PortWrites : Prop :=
  ∀ (s : State) (rest : List Input), s.busy = false →
    (∀ v, s.inputs = .txn (.wrReg 2 v) :: rest →
      step s = .next { s with ilen := v, inputs := rest, answers := s.answers ++ [.ok] }) ∧
    (∀ i b, i < s.par.inMax → s.inputs = .txn (.wrIbuf i b) :: rest →
      ∃ t, step s = .next t ∧ t = { s with ibuf := t.ibuf, inputs := rest, answers := s.answers ++ [.ok] } ∧
        t.ibufByte i = b ∧ ∀ k, k ≠ i → t.ibufByte k = s.ibufByte k)

/-- Rule R98, `LOAD`: the message is in place, and the port answered `OK` throughout. -/
def Obligations.LoadPlacesTheMessage : Prop :=
  ∀ (s : State) (bytes : List Byte), Params.sized s.par → s.busy = false → bytes.length ≤ s.par.inMax →
    ∃ t, core.run (bytes.length + 1) { s with inputs := scriptInputs (scriptLoad bytes) } = .next t ∧
      t.message = bytes ∧ t.status = s.status ∧ t.inputs = [] ∧
      t.answers = s.answers ++ List.replicate (bytes.length + 1) .ok

/-- Rule R98, `FETCH` and `MOVE` in an idle block, however many turns the engine gets between the transactions: `FETCH`
gives the length and then the bytes of the result, with no effect on the block; `MOVE` makes the bytes fetched the next
message and leaves the report and the result as they are. -/
def Obligations.FetchAndMoveTheResult : Prop :=
  ∀ s : State, s.busy = false → s.olen.toNat ≤ s.par.outMax →
    core.run (s.olen.toNat + 1) { s with inputs := scriptInputs (scriptFetch s.olen.toNat) } =
      .next { s with inputs := [], answers := s.answers ++ .okWord s.olen :: s.result.map .okByte } ∧
    ∀ pauses : List Nat,
      hostFetch pauses s =
        .done { s with answers := s.answers ++ .okWord s.olen :: s.result.map .okByte } s.result ∧
      (Params.sized s.par → s.olen.toNat ≤ s.par.inMax →
        ∃ t, hostMove pauses s = .done t s.result ∧ t.message = s.result ∧ t.result = s.result ∧ ReportSame s t ∧
          t.cmd = s.cmd ∧ t.par = s.par ∧ t.inputs = s.inputs ∧
          t.answers = s.answers ++ .okWord s.olen :: s.result.map .okByte ++ List.replicate (s.result.length + 1) .ok)

/-- Rule R98, `RUN`: once the engine has had its turns, `ILEN + 1` at most, the next poll finds `BUSY` clear and ends it, all
polls before it having found `0x01`; its result is the final STATUS, and the block shows the operation's outcome. With no
turn for the engine it goes on polling. A command refused with `E_LEN` ends at the first poll. -/
def Obligations.RunPollsUntilDone : Prop :=
  ∀ (i : Instr) (s : State) (pauses : List Nat), s.par.wellFormed = true → s.busy = false →
    (s.ilen.toNat ≤ s.par.inMax → s.ilen.toNat + 1 ≤ pauses.tail.sum →
      ∃ t k, hostRun i pauses s = .done t t.status ∧ t.busy = false ∧ k < pauses.tail.length ∧
        t.shows (outcomeOf s.par s.message i) ∧ t.inputs = s.inputs ∧
        t.answers = s.answers ++ .ok :: (List.replicate k (.okWord 0x01) ++ [.okWord t.status])) ∧
    (s.ilen.toNat ≤ s.par.inMax → pauses.tail.sum = 0 → ∃ t, hostRun i pauses s = .polling t ∧ t.status = 0x01) ∧
    (s.par.inMax < s.ilen.toNat → pauses.tail ≠ [] →
      ∃ t, hostRun i pauses s = .done t 0x54 ∧ t.status = 0x54 ∧ t.answers = s.answers ++ [.ok, .okWord 0x54])

/-! ## The whole machine -/

/-- The invariant holds at reset (rules R7, R21, R26 to R31, R34). The parameters of `State.reset` are the model's choice
(notes/assumptions/1.md, DESIGN CHOICE), its tables the defaults of notes/assumptions/2.md (UNVERIFIED). -/
def Obligations.ResetMeetsTheInvariant : Prop := State.reset.Inv

/-- Every step keeps the invariant, from every state that meets it (rules R7, R21, R22, R26 to R31). -/
def Obligations.StepKeepsTheInvariant : Prop := ∀ s t : State, s.Inv → step s = .next t → t.Inv

/-- Rules R53, R57, R58, R153, R191: from a state that meets the invariant no step stops: the engine never reads or
writes outside its buffers, and an action is always enabled while BUSY. -/
def Obligations.StepNeverStops : Prop := ∀ s : State, s.Inv → ∃ t, step s = .next t

/-- Rule R191: a running operation ends within `ILEN - IP` steps and one `end`. -/
def Obligations.EveryOperationEnds : Prop :=
  ∀ s : State, s.Inv → s.busy = true → s.inputs = [] →
    ∃ k t, k ≤ s.ilen.toNat - s.ip.toNat + 1 ∧ core.run k s = .next t ∧ t.busy = false

/-- Rules R30, R58: no engine action changes CMD, ILEN, IBUF or the parameters, and OBUF only at or above `OP`. -/
def Obligations.EngineLeavesTheHostSide : Prop :=
  ∀ (i : Instr) (s t : State), s.busy = true → Params.sized s.par → exec i s = .next t →
    HostSideSame s t ∧ ∀ a, a < s.op.toNat → t.obufByte a = s.obufByte a

/-- Rules R35, R150, R155, R156: how a run ends: by reset, or in the engine's turn with DONE or one of the three errors of
a scan. -/
def Obligations.WaysOutOfBusy : Prop :=
  ∀ s t : State, s.busy = true → step s = .next t → t.busy = false →
    (∃ rest, s.inputs = .reset :: rest) ∨
    ((s.inputs = [] ∨ ∃ rest, s.inputs = .engine :: rest) ∧
      (t.status = 0x02 ∨ t.status = 0x14 ∨ t.status = 0x24 ∨ t.status = 0x34))

/-- Rules R124, R156: an action that fails leaves no readable output and a position inside the message. -/
def Obligations.ErrorsShowNoOutput : Prop :=
  ∀ (i : Instr) (s t : State), s.Inv → s.busy = true → decode s.cmd = .ok i → exec i s = .next t → t.err = true →
    t.olen = 0 ∧ t.epos.toNat < t.ilen.toNat ∧ HostSideSame s t ∧ t.busy = false ∧
      ∀ j, portRefuses (.rdObuf j) t = true

/-- Rule R189: a result or an error report lasts until a command write, legal or not, or reset; such a write ends it. -/
def Obligations.ReportLasts : Prop :=
  ∀ s t : State, s.busy = false → step s = .next t →
    ((∀ v rest, s.inputs ≠ .txn (.wrReg 0 v) :: rest) → (∀ rest, s.inputs ≠ .reset :: rest) →
      ReportSame s t ∧ t.cmd = s.cmd ∧ t.obuf = s.obuf ∧ t.result = s.result ∧ DatapathSame s t) ∧
    (∀ v rest, s.inputs = .txn (.wrReg 0 v) :: rest → t.olen = 0 ∧ t.epos = 0 ∧ t.done = false)

/-- Rules R30, R34: a byte of IBUF keeps its value, written or drawn at reset, until the host writes it or reset. -/
def Obligations.IbufIsStable : Prop :=
  ∀ (s t : State) (i : Nat), step s = .next t → (∀ b rest, s.inputs ≠ .txn (.wrIbuf i b) :: rest) →
    (∀ rest, s.inputs ≠ .reset :: rest) → t.ibufByte i = s.ibufByte i

/-- Rules R7, R32: no step changes the parameters or the tables. -/
def Obligations.ParametersAreConstant : Prop := ∀ s t : State, step s = .next t → t.par = s.par
end

