-- ==== Sys2Proof/Laws/Memory.lean ====
section
/-! SUPPORT. The laws of a buffer: read after write, and that a write keeps the canonical form and the range. -/

namespace Sys2Proof.Machine

theorem Memory.lookup_write_same (m : Memory) (a : Nat) (x : Byte) :
    Memory.lookup (Memory.write m a x) a = some x := by
  induction m with
  | nil => simp [Memory.write, Memory.lookup]
  | cons c rest ih =>
    obtain ⟨b, y⟩ := c
    by_cases h1 : a < b
    · simp [Memory.write, Memory.lookup, h1]
    · by_cases h2 : a = b
      · simp [Memory.write, Memory.lookup, h2]
      · simp [Memory.write, Memory.lookup, h1, h2, ih]

theorem Memory.lookup_write_other (m : Memory) (a k : Nat) (x : Byte) (h : k ≠ a) :
    Memory.lookup (Memory.write m a x) k = Memory.lookup m k := by
  induction m with
  | nil => simp [Memory.write, Memory.lookup, h]
  | cons c rest ih =>
    obtain ⟨b, y⟩ := c
    by_cases h1 : a < b
    · simp [Memory.write, Memory.lookup, h1, h]
    · by_cases h2 : a = b
      · subst h2
        simp [Memory.write, Memory.lookup, h]
      · by_cases h3 : k = b
        · simp [Memory.write, Memory.lookup, h1, h2, h3]
        · simp [Memory.write, Memory.lookup, h1, h2, h3, ih]

/-- A cell listed after a write is the one written, or was listed before. -/
theorem Memory.mem_write {m : Memory} {a : Nat} {x : Byte} {c : Host.Cell} (h : c ∈ Memory.write m a x) :
    c = (a, x) ∨ c ∈ m := by
  induction m with
  | nil => simpa [Memory.write] using h
  | cons d rest ih =>
    obtain ⟨b, y⟩ := d
    simp only [Memory.write] at h
    split at h
    · simpa using h
    · split at h
      · rcases List.mem_cons.1 h with h | h
        · exact .inl h
        · exact .inr (List.mem_cons_of_mem _ h)
      · rcases List.mem_cons.1 h with h | h
        · exact .inr (h ▸ List.mem_cons_self)
        · exact (ih h).imp id (List.mem_cons_of_mem _)

/-- A write keeps the canonical form. -/
theorem Memory.wf_write {m : Memory} (a : Nat) (x : Byte) (h : Memory.wf m) : Memory.wf (Memory.write m a x) := by
  induction m with
  | nil => simp [Memory.write, Memory.wf]
  | cons d rest ih =>
    obtain ⟨b, y⟩ := d
    obtain ⟨hb, hr⟩ := List.pairwise_cons.1 h
    simp only [Memory.write]
    split
    case isTrue hlt =>
      refine List.pairwise_cons.2 ⟨fun c hc => ?_, h⟩
      rcases List.mem_cons.1 hc with rfl | hc
      · exact hlt
      · exact hlt.trans (hb c hc)
    case isFalse hnlt =>
      split
      case isTrue heq =>
        subst heq
        exact List.pairwise_cons.2 ⟨hb, hr⟩
      case isFalse hne =>
        refine List.pairwise_cons.2 ⟨fun c hc => ?_, ih hr⟩
        rcases Memory.mem_write hc with rfl | hc
        · simp only; omega
        · exact hb c hc

/-- A write inside a range keeps every listed cell in it. -/
theorem Memory.range_write {m : Memory} {n a : Nat} (x : Byte) (ha : a < n) (h : ∀ c ∈ m, c.1 < n) :
    ∀ c ∈ Memory.write m a x, c.1 < n := by
  intro c hc
  rcases Memory.mem_write hc with rfl | hc
  · exact ha
  · exact h c hc

/-- The reset buffer is in canonical form. -/
theorem Memory.wf_nil : Memory.wf [] := List.Pairwise.nil

@[simp] theorem State.storeIbuf_ibufByte_same (s : State) (i : Nat) (b : Byte) : (s.storeIbuf i b).ibufByte i = b := by
  simp [State.ibufByte, State.storeIbuf, Memory.lookup_write_same]

theorem State.storeIbuf_ibufByte_other (s : State) (i k : Nat) (b : Byte) (h : k ≠ i) :
    (s.storeIbuf i b).ibufByte k = s.ibufByte k := by
  simp [State.ibufByte, State.storeIbuf, Memory.lookup_write_other _ _ _ _ h]

@[simp] theorem State.emit_obufByte_same (s : State) (b : Byte) : (s.emit b).obufByte s.op.toNat = b := by
  simp [State.obufByte, State.emit, Memory.lookup_write_same]

theorem State.emit_obufByte_other (s : State) (b : Byte) (k : Nat) (h : k ≠ s.op.toNat) :
    (s.emit b).obufByte k = s.obufByte k := by
  simp [State.obufByte, State.emit, Memory.lookup_write_other _ _ _ _ h]

end Sys2Proof.Machine
end

