-- ==== Sys2Proof/Laws/Numbers.lean ====
section
/-! SUPPORT. The accumulator's bit operations as plain arithmetic, and the loops of the pseudocode in closed form. -/

namespace Sys2Proof.Machine

theorem lowBits_eq (acc nb : Nat) : lowBits acc nb = acc % 2 ^ nb := by
  simp [lowBits, Nat.and_two_pow_sub_one_eq_mod]

theorem lowBits_lt (acc nb : Nat) : lowBits acc nb < 2 ^ nb := by
  rw [lowBits_eq]; exact Nat.mod_lt _ (Nat.two_pow_pos nb)

theorem shiftIn_eq (acc k x : Nat) (h : x < 2 ^ k) : shiftIn acc k x = acc * 2 ^ k + x := by
  rw [shiftIn, ← Nat.shiftLeft_add_eq_or_of_lt h, Nat.shiftLeft_eq]

theorem shiftIn_byte (acc : Nat) (b : Byte) : shiftIn acc 8 b.toNat = acc * 2 ^ 8 + b.toNat :=
  shiftIn_eq _ _ _ b.isLt

theorem drainCount_eq (w fuel nb : Nat) (hw : 0 < w) (hf : nb ≤ fuel) : drainCount w fuel nb = nb % w := by
  induction fuel generalizing nb with
  | zero => simp [drainCount, Nat.le_zero.1 hf]
  | succ n ih =>
    simp only [drainCount]
    split
    case isTrue h => rw [ih _ (by omega), ← Nat.mod_eq_sub_mod h]
    case isFalse h => rw [Nat.mod_eq_of_lt (by omega)]

theorem drainAcc_eq (w fuel acc nb : Nat) (hw : 0 < w) (hf : nb ≤ fuel) (ha : acc < 2 ^ nb) :
    drainAcc w fuel acc nb = acc % 2 ^ (nb % w) := by
  induction fuel generalizing acc nb with
  | zero =>
    have : nb = 0 := by omega
    subst this
    simp only [drainAcc, Nat.zero_mod, pow_zero, Nat.mod_one]
    simpa using ha
  | succ n ih =>
    simp only [drainAcc]
    split
    case isTrue h =>
      rw [ih _ _ (by omega) (lowBits_lt _ _), ← Nat.mod_eq_sub_mod h, lowBits_eq]
      refine Nat.mod_mod_of_dvd _ (Nat.pow_dvd_pow 2 ?_)
      rw [Nat.mod_eq_sub_mod h]
      exact Nat.mod_le _ _
    case isFalse h =>
      rw [Nat.mod_eq_of_lt (Nat.lt_of_not_le h), Nat.mod_eq_of_lt ha]

/-- The symbols of the encoders' loop are the whole `w`-bit windows of the accumulator, from the top. -/
theorem drainSymbols_eq (w fuel acc nb : Nat) (hw : 0 < w) (hf : nb ≤ fuel) :
    drainSymbols w fuel acc nb = (List.range (nb / w)).map (fun k => acc / 2 ^ (nb - w * (k + 1)) % 2 ^ w) := by
  induction fuel generalizing acc nb with
  | zero => simp [drainSymbols, Nat.le_zero.1 hf]
  | succ n ih =>
    simp only [drainSymbols]
    split
    case isTrue h =>
      have hdiv : nb / w = (nb - w) / w + 1 := by
        rw [Nat.div_eq_sub_div hw h]
      rw [ih _ _ (by omega), hdiv, List.range_succ_eq_map, List.map_cons, List.map_map]
      congr 1
      · rw [lowBits_eq, Nat.shiftRight_eq_div_pow]; simp
      · refine List.map_congr_left fun k hk => ?_
        have hk' : w * (k + 1) ≤ nb - w := by
          have := List.mem_range.1 hk
          calc w * (k + 1) ≤ w * ((nb - w) / w) := Nat.mul_le_mul_left _ this
            _ ≤ nb - w := Nat.mul_div_le _ _
        have e : nb - w * (k + 1 + 1) = nb - w - w * (k + 1) := by
          rw [Nat.mul_succ w (k + 1)]; omega
        rw [lowBits_eq, Function.comp, Nat.succ_eq_add_one, e]
        have split2 : 2 ^ (nb - w) = 2 ^ (nb - w - w * (k + 1)) * 2 ^ (w * (k + 1)) := by
          rw [← pow_add]; congr 1; omega
        rw [split2, Nat.mod_mul_right_div_self, Nat.mod_mod_of_dvd _ (Nat.pow_dvd_pow 2 (Nat.le_mul_of_pos_right w (Nat.succ_pos k)))]
    case isFalse h =>
      rw [Nat.div_eq_of_lt (Nat.lt_of_not_le h)]; rfl

theorem lastWindow_eq (w acc nb : Nat) (ha : acc < 2 ^ nb) (hn : nb ≤ w) : lastWindow w acc nb = acc * 2 ^ (w - nb) := by
  rw [lastWindow, lowBits_eq, Nat.shiftLeft_eq, Nat.mod_eq_of_lt]
  calc acc * 2 ^ (w - nb) < 2 ^ nb * 2 ^ (w - nb) := Nat.mul_lt_mul_of_pos_right ha (Nat.two_pow_pos _)
    _ = 2 ^ w := by rw [← pow_add]; congr 1; omega

theorem fillGroup_eq (k acc : Nat) : fillGroup k acc = acc * 85 ^ k + (85 ^ k - 1) := by
  induction k generalizing acc with
  | zero => simp [fillGroup]
  | succ n ih =>
    have : 0 < 85 ^ n := Nat.pow_pos (by decide)
    rw [fillGroup, ih, fillerDigit, pow_succ, Nat.add_mul, Nat.mul_assoc acc 85, Nat.mul_comm 85 (85 ^ n)]
    omega

/-- The engine's chunk value is the stateless sum, for a chunk of 1 to 4 bytes. -/
theorem chunkValue_eq (c : List Byte) (h1 : 1 ≤ c.length) (h4 : c.length ≤ 4) : chunkValue c = chunkSum c := by
  match c, h1, h4 with
  | [a], _, _ => simp [chunkValue, chunkSum, shiftIn_byte, Nat.shiftLeft_eq]
  | [a, b], _, _ => simp [chunkValue, chunkSum, shiftIn_byte, Nat.shiftLeft_eq]; omega
  | [a, b, c], _, _ => simp [chunkValue, chunkSum, shiftIn_byte, Nat.shiftLeft_eq]; omega
  | [a, b, c, d], _, _ => simp [chunkValue, chunkSum, shiftIn_byte, Nat.shiftLeft_eq]; omega

theorem chunkSum_lt (c : List Byte) : chunkSum c < 2 ^ 32 := by
  have h (i : Nat) : (c.getD i 0).toNat < 256 := (c.getD i 0).isLt
  have h0 := h 0
  have h1 := h 1
  have h2 := h 2
  have h3 := h 3
  simp only [chunkSum]
  omega

theorem chunkChars_eq (c : List Byte) : chunkChars c.length (chunkSum c) = chunkText c := rfl

theorem chunkChars_length (m v : Nat) : (chunkChars m v).length = if m = 4 ∧ v = 0 then 1 else m + 1 := by
  unfold chunkChars; split <;> simp

theorem leadingBytes_eq (k v : Nat) (h : k ≤ 4) : leadingBytes k v = (bigEndian v).take k := by
  match k, h with
  | 0, _ => rfl
  | 1, _ => simp [leadingBytes, bigEndian, Nat.shiftRight_eq_div_pow]
  | 2, _ => simp [leadingBytes, bigEndian, Nat.shiftRight_eq_div_pow, List.range_succ]
  | 3, _ => simp [leadingBytes, bigEndian, Nat.shiftRight_eq_div_pow, List.range_succ]
  | 4, _ => simp [leadingBytes, bigEndian, Nat.shiftRight_eq_div_pow, List.range_succ]

end Sys2Proof.Machine
end

