-- ==== Sys2Proof/Laws/State.lean ====
section
/-! SUPPORT. One lemma per field per named update of the state, true by rfl, so that no proof unfolds an update; and the
same for the two derived reads, a cell of IBUF and a cell of OBUF, and for the BUSY flag. -/

namespace Sys2Proof.Machine

/-! ### `State.pushAnswer` -/

@[simp] theorem State.pushAnswer_cmd (a : Answer) (s : State) : (s.pushAnswer a).cmd = s.cmd := rfl
@[simp] theorem State.pushAnswer_status (a : Answer) (s : State) : (s.pushAnswer a).status = s.status := rfl
@[simp] theorem State.pushAnswer_ilen (a : Answer) (s : State) : (s.pushAnswer a).ilen = s.ilen := rfl
@[simp] theorem State.pushAnswer_olen (a : Answer) (s : State) : (s.pushAnswer a).olen = s.olen := rfl
@[simp] theorem State.pushAnswer_epos (a : Answer) (s : State) : (s.pushAnswer a).epos = s.epos := rfl
@[simp] theorem State.pushAnswer_ibuf (a : Answer) (s : State) : (s.pushAnswer a).ibuf = s.ibuf := rfl
@[simp] theorem State.pushAnswer_obuf (a : Answer) (s : State) : (s.pushAnswer a).obuf = s.obuf := rfl
@[simp] theorem State.pushAnswer_acc (a : Answer) (s : State) : (s.pushAnswer a).acc = s.acc := rfl
@[simp] theorem State.pushAnswer_nb (a : Answer) (s : State) : (s.pushAnswer a).nb = s.nb := rfl
@[simp] theorem State.pushAnswer_ip (a : Answer) (s : State) : (s.pushAnswer a).ip = s.ip := rfl
@[simp] theorem State.pushAnswer_op (a : Answer) (s : State) : (s.pushAnswer a).op = s.op := rfl
@[simp] theorem State.pushAnswer_par (a : Answer) (s : State) : (s.pushAnswer a).par = s.par := rfl
@[simp] theorem State.pushAnswer_inputs (a : Answer) (s : State) : (s.pushAnswer a).inputs = s.inputs := rfl
@[simp] theorem State.pushAnswer_answers (a : Answer) (s : State) : (s.pushAnswer a).answers = s.answers ++ [a] := rfl
@[simp] theorem State.pushAnswer_resets (a : Answer) (s : State) : (s.pushAnswer a).resets = s.resets := rfl
@[simp] theorem State.pushAnswer_busy (a : Answer) (s : State) : (s.pushAnswer a).busy = s.busy := rfl
@[simp] theorem State.pushAnswer_ibufByte (a : Answer) (s : State) (k : Nat) : (s.pushAnswer a).ibufByte k = s.ibufByte k := rfl
@[simp] theorem State.pushAnswer_obufByte (a : Answer) (s : State) (k : Nat) : (s.pushAnswer a).obufByte k = s.obufByte k := rfl

/-! ### `State.setInputs` -/

@[simp] theorem State.setInputs_cmd (rest : List Input) (s : State) : (s.setInputs rest).cmd = s.cmd := rfl
@[simp] theorem State.setInputs_status (rest : List Input) (s : State) : (s.setInputs rest).status = s.status := rfl
@[simp] theorem State.setInputs_ilen (rest : List Input) (s : State) : (s.setInputs rest).ilen = s.ilen := rfl
@[simp] theorem State.setInputs_olen (rest : List Input) (s : State) : (s.setInputs rest).olen = s.olen := rfl
@[simp] theorem State.setInputs_epos (rest : List Input) (s : State) : (s.setInputs rest).epos = s.epos := rfl
@[simp] theorem State.setInputs_ibuf (rest : List Input) (s : State) : (s.setInputs rest).ibuf = s.ibuf := rfl
@[simp] theorem State.setInputs_obuf (rest : List Input) (s : State) : (s.setInputs rest).obuf = s.obuf := rfl
@[simp] theorem State.setInputs_acc (rest : List Input) (s : State) : (s.setInputs rest).acc = s.acc := rfl
@[simp] theorem State.setInputs_nb (rest : List Input) (s : State) : (s.setInputs rest).nb = s.nb := rfl
@[simp] theorem State.setInputs_ip (rest : List Input) (s : State) : (s.setInputs rest).ip = s.ip := rfl
@[simp] theorem State.setInputs_op (rest : List Input) (s : State) : (s.setInputs rest).op = s.op := rfl
@[simp] theorem State.setInputs_par (rest : List Input) (s : State) : (s.setInputs rest).par = s.par := rfl
@[simp] theorem State.setInputs_inputs (rest : List Input) (s : State) : (s.setInputs rest).inputs = rest := rfl
@[simp] theorem State.setInputs_answers (rest : List Input) (s : State) : (s.setInputs rest).answers = s.answers := rfl
@[simp] theorem State.setInputs_resets (rest : List Input) (s : State) : (s.setInputs rest).resets = s.resets := rfl
@[simp] theorem State.setInputs_busy (rest : List Input) (s : State) : (s.setInputs rest).busy = s.busy := rfl
@[simp] theorem State.setInputs_ibufByte (rest : List Input) (s : State) (k : Nat) : (s.setInputs rest).ibufByte k = s.ibufByte k := rfl
@[simp] theorem State.setInputs_obufByte (rest : List Input) (s : State) (k : Nat) : (s.setInputs rest).obufByte k = s.obufByte k := rfl

/-! ### `State.setIlen` -/

@[simp] theorem State.setIlen_cmd (v : Word) (s : State) : (s.setIlen v).cmd = s.cmd := rfl
@[simp] theorem State.setIlen_status (v : Word) (s : State) : (s.setIlen v).status = s.status := rfl
@[simp] theorem State.setIlen_ilen (v : Word) (s : State) : (s.setIlen v).ilen = v := rfl
@[simp] theorem State.setIlen_olen (v : Word) (s : State) : (s.setIlen v).olen = s.olen := rfl
@[simp] theorem State.setIlen_epos (v : Word) (s : State) : (s.setIlen v).epos = s.epos := rfl
@[simp] theorem State.setIlen_ibuf (v : Word) (s : State) : (s.setIlen v).ibuf = s.ibuf := rfl
@[simp] theorem State.setIlen_obuf (v : Word) (s : State) : (s.setIlen v).obuf = s.obuf := rfl
@[simp] theorem State.setIlen_acc (v : Word) (s : State) : (s.setIlen v).acc = s.acc := rfl
@[simp] theorem State.setIlen_nb (v : Word) (s : State) : (s.setIlen v).nb = s.nb := rfl
@[simp] theorem State.setIlen_ip (v : Word) (s : State) : (s.setIlen v).ip = s.ip := rfl
@[simp] theorem State.setIlen_op (v : Word) (s : State) : (s.setIlen v).op = s.op := rfl
@[simp] theorem State.setIlen_par (v : Word) (s : State) : (s.setIlen v).par = s.par := rfl
@[simp] theorem State.setIlen_inputs (v : Word) (s : State) : (s.setIlen v).inputs = s.inputs := rfl
@[simp] theorem State.setIlen_answers (v : Word) (s : State) : (s.setIlen v).answers = s.answers := rfl
@[simp] theorem State.setIlen_resets (v : Word) (s : State) : (s.setIlen v).resets = s.resets := rfl
@[simp] theorem State.setIlen_busy (v : Word) (s : State) : (s.setIlen v).busy = s.busy := rfl
@[simp] theorem State.setIlen_ibufByte (v : Word) (s : State) (k : Nat) : (s.setIlen v).ibufByte k = s.ibufByte k := rfl
@[simp] theorem State.setIlen_obufByte (v : Word) (s : State) (k : Nat) : (s.setIlen v).obufByte k = s.obufByte k := rfl

/-! ### `State.storeIbuf` -/

@[simp] theorem State.storeIbuf_cmd (i : Nat) (b : Byte) (s : State) : (s.storeIbuf i b).cmd = s.cmd := rfl
@[simp] theorem State.storeIbuf_status (i : Nat) (b : Byte) (s : State) : (s.storeIbuf i b).status = s.status := rfl
@[simp] theorem State.storeIbuf_ilen (i : Nat) (b : Byte) (s : State) : (s.storeIbuf i b).ilen = s.ilen := rfl
@[simp] theorem State.storeIbuf_olen (i : Nat) (b : Byte) (s : State) : (s.storeIbuf i b).olen = s.olen := rfl
@[simp] theorem State.storeIbuf_epos (i : Nat) (b : Byte) (s : State) : (s.storeIbuf i b).epos = s.epos := rfl
@[simp] theorem State.storeIbuf_ibuf (i : Nat) (b : Byte) (s : State) : (s.storeIbuf i b).ibuf = Memory.write s.ibuf i b := rfl
@[simp] theorem State.storeIbuf_obuf (i : Nat) (b : Byte) (s : State) : (s.storeIbuf i b).obuf = s.obuf := rfl
@[simp] theorem State.storeIbuf_acc (i : Nat) (b : Byte) (s : State) : (s.storeIbuf i b).acc = s.acc := rfl
@[simp] theorem State.storeIbuf_nb (i : Nat) (b : Byte) (s : State) : (s.storeIbuf i b).nb = s.nb := rfl
@[simp] theorem State.storeIbuf_ip (i : Nat) (b : Byte) (s : State) : (s.storeIbuf i b).ip = s.ip := rfl
@[simp] theorem State.storeIbuf_op (i : Nat) (b : Byte) (s : State) : (s.storeIbuf i b).op = s.op := rfl
@[simp] theorem State.storeIbuf_par (i : Nat) (b : Byte) (s : State) : (s.storeIbuf i b).par = s.par := rfl
@[simp] theorem State.storeIbuf_inputs (i : Nat) (b : Byte) (s : State) : (s.storeIbuf i b).inputs = s.inputs := rfl
@[simp] theorem State.storeIbuf_answers (i : Nat) (b : Byte) (s : State) : (s.storeIbuf i b).answers = s.answers := rfl
@[simp] theorem State.storeIbuf_resets (i : Nat) (b : Byte) (s : State) : (s.storeIbuf i b).resets = s.resets := rfl
@[simp] theorem State.storeIbuf_busy (i : Nat) (b : Byte) (s : State) : (s.storeIbuf i b).busy = s.busy := rfl
@[simp] theorem State.storeIbuf_obufByte (i : Nat) (b : Byte) (s : State) (k : Nat) : (s.storeIbuf i b).obufByte k = s.obufByte k := rfl

/-! ### `State.setAcc` -/

@[simp] theorem State.setAcc_cmd (x n : Nat) (s : State) : (s.setAcc x n).cmd = s.cmd := rfl
@[simp] theorem State.setAcc_status (x n : Nat) (s : State) : (s.setAcc x n).status = s.status := rfl
@[simp] theorem State.setAcc_ilen (x n : Nat) (s : State) : (s.setAcc x n).ilen = s.ilen := rfl
@[simp] theorem State.setAcc_olen (x n : Nat) (s : State) : (s.setAcc x n).olen = s.olen := rfl
@[simp] theorem State.setAcc_epos (x n : Nat) (s : State) : (s.setAcc x n).epos = s.epos := rfl
@[simp] theorem State.setAcc_ibuf (x n : Nat) (s : State) : (s.setAcc x n).ibuf = s.ibuf := rfl
@[simp] theorem State.setAcc_obuf (x n : Nat) (s : State) : (s.setAcc x n).obuf = s.obuf := rfl
@[simp] theorem State.setAcc_acc (x n : Nat) (s : State) : (s.setAcc x n).acc = BitVec.ofNat 33 x := rfl
@[simp] theorem State.setAcc_nb (x n : Nat) (s : State) : (s.setAcc x n).nb = BitVec.ofNat 4 n := rfl
@[simp] theorem State.setAcc_ip (x n : Nat) (s : State) : (s.setAcc x n).ip = s.ip := rfl
@[simp] theorem State.setAcc_op (x n : Nat) (s : State) : (s.setAcc x n).op = s.op := rfl
@[simp] theorem State.setAcc_par (x n : Nat) (s : State) : (s.setAcc x n).par = s.par := rfl
@[simp] theorem State.setAcc_inputs (x n : Nat) (s : State) : (s.setAcc x n).inputs = s.inputs := rfl
@[simp] theorem State.setAcc_answers (x n : Nat) (s : State) : (s.setAcc x n).answers = s.answers := rfl
@[simp] theorem State.setAcc_resets (x n : Nat) (s : State) : (s.setAcc x n).resets = s.resets := rfl
@[simp] theorem State.setAcc_busy (x n : Nat) (s : State) : (s.setAcc x n).busy = s.busy := rfl
@[simp] theorem State.setAcc_ibufByte (x n : Nat) (s : State) (k : Nat) : (s.setAcc x n).ibufByte k = s.ibufByte k := rfl
@[simp] theorem State.setAcc_obufByte (x n : Nat) (s : State) (k : Nat) : (s.setAcc x n).obufByte k = s.obufByte k := rfl

/-! ### `State.advance` -/

@[simp] theorem State.advance_cmd (n : Nat) (s : State) : (s.advance n).cmd = s.cmd := rfl
@[simp] theorem State.advance_status (n : Nat) (s : State) : (s.advance n).status = s.status := rfl
@[simp] theorem State.advance_ilen (n : Nat) (s : State) : (s.advance n).ilen = s.ilen := rfl
@[simp] theorem State.advance_olen (n : Nat) (s : State) : (s.advance n).olen = s.olen := rfl
@[simp] theorem State.advance_epos (n : Nat) (s : State) : (s.advance n).epos = s.epos := rfl
@[simp] theorem State.advance_ibuf (n : Nat) (s : State) : (s.advance n).ibuf = s.ibuf := rfl
@[simp] theorem State.advance_obuf (n : Nat) (s : State) : (s.advance n).obuf = s.obuf := rfl
@[simp] theorem State.advance_acc (n : Nat) (s : State) : (s.advance n).acc = s.acc := rfl
@[simp] theorem State.advance_nb (n : Nat) (s : State) : (s.advance n).nb = s.nb := rfl
@[simp] theorem State.advance_ip (n : Nat) (s : State) : (s.advance n).ip = s.ip + BitVec.ofNat 32 n := rfl
@[simp] theorem State.advance_op (n : Nat) (s : State) : (s.advance n).op = s.op := rfl
@[simp] theorem State.advance_par (n : Nat) (s : State) : (s.advance n).par = s.par := rfl
@[simp] theorem State.advance_inputs (n : Nat) (s : State) : (s.advance n).inputs = s.inputs := rfl
@[simp] theorem State.advance_answers (n : Nat) (s : State) : (s.advance n).answers = s.answers := rfl
@[simp] theorem State.advance_resets (n : Nat) (s : State) : (s.advance n).resets = s.resets := rfl
@[simp] theorem State.advance_busy (n : Nat) (s : State) : (s.advance n).busy = s.busy := rfl
@[simp] theorem State.advance_ibufByte (n : Nat) (s : State) (k : Nat) : (s.advance n).ibufByte k = s.ibufByte k := rfl
@[simp] theorem State.advance_obufByte (n : Nat) (s : State) (k : Nat) : (s.advance n).obufByte k = s.obufByte k := rfl

/-! ### `State.emit` -/

@[simp] theorem State.emit_cmd (b : Byte) (s : State) : (s.emit b).cmd = s.cmd := rfl
@[simp] theorem State.emit_status (b : Byte) (s : State) : (s.emit b).status = s.status := rfl
@[simp] theorem State.emit_ilen (b : Byte) (s : State) : (s.emit b).ilen = s.ilen := rfl
@[simp] theorem State.emit_olen (b : Byte) (s : State) : (s.emit b).olen = s.olen := rfl
@[simp] theorem State.emit_epos (b : Byte) (s : State) : (s.emit b).epos = s.epos := rfl
@[simp] theorem State.emit_ibuf (b : Byte) (s : State) : (s.emit b).ibuf = s.ibuf := rfl
@[simp] theorem State.emit_obuf (b : Byte) (s : State) : (s.emit b).obuf = Memory.write s.obuf s.op.toNat b := rfl
@[simp] theorem State.emit_acc (b : Byte) (s : State) : (s.emit b).acc = s.acc := rfl
@[simp] theorem State.emit_nb (b : Byte) (s : State) : (s.emit b).nb = s.nb := rfl
@[simp] theorem State.emit_ip (b : Byte) (s : State) : (s.emit b).ip = s.ip := rfl
@[simp] theorem State.emit_op (b : Byte) (s : State) : (s.emit b).op = s.op + 1 := rfl
@[simp] theorem State.emit_par (b : Byte) (s : State) : (s.emit b).par = s.par := rfl
@[simp] theorem State.emit_inputs (b : Byte) (s : State) : (s.emit b).inputs = s.inputs := rfl
@[simp] theorem State.emit_answers (b : Byte) (s : State) : (s.emit b).answers = s.answers := rfl
@[simp] theorem State.emit_resets (b : Byte) (s : State) : (s.emit b).resets = s.resets := rfl
@[simp] theorem State.emit_busy (b : Byte) (s : State) : (s.emit b).busy = s.busy := rfl
@[simp] theorem State.emit_ibufByte (b : Byte) (s : State) (k : Nat) : (s.emit b).ibufByte k = s.ibufByte k := rfl

/-! ### `State.finished` -/

@[simp] theorem State.finished_cmd (s : State) : (s.finished).cmd = s.cmd := rfl
@[simp] theorem State.finished_status (s : State) : (s.finished).status = statusDone := rfl
@[simp] theorem State.finished_ilen (s : State) : (s.finished).ilen = s.ilen := rfl
@[simp] theorem State.finished_olen (s : State) : (s.finished).olen = s.op := rfl
@[simp] theorem State.finished_epos (s : State) : (s.finished).epos = s.epos := rfl
@[simp] theorem State.finished_ibuf (s : State) : (s.finished).ibuf = s.ibuf := rfl
@[simp] theorem State.finished_obuf (s : State) : (s.finished).obuf = s.obuf := rfl
@[simp] theorem State.finished_acc (s : State) : (s.finished).acc = s.acc := rfl
@[simp] theorem State.finished_nb (s : State) : (s.finished).nb = s.nb := rfl
@[simp] theorem State.finished_ip (s : State) : (s.finished).ip = s.ip := rfl
@[simp] theorem State.finished_op (s : State) : (s.finished).op = s.op := rfl
@[simp] theorem State.finished_par (s : State) : (s.finished).par = s.par := rfl
@[simp] theorem State.finished_inputs (s : State) : (s.finished).inputs = s.inputs := rfl
@[simp] theorem State.finished_answers (s : State) : (s.finished).answers = s.answers := rfl
@[simp] theorem State.finished_resets (s : State) : (s.finished).resets = s.resets := rfl
@[simp] theorem State.finished_ibufByte (s : State) (k : Nat) : (s.finished).ibufByte k = s.ibufByte k := rfl
@[simp] theorem State.finished_obufByte (s : State) (k : Nat) : (s.finished).obufByte k = s.obufByte k := rfl

/-! ### `State.raised` -/

@[simp] theorem State.raised_cmd (e : ErrorCode) (pos : Nat) (s : State) : (s.raised e pos).cmd = s.cmd := rfl
@[simp] theorem State.raised_status (e : ErrorCode) (pos : Nat) (s : State) : (s.raised e pos).status = statusError e := rfl
@[simp] theorem State.raised_ilen (e : ErrorCode) (pos : Nat) (s : State) : (s.raised e pos).ilen = s.ilen := rfl
@[simp] theorem State.raised_olen (e : ErrorCode) (pos : Nat) (s : State) : (s.raised e pos).olen = 0 := rfl
@[simp] theorem State.raised_epos (e : ErrorCode) (pos : Nat) (s : State) : (s.raised e pos).epos = BitVec.ofNat 32 pos := rfl
@[simp] theorem State.raised_ibuf (e : ErrorCode) (pos : Nat) (s : State) : (s.raised e pos).ibuf = s.ibuf := rfl
@[simp] theorem State.raised_obuf (e : ErrorCode) (pos : Nat) (s : State) : (s.raised e pos).obuf = s.obuf := rfl
@[simp] theorem State.raised_acc (e : ErrorCode) (pos : Nat) (s : State) : (s.raised e pos).acc = s.acc := rfl
@[simp] theorem State.raised_nb (e : ErrorCode) (pos : Nat) (s : State) : (s.raised e pos).nb = s.nb := rfl
@[simp] theorem State.raised_ip (e : ErrorCode) (pos : Nat) (s : State) : (s.raised e pos).ip = s.ip := rfl
@[simp] theorem State.raised_op (e : ErrorCode) (pos : Nat) (s : State) : (s.raised e pos).op = s.op := rfl
@[simp] theorem State.raised_par (e : ErrorCode) (pos : Nat) (s : State) : (s.raised e pos).par = s.par := rfl
@[simp] theorem State.raised_inputs (e : ErrorCode) (pos : Nat) (s : State) : (s.raised e pos).inputs = s.inputs := rfl
@[simp] theorem State.raised_answers (e : ErrorCode) (pos : Nat) (s : State) : (s.raised e pos).answers = s.answers := rfl
@[simp] theorem State.raised_resets (e : ErrorCode) (pos : Nat) (s : State) : (s.raised e pos).resets = s.resets := rfl
@[simp] theorem State.raised_ibufByte (e : ErrorCode) (pos : Nat) (s : State) (k : Nat) : (s.raised e pos).ibufByte k = s.ibufByte k := rfl
@[simp] theorem State.raised_obufByte (e : ErrorCode) (pos : Nat) (s : State) (k : Nat) : (s.raised e pos).obufByte k = s.obufByte k := rfl

/-! ### `State.latchCommand` -/

@[simp] theorem State.latchCommand_cmd (v st : Word) (s : State) : (s.latchCommand v st).cmd = v := rfl
@[simp] theorem State.latchCommand_status (v st : Word) (s : State) : (s.latchCommand v st).status = st := rfl
@[simp] theorem State.latchCommand_ilen (v st : Word) (s : State) : (s.latchCommand v st).ilen = s.ilen := rfl
@[simp] theorem State.latchCommand_olen (v st : Word) (s : State) : (s.latchCommand v st).olen = 0 := rfl
@[simp] theorem State.latchCommand_epos (v st : Word) (s : State) : (s.latchCommand v st).epos = 0 := rfl
@[simp] theorem State.latchCommand_ibuf (v st : Word) (s : State) : (s.latchCommand v st).ibuf = s.ibuf := rfl
@[simp] theorem State.latchCommand_obuf (v st : Word) (s : State) : (s.latchCommand v st).obuf = s.obuf := rfl
@[simp] theorem State.latchCommand_acc (v st : Word) (s : State) : (s.latchCommand v st).acc = s.acc := rfl
@[simp] theorem State.latchCommand_nb (v st : Word) (s : State) : (s.latchCommand v st).nb = s.nb := rfl
@[simp] theorem State.latchCommand_ip (v st : Word) (s : State) : (s.latchCommand v st).ip = s.ip := rfl
@[simp] theorem State.latchCommand_op (v st : Word) (s : State) : (s.latchCommand v st).op = s.op := rfl
@[simp] theorem State.latchCommand_par (v st : Word) (s : State) : (s.latchCommand v st).par = s.par := rfl
@[simp] theorem State.latchCommand_inputs (v st : Word) (s : State) : (s.latchCommand v st).inputs = s.inputs := rfl
@[simp] theorem State.latchCommand_answers (v st : Word) (s : State) : (s.latchCommand v st).answers = s.answers := rfl
@[simp] theorem State.latchCommand_resets (v st : Word) (s : State) : (s.latchCommand v st).resets = s.resets := rfl
@[simp] theorem State.latchCommand_ibufByte (v st : Word) (s : State) (k : Nat) : (s.latchCommand v st).ibufByte k = s.ibufByte k := rfl
@[simp] theorem State.latchCommand_obufByte (v st : Word) (s : State) (k : Nat) : (s.latchCommand v st).obufByte k = s.obufByte k := rfl

/-! ### `State.clearDatapath` -/

@[simp] theorem State.clearDatapath_cmd (s : State) : (s.clearDatapath).cmd = s.cmd := rfl
@[simp] theorem State.clearDatapath_status (s : State) : (s.clearDatapath).status = s.status := rfl
@[simp] theorem State.clearDatapath_ilen (s : State) : (s.clearDatapath).ilen = s.ilen := rfl
@[simp] theorem State.clearDatapath_olen (s : State) : (s.clearDatapath).olen = s.olen := rfl
@[simp] theorem State.clearDatapath_epos (s : State) : (s.clearDatapath).epos = s.epos := rfl
@[simp] theorem State.clearDatapath_ibuf (s : State) : (s.clearDatapath).ibuf = s.ibuf := rfl
@[simp] theorem State.clearDatapath_obuf (s : State) : (s.clearDatapath).obuf = s.obuf := rfl
@[simp] theorem State.clearDatapath_acc (s : State) : (s.clearDatapath).acc = 0 := rfl
@[simp] theorem State.clearDatapath_nb (s : State) : (s.clearDatapath).nb = 0 := rfl
@[simp] theorem State.clearDatapath_ip (s : State) : (s.clearDatapath).ip = 0 := rfl
@[simp] theorem State.clearDatapath_op (s : State) : (s.clearDatapath).op = 0 := rfl
@[simp] theorem State.clearDatapath_par (s : State) : (s.clearDatapath).par = s.par := rfl
@[simp] theorem State.clearDatapath_inputs (s : State) : (s.clearDatapath).inputs = s.inputs := rfl
@[simp] theorem State.clearDatapath_answers (s : State) : (s.clearDatapath).answers = s.answers := rfl
@[simp] theorem State.clearDatapath_resets (s : State) : (s.clearDatapath).resets = s.resets := rfl
@[simp] theorem State.clearDatapath_busy (s : State) : (s.clearDatapath).busy = s.busy := rfl
@[simp] theorem State.clearDatapath_ibufByte (s : State) (k : Nat) : (s.clearDatapath).ibufByte k = s.ibufByte k := rfl
@[simp] theorem State.clearDatapath_obufByte (s : State) (k : Nat) : (s.clearDatapath).obufByte k = s.obufByte k := rfl

/-! ### `State.afterReset` -/

@[simp] theorem State.afterReset_cmd (s : State) : (s.afterReset).cmd = 0 := rfl
@[simp] theorem State.afterReset_status (s : State) : (s.afterReset).status = 0 := rfl
@[simp] theorem State.afterReset_ilen (s : State) : (s.afterReset).ilen = 0 := rfl
@[simp] theorem State.afterReset_olen (s : State) : (s.afterReset).olen = 0 := rfl
@[simp] theorem State.afterReset_epos (s : State) : (s.afterReset).epos = 0 := rfl
@[simp] theorem State.afterReset_ibuf (s : State) : (s.afterReset).ibuf = [] := rfl
@[simp] theorem State.afterReset_obuf (s : State) : (s.afterReset).obuf = [] := rfl
@[simp] theorem State.afterReset_acc (s : State) : (s.afterReset).acc = 0 := rfl
@[simp] theorem State.afterReset_nb (s : State) : (s.afterReset).nb = 0 := rfl
@[simp] theorem State.afterReset_ip (s : State) : (s.afterReset).ip = 0 := rfl
@[simp] theorem State.afterReset_op (s : State) : (s.afterReset).op = 0 := rfl
@[simp] theorem State.afterReset_par (s : State) : (s.afterReset).par = s.par := rfl
@[simp] theorem State.afterReset_inputs (s : State) : (s.afterReset).inputs = s.inputs := rfl
@[simp] theorem State.afterReset_answers (s : State) : (s.afterReset).answers = s.answers := rfl
@[simp] theorem State.afterReset_resets (s : State) : (s.afterReset).resets = s.resets + 1 := rfl

/-! ### BUSY after the updates that write STATUS -/

/-- `BUSY` is bit 0 of STATUS (rule R26). -/
theorem State.busy_of_status {s : State} {v : Word} (h : s.status = v) : s.busy = v.getLsbD 0 := by
  rw [State.busy, h]

theorem statusDone_bit0 : statusDone.getLsbD 0 = false := by decide
theorem statusBusy_bit0 : statusBusy.getLsbD 0 = true := by decide
theorem statusError_bit0 (e : ErrorCode) : (statusError e).getLsbD 0 = false := by cases e <;> decide

@[simp] theorem State.finished_busy (s : State) : s.finished.busy = false :=
  (State.busy_of_status rfl).trans statusDone_bit0
@[simp] theorem State.raised_busy (e : ErrorCode) (pos : Nat) (s : State) : (s.raised e pos).busy = false :=
  (State.busy_of_status rfl).trans (statusError_bit0 e)
@[simp] theorem State.afterReset_busy (s : State) : s.afterReset.busy = false :=
  (State.busy_of_status (v := 0) rfl).trans (by decide)

/-! ### Cells after a reset -/

@[simp] theorem State.afterReset_ibufByte (s : State) (k : Nat) :
    s.afterReset.ibufByte k = Config.ibufAtReset (s.resets + 1) k := rfl
@[simp] theorem State.afterReset_obufByte (s : State) (k : Nat) :
    s.afterReset.obufByte k = Config.obufAtReset (s.resets + 1) k := rfl

/-! ### Records that change nothing -/

@[simp] theorem State.setInputs_same (s : State) : s.setInputs s.inputs = s := rfl

end Sys2Proof.Machine
end

