-- ==== Sys2Proof/Laws/Ops.lean ====
section
/-! SUPPORT. For each shared operation, once, everything it can do: the engine's reads and writes, the two exits, the
command trigger, the three pieces of an operation, the port, the engine's turn and the next event. -/

namespace Sys2Proof.Machine

/-! ### Parameters -/

/-- What well-formed parameters give (rule R7). -/
theorem Params.wellFormed_iff {p : Params} :
    p.wellFormed = true ↔ Params.sized p ∧ tableWellFormed 32 p.sym5 = true ∧ tableWellFormed 64 p.sym6 = true := by
  simp [Params.wellFormed, Params.sized, and_assoc]

theorem State.Inv.sized {s : State} (h : s.Inv) : Params.sized s.par := (Params.wellFormed_iff.1 h.params).1

theorem tableWellFormed_length {n : Nat} {table : List Byte} (h : tableWellFormed n table = true) : table.length = n := by
  simp only [tableWellFormed, Bool.and_eq_true, beq_iff_eq] at h
  exact h.1.1.1

/-- An inverse is an index of the table (rule R86). -/
theorem Grouped.inverse_lt {g : Grouped} {c : Byte} {v : Nat} (h : g.inverse c = some v) : v < g.table.length := by
  obtain ⟨hv, -⟩ := List.findIdx?_eq_some_iff_findIdx_eq.1 h
  exact hv

/-- The inverses of the 5-bit family have 5 bits (rules R7, R86). -/
theorem inverse5_lt {p : Params} {c : Byte} {v : Nat} (hp : p.wellFormed = true) (h : (grouped5 p).inverse c = some v) :
    v < 2 ^ 5 :=
  (Grouped.inverse_lt h).trans_eq (tableWellFormed_length (Params.wellFormed_iff.1 hp).2.1)

/-- The inverses of the 6-bit family have 6 bits (rules R7, R86). -/
theorem inverse6_lt {p : Params} {c : Byte} {v : Nat} (hp : p.wellFormed = true) (h : (grouped6 p).inverse c = some v) :
    v < 2 ^ 6 :=
  (Grouped.inverse_lt h).trans_eq (tableWellFormed_length (Params.wellFormed_iff.1 hp).2.2)

/-! ### Sequencing -/

@[simp] theorem andThen_next (s : State) (f : State → Result) : andThen (.next s) f = f s := rfl
@[simp] theorem andThen_fault (e : Fault) (f : State → Result) : andThen (.fault e) f = .fault e := rfl
@[simp] theorem andThen_refused (e : Refusal) (f : State → Result) : andThen (.refused e) f = .refused e := rfl

/-- A sequence answers a next state only through a next state of its first part. -/
theorem andThen_eq_next {r : Result} {f : State → Result} {t : State} :
    andThen r f = .next t ↔ ∃ s, r = .next s ∧ f s = .next t := by
  cases r <;> simp

/-! ### The engine's reads -/

theorem fetchInput_eq {s : State} (k : Byte → Result) (h : s.ip.toNat < s.par.inMax) :
    fetchInput s k = k (s.ibufByte s.ip.toNat) := if_pos h

theorem fetchInput_eq_next {s t : State} {k : Byte → Result} :
    fetchInput s k = .next t ↔ s.ip.toNat < s.par.inMax ∧ k (s.ibufByte s.ip.toNat) = .next t := by
  by_cases h : s.ip.toNat < s.par.inMax <;> simp [fetchInput, h]

theorem fetchChunk_eq {m : Nat} {s : State} (k : List Byte → Result) (h : s.ip.toNat + m ≤ s.par.inMax) :
    fetchChunk m s k = k ((List.range m).map fun j => s.ibufByte (s.ip.toNat + j)) := if_pos h

theorem fetchChunk_eq_next {m : Nat} {s t : State} {k : List Byte → Result} :
    fetchChunk m s k = .next t ↔
      s.ip.toNat + m ≤ s.par.inMax ∧ k ((List.range m).map fun j => s.ibufByte (s.ip.toNat + j)) = .next t := by
  by_cases h : s.ip.toNat + m ≤ s.par.inMax <;> simp [fetchChunk, h]

/-- The bytes ENC85 reads are a piece of the message. -/
theorem chunk_of_message (s : State) (m : Nat) (h : s.ip.toNat + m ≤ s.ilen.toNat) :
    (List.range m).map (fun j => s.ibufByte (s.ip.toNat + j)) = (s.message.drop s.ip.toNat).take m := by
  refine List.ext_getElem (by simp [State.message]; omega) fun i h1 h2 => ?_
  simp [State.message]

/-! ### The engine's writes -/

/-- `OUT_MAX` fits the 32-bit cursor (rule R7). -/
theorem Params.sized_outMax {p : Params} (h : Params.sized p) : p.outMax < 2 ^ 32 := by
  have := h.2
  simp only [Params.outMax]
  omega

/-- `emit` of a list touches only OBUF and `OP`. -/
theorem emitAll_frame {bs : List Byte} {s t : State} (h : emitAll bs s = .next t) :
    t = { s with obuf := t.obuf, op := t.op } := by
  induction bs generalizing s with
  | nil => cases h; rfl
  | cons b rest ih =>
    simp only [emitAll] at h
    split at h
    · have := ih h
      rw [this]
      rfl
    · cases h

/-- What `emit` of a list writes, and where. -/
theorem emitAll_emitted {bs : List Byte} {s t : State} (h : emitAll bs s = .next t) (hmax : s.par.outMax < 2 ^ 32) :
    Emitted bs s t := by
  induction bs generalizing s with
  | nil => cases h; exact ⟨rfl, fun j hj => absurd hj (Nat.not_lt_zero j), fun _ _ => rfl⟩
  | cons b rest ih =>
    simp only [emitAll] at h
    split at h
    case isTrue hlt =>
      have hop : (s.emit b).op.toNat = s.op.toNat + 1 := by
        rw [State.emit_op, BitVec.toNat_add]
        exact Nat.mod_eq_of_lt (by simp; omega)
      have r := ih (s := s.emit b) h hmax
      refine ⟨?_, fun j hj => ?_, fun a ha => ?_⟩
      · rw [r.op, hop, List.length_cons]; omega
      · cases j with
        | zero => rw [Nat.add_zero, r.others _ (by omega), State.emit_obufByte_same]; rfl
        | succ j =>
          rw [List.length_cons] at hj
          have := r.written j (by omega)
          rw [hop, Nat.add_assoc, Nat.add_comm 1] at this
          rw [this]; rfl
      · rw [List.length_cons] at ha
        rw [r.others a (by omega), State.emit_obufByte_other _ _ _ (by omega)]
    case isFalse => cases h

/-- `emit` of a list never stops while there is room (rule R53). -/
theorem emitAll_goesOn {bs : List Byte} {s : State} (hmax : s.par.outMax < 2 ^ 32)
    (h : s.op.toNat + bs.length ≤ s.par.outMax) : ∃ t, emitAll bs s = .next t := by
  induction bs generalizing s with
  | nil => exact ⟨s, rfl⟩
  | cons b rest ih =>
    rw [List.length_cons] at h
    have hlt : s.op.toNat < s.par.outMax := by omega
    have hop : (s.emit b).op.toNat = s.op.toNat + 1 := by
      rw [State.emit_op, BitVec.toNat_add]
      exact Nat.mod_eq_of_lt (by simp; omega)
    simp only [emitAll, hlt, if_true]
    exact ih (s := s.emit b) hmax (by rw [hop, State.emit_par]; omega)

/-- `emit` of a list keeps OBUF in canonical form and in range (rules R31, R58). -/
theorem emitAll_keeps_obuf {bs : List Byte} {s t : State} (h : emitAll bs s = .next t)
    (hw : Memory.wf s.obuf ∧ ∀ c ∈ s.obuf, c.1 < s.par.outMax) :
    Memory.wf t.obuf ∧ ∀ c ∈ t.obuf, c.1 < t.par.outMax := by
  induction bs generalizing s with
  | nil => cases h; exact hw
  | cons b rest ih =>
    simp only [emitAll] at h
    split at h
    case isTrue hlt => exact ih h ⟨Memory.wf_write _ _ hw.1, Memory.range_write _ hlt hw.2⟩
    case isFalse => cases h

/-- `emit` of a list never moves `OP` beyond the end of OBUF (rules R21, R58). -/
theorem emitAll_room {bs : List Byte} {s t : State} (h : emitAll bs s = .next t) (hmax : s.par.outMax < 2 ^ 32)
    (hs : s.op.toNat ≤ s.par.outMax) : t.op.toNat ≤ t.par.outMax := by
  induction bs generalizing s with
  | nil => cases h; exact hs
  | cons b rest ih =>
    simp only [emitAll] at h
    split at h
    case isTrue hlt =>
      refine ih h hmax ?_
      rw [State.emit_op, BitVec.toNat_add, State.emit_par]
      exact (Nat.mod_le _ _).trans hlt
    case isFalse => cases h

theorem emitAll_append (a b : List Byte) (s : State) : emitAll (a ++ b) s = andThen (emitAll a s) (emitAll b) := by
  induction a generalizing s with
  | nil => rfl
  | cons x rest ih =>
    simp only [List.cons_append, emitAll]
    split
    · exact ih _
    · rfl

/-- Two runs of writes, one after the other, are one. -/
theorem Emitted.trans {a b : List Byte} {s t u : State} (h1 : Emitted a s t) (h2 : Emitted b t u) :
    Emitted (a ++ b) s u := by
  refine ⟨?_, fun j hj => ?_, fun k hk => ?_⟩
  · rw [h2.op, h1.op, List.length_append]; omega
  · rw [List.length_append] at hj
    by_cases hlt : j < a.length
    · rw [h2.others _ (by rw [h1.op]; omega), h1.written j hlt, List.getD_append _ _ _ _ hlt]
    · have := h2.written (j - a.length) (by omega)
      rw [h1.op, show s.op.toNat + a.length + (j - a.length) = s.op.toNat + j by omega] at this
      rw [this, List.getD_append_right _ _ _ _ (by omega)]
  · rw [List.length_append] at hk
    rw [h2.others k (by rw [h1.op]; omega), h1.others k (by omega)]

/-! ### The exits -/

theorem finish_eq (s : State) : finish s = .next s.finished := rfl
theorem raise_eq (e : ErrorCode) (pos : Nat) (s : State) : raise e pos s = .next (s.raised e pos) := rfl

/-! ### The command trigger and the three pieces of an operation -/

/-- No command word of the opcode map is illegal (rules R78, R79). -/
theorem illegalCommand_encode (i : Instr) : illegalCommand (encode i) = false := by cases i <;> decide

/-- The decoder reads every command word back (rule R78). -/
theorem decode_encode (i : Instr) : decode (encode i) = .ok i := by cases i <;> rfl

theorem commandTrigger_illegal {v : Word} {s : State} (h : illegalCommand v = true) :
    commandTrigger v s = s.latchCommand v (statusError .eIllop) := by simp [commandTrigger, h]

theorem commandTrigger_encode (i : Instr) (s : State) :
    commandTrigger (encode i) s =
      if s.par.inMax < s.ilen.toNat then s.latchCommand (encode i) (statusError .eLen)
      else s.clearDatapath.latchCommand (encode i) statusBusy := by
  simp [commandTrigger, illegalCommand_encode]

theorem operate_start {i : Instr} {f g : State → Result} {s : State} (h : s.busy = false) :
    operate i f g s = .next (commandTrigger (encode i) s) := by simp [operate, h]

theorem operate_step {i : Instr} {f g : State → Result} {s : State} (h : s.busy = true)
    (hi : s.ip.toNat < s.ilen.toNat) : operate i f g s = f s := by simp [operate, h, hi]

theorem operate_end {i : Instr} {f g : State → Result} {s : State} (h : s.busy = true)
    (hi : s.ip.toNat = s.ilen.toNat) : operate i f g s = g s := by simp [operate, h, hi]

/-- An operation answers a next state by `start`, by its `step` or by its `end` (rule R22). -/
theorem operate_cases {i : Instr} {f g : State → Result} {s t : State} (h : operate i f g s = .next t) :
    (s.busy = false ∧ t = commandTrigger (encode i) s) ∨
    (s.busy = true ∧ s.ip.toNat < s.ilen.toNat ∧ f s = .next t) ∨
    (s.busy = true ∧ s.ip.toNat = s.ilen.toNat ∧ g s = .next t) := by
  unfold operate at h
  split at h
  case isTrue hb =>
    split at h
    case isTrue hlt => exact .inr (.inl ⟨hb, hlt, h⟩)
    case isFalse =>
      split at h
      case isTrue heq => exact .inr (.inr ⟨hb, heq, h⟩)
      case isFalse => cases h
  case isFalse hb => exact .inl ⟨by simpa using hb, by cases h; rfl⟩

/-- The `step` and the `end` of each operation (rules R112, R113, R122, R123, R132, R142). -/
def actionsOf : Instr → (State → Result) × (State → Result)
  | .enc5 => (fun s => encodeStep (grouped5 s.par) s, fun s => encodeEnd (grouped5 s.par) s)
  | .dec5 => (fun s => decodeStep (grouped5 s.par) s, finish)
  | .enc6 => (fun s => encodeStep (grouped6 s.par) s, fun s => encodeEnd (grouped6 s.par) s)
  | .dec6 => (fun s => decodeStep (grouped6 s.par) s, finish)
  | .enc85 => (encode85Step, finish)
  | .dec85 => (decode85Step, decode85End)

theorem exec_eq_operate (i : Instr) (s : State) : exec i s = operate i (actionsOf i).1 (actionsOf i).2 s := by
  cases i <;> rfl

/-- In an idle block every operation performs the command trigger (rules R22, R80). -/
theorem exec_start (i : Instr) {s : State} (h : s.busy = false) : exec i s = .next (commandTrigger (encode i) s) := by
  rw [exec_eq_operate, operate_start h]

theorem exec_step (i : Instr) {s : State} (h : s.busy = true) (hi : s.ip.toNat < s.ilen.toNat) :
    exec i s = (actionsOf i).1 s := by
  rw [exec_eq_operate, operate_step h hi]

theorem exec_end (i : Instr) {s : State} (h : s.busy = true) (hi : s.ip.toNat = s.ilen.toNat) :
    exec i s = (actionsOf i).2 s := by
  rw [exec_eq_operate, operate_end h hi]

/-! ### The port, the engine's turn, the next event -/

/-- A command write to an idle block is the command trigger, whatever the word (rule R80). -/
theorem writeCommand_eq {v : Word} {s : State} (h : s.busy = false) (hd : ∀ i, decode v = .ok i → v = encode i) :
    writeCommand v s = .next (commandTrigger v s) := by
  unfold writeCommand
  split
  case h_1 i hi => rw [exec_start i h, ← hd i hi]
  case h_2 => rfl

theorem transact_refused {q : Transaction} {s : State} (h : portRefuses q s = true) :
    transact q s = .next (s.pushAnswer .nak) := by simp [transact, h]

/-- While BUSY the engine performs the action of the operation in CMD (rule R22). -/
theorem engineTurn_busy {s : State} {i : Instr} (h : s.busy = true) (hd : decode s.cmd = .ok i) :
    engineTurn s = exec i s := by simp [engineTurn, h, hd]

theorem engineTurn_idle {s : State} (h : s.busy = false) : engineTurn s = .next s := by simp [engineTurn, h]

/-- The engine's turn answers a next state when it idles or when the operation in CMD does. -/
theorem engineTurn_cases {s t : State} (h : engineTurn s = .next t) :
    (s.busy = false ∧ t = s) ∨ ∃ i, s.busy = true ∧ decode s.cmd = .ok i ∧ exec i s = .next t := by
  unfold engineTurn at h
  split at h
  case isTrue hb =>
    split at h
    case h_1 i hi => exact .inr ⟨i, hb, hi, h⟩
    case h_2 => cases h
  case isFalse hb => exact .inl ⟨by simpa using hb, by cases h; rfl⟩

theorem step_idle_queue {s : State} (h : s.inputs = []) : step s = engineTurn s := by
  simp [step, nextEvent, h]

theorem step_txn {s : State} {q : Transaction} {rest : List Input} (h : s.inputs = .txn q :: rest) :
    step s = transact q (s.setInputs rest) := by simp [step, nextEvent, h]

theorem step_engine {s : State} {rest : List Input} (h : s.inputs = .engine :: rest) :
    step s = engineTurn (s.setInputs rest) := by simp [step, nextEvent, h]

theorem step_reset {s : State} {rest : List Input} (h : s.inputs = .reset :: rest) :
    step s = .next (s.setInputs rest).afterReset := by simp [step, nextEvent, h]

/-- Everything a step can do: the engine's turn, a transaction, or reset. -/
theorem step_cases {s t : State} (h : step s = .next t) :
    (s.inputs = [] ∧ engineTurn s = .next t) ∨
    (∃ rest, s.inputs = .engine :: rest ∧ engineTurn (s.setInputs rest) = .next t) ∨
    (∃ q rest, s.inputs = .txn q :: rest ∧ transact q (s.setInputs rest) = .next t) ∨
    (∃ rest, s.inputs = .reset :: rest ∧ t = (s.setInputs rest).afterReset) := by
  match hi : s.inputs with
  | [] => exact .inl ⟨rfl, step_idle_queue hi ▸ h⟩
  | .engine :: rest => exact .inr (.inl ⟨rest, rfl, step_engine hi ▸ h⟩)
  | .txn q :: rest => exact .inr (.inr (.inl ⟨q, rest, rfl, step_txn hi ▸ h⟩))
  | .reset :: rest =>
    rw [step_reset hi] at h
    cases h
    exact .inr (.inr (.inr ⟨rest, rfl, rfl⟩))

/-- Everything a transaction can do: a refusal, a read (nothing but an answer), a write of ILEN, a write of a byte of
IBUF, or a command write (rules R54, R55). -/
theorem transact_cases {q : Transaction} {s t : State} (h : transact q s = .next t) :
    (portRefuses q s = true ∧ t = s.pushAnswer .nak) ∨
    (portRefuses q s = false ∧
      ((∃ k, q = .rdReg k ∧ t = s.pushAnswer (.okWord (regValue k s))) ∨
       (∃ i, q = .rdIbuf i ∧ t = s.pushAnswer (.okByte (s.ibufByte i))) ∨
       (∃ j, q = .rdObuf j ∧ t = s.pushAnswer (.okByte (s.obufByte j))) ∨
       (∃ v, q = .wrReg 2 v ∧ t = (s.setIlen v).pushAnswer .ok) ∨
       (∃ i b, q = .wrIbuf i b ∧ i < s.par.inMax ∧ t = (s.storeIbuf i b).pushAnswer .ok) ∨
       (∃ v u, q = .wrReg 0 v ∧ s.busy = false ∧ writeCommand v s = .next u ∧ t = u.pushAnswer .ok))) := by
  unfold transact at h
  split at h
  case isTrue hr => cases h; exact .inl ⟨hr, rfl⟩
  case isFalse hr =>
    have hr' : portRefuses q s = false := by simpa using hr
    refine .inr ⟨hr', ?_⟩
    match q with
    | .rdReg k => cases h; exact .inl ⟨k, rfl, rfl⟩
    | .rdIbuf i => cases h; exact .inr (.inl ⟨i, rfl, rfl⟩)
    | .rdObuf j => cases h; exact .inr (.inr (.inl ⟨j, rfl, rfl⟩))
    | .wrIbuf i b =>
      cases h
      simp only [portRefuses, Bool.or_eq_false_iff, decide_eq_false_iff_not, Nat.not_le] at hr'
      exact .inr (.inr (.inr (.inr (.inl ⟨i, b, rfl, hr'.1, rfl⟩))))
    | .wrObuf j b => simp [portRefuses] at hr'
    | .wrReg k v =>
      simp only [portRefuses, Bool.or_eq_false_iff, decide_eq_false_iff_not, Nat.not_le, beq_eq_false_iff_ne,
        Bool.and_eq_false_imp] at hr'
      obtain ⟨⟨⟨⟨h5, h1⟩, h3⟩, h4⟩, hb⟩ := hr'
      obtain ⟨u, hu, ht⟩ := andThen_eq_next.1 h
      cases ht
      by_cases h0 : k = 0
      · subst h0
        refine .inr (.inr (.inr (.inr (.inr ⟨v, u, rfl, ?_, hu, rfl⟩))))
        by_contra hc
        simpa using hb (by simpa using hc)
      · have h2 : k = 2 := by omega
        subst h2
        cases hu
        exact .inr (.inr (.inr (.inl ⟨v, rfl, rfl⟩)))

end Sys2Proof.Machine
end

