-- ==== Sys2Proof/Laws/Engine.lean ====
section
/-! SUPPORT. Everything an engine action can do, once, for all six operations: it works on the hidden registers and writes
OBUF from `OP` on, and then goes on, finishes, or raises one of the three errors of a scan (rules R22, R58, R155, R156). -/

namespace Sys2Proof.Machine

/-- From `s` to `t` the engine worked: it changed hidden registers and wrote OBUF from `OP` on, nothing else. -/
structure Worked (s t : State) : Prop where
  host : HostSideSame s t
  report : ReportSame s t
  emitted : s.par.outMax < 2 ^ 32 → ∃ bs, Emitted bs s t
  obuf : (Memory.wf s.obuf ∧ ∀ c ∈ s.obuf, c.1 < s.par.outMax) → Memory.wf t.obuf ∧ ∀ c ∈ t.obuf, c.1 < t.par.outMax
  room : s.par.outMax < 2 ^ 32 → s.op.toNat ≤ s.par.outMax → t.op.toNat ≤ t.par.outMax

theorem HostSideSame.trans {s t u : State} (h : HostSideSame s t) (k : HostSideSame t u) : HostSideSame s u :=
  ⟨k.cmd.trans h.cmd, k.ilen.trans h.ilen, k.ibuf.trans h.ibuf, k.par.trans h.par, k.inputs.trans h.inputs,
    k.answers.trans h.answers, k.resets.trans h.resets⟩

theorem ReportSame.trans {s t u : State} (h : ReportSame s t) (k : ReportSame t u) : ReportSame s u :=
  ⟨k.status.trans h.status, k.olen.trans h.olen, k.epos.trans h.epos⟩

theorem Emitted.nil {s t : State} (ho : t.op = s.op) (hb : ∀ a, t.obufByte a = s.obufByte a) : Emitted [] s t :=
  ⟨by simp [ho], fun j hj => absurd hj (Nat.not_lt_zero j), fun a _ => hb a⟩

theorem Worked.refl (s : State) : Worked s s :=
  ⟨⟨rfl, rfl, rfl, rfl, rfl, rfl, rfl⟩, ⟨rfl, rfl, rfl⟩, fun _ => ⟨[], .nil rfl fun _ => rfl⟩, id, fun _ => id⟩

theorem Worked.trans {s t u : State} (h : Worked s t) (k : Worked t u) : Worked s u where
  host := h.host.trans k.host
  report := h.report.trans k.report
  emitted hmax := by
    obtain ⟨a, ha⟩ := h.emitted hmax
    obtain ⟨b, hb⟩ := k.emitted (by rw [h.host.par]; exact hmax)
    exact ⟨a ++ b, ha.trans hb⟩
  obuf hs := k.obuf (h.obuf hs)
  room hmax hs := k.room (by rw [h.host.par]; exact hmax) (h.room hmax hs)

theorem Worked.setAcc (x n : Nat) (s : State) : Worked s (s.setAcc x n) :=
  ⟨⟨rfl, rfl, rfl, rfl, rfl, rfl, rfl⟩, ⟨rfl, rfl, rfl⟩, fun _ => ⟨[], .nil rfl fun _ => rfl⟩, id, fun _ => id⟩

theorem Worked.advance (n : Nat) (s : State) : Worked s (s.advance n) :=
  ⟨⟨rfl, rfl, rfl, rfl, rfl, rfl, rfl⟩, ⟨rfl, rfl, rfl⟩, fun _ => ⟨[], .nil rfl fun _ => rfl⟩, id, fun _ => id⟩

theorem Worked.ofEmitAll {bs : List Byte} {s t : State} (h : emitAll bs s = .next t) : Worked s t where
  host := by rw [emitAll_frame h]; exact ⟨rfl, rfl, rfl, rfl, rfl, rfl, rfl⟩
  report := by rw [emitAll_frame h]; exact ⟨rfl, rfl, rfl⟩
  emitted hmax := ⟨bs, emitAll_emitted h hmax⟩
  obuf := emitAll_keeps_obuf h
  room := emitAll_room h

/-- The work of a `step` before it writes: new accumulator and count, the cursor moved. -/
theorem Worked.taken {x n k : Nat} {bs : List Byte} {s t : State} (h : emitAll bs ((s.setAcc x n).advance k) = .next t) :
    Worked s t :=
  ((Worked.setAcc x n s).trans (Worked.advance k _)).trans (.ofEmitAll h)

/-- How an engine action can leave the report: as it was, finished, or with an error of a scan at a position inside the
message (rules R151, R155, R156). -/
inductive ActionEnd (s t : State) : Prop where
  | goes (h : Worked s t)
  | finishes (u : State) (h : Worked s u) (ht : t = u.finished)
  | raises (e : ErrorCode) (pos : Nat) (u : State) (h : Worked s u) (ho : u.obuf = s.obuf ∧ u.op = s.op)
      (he : e = .eSym ∨ e = .eZpos ∨ e = .eRange)
      (hp : (pos = s.ip.toNat ∧ s.ip.toNat < s.ilen.toNat) ∨
        (pos = s.ilen.toNat - 1 ∧ s.ip.toNat = s.ilen.toNat ∧ 0 < s.nb.toNat))
      (ht : t = u.raised e pos)

theorem encodeStep_end {g : Grouped} {s t : State} (h : encodeStep g s = .next t) : ActionEnd s t :=
  .goes (.taken (fetchInput_eq_next.1 h).2)

theorem encodeTail_worked {g : Grouped} {s t : State} (h : encodeTail g s = .next t) : Worked s t := by
  unfold encodeTail at h
  split at h
  · exact (Worked.setAcc 0 0 s).trans (.ofEmitAll h)
  · cases h; exact .refl s

theorem encodeEnd_end {g : Grouped} {s t : State} (h : encodeEnd g s = .next t) : ActionEnd s t := by
  obtain ⟨s1, h1, h⟩ := andThen_eq_next.1 h
  obtain ⟨s2, h2, h⟩ := andThen_eq_next.1 h
  cases h
  exact .finishes s2 ((encodeTail_worked h1).trans (.ofEmitAll h2)) rfl

theorem finish_end {s t : State} (h : finish s = .next t) : ActionEnd s t := by
  cases h; exact .finishes s (.refl s) rfl

theorem decodeSymbol_end {g : Grouped} {v : Nat} {s t : State} (h : decodeSymbol g v s = .next t) : ActionEnd s t := by
  unfold decodeSymbol at h
  simp only at h
  split at h
  · exact .goes (.taken h)
  · cases h; exact .goes ((Worked.setAcc _ _ s).trans (Worked.advance _ _))

theorem decodeStep_end {g : Grouped} {s t : State} (hi : s.ip.toNat < s.ilen.toNat) (h : decodeStep g s = .next t) :
    ActionEnd s t := by
  replace h := (fetchInput_eq_next.1 h).2
  split at h
  · exact finish_end h
  · split at h
    · cases h; exact .raises .eSym _ s (.refl s) ⟨rfl, rfl⟩ (.inl rfl) (.inl ⟨rfl, hi⟩) rfl
    · exact decodeSymbol_end h

theorem encode85Step_end {s t : State} (h : encode85Step s = .next t) : ActionEnd s t := by
  unfold encode85Step at h
  exact .goes (.taken (fetchChunk_eq_next.1 h).2)

theorem decode85Digit_end {d : Nat} {s t : State} (hi : s.ip.toNat < s.ilen.toNat)
    (h : decode85Digit d s = .next t) : ActionEnd s t := by
  unfold decode85Digit at h
  simp only at h
  split at h
  · split at h
    · cases h
      exact .raises .eRange _ _ (Worked.setAcc _ _ s) ⟨rfl, rfl⟩ (.inr (.inr rfl)) (.inl ⟨rfl, hi⟩) rfl
    · exact .goes (.taken h)
  · cases h; exact .goes ((Worked.setAcc _ _ s).trans (Worked.advance _ _))

theorem decode85Step_end {s t : State} (hi : s.ip.toNat < s.ilen.toNat) (h : decode85Step s = .next t) :
    ActionEnd s t := by
  replace h := (fetchInput_eq_next.1 h).2
  split at h
  · split at h
    · cases h; exact .raises .eZpos _ s (.refl s) ⟨rfl, rfl⟩ (.inr (.inl rfl)) (.inl ⟨rfl, hi⟩) rfl
    · exact .goes ((Worked.advance 1 s).trans (.ofEmitAll h))
  · split at h
    · cases h; exact .raises .eSym _ s (.refl s) ⟨rfl, rfl⟩ (.inl rfl) (.inl ⟨rfl, hi⟩) rfl
    · exact decode85Digit_end hi h

theorem decode85End_end {s t : State} (hi : s.ip.toNat = s.ilen.toNat) (h : decode85End s = .next t) :
    ActionEnd s t := by
  unfold decode85End at h
  simp only at h
  split at h
  case isTrue hg =>
    split at h
    · cases h
      exact .raises .eRange _ _ (Worked.setAcc _ _ s) ⟨rfl, rfl⟩ (.inr (.inr rfl)) (.inr ⟨rfl, hi, hg⟩) rfl
    · obtain ⟨u, hu, h⟩ := andThen_eq_next.1 h
      cases h
      exact .finishes u ((Worked.setAcc 0 0 s).trans (.ofEmitAll hu)) rfl
  case isFalse => exact finish_end h

/-- Everything an engine action of any operation can do. -/
theorem exec_end_cases {i : Instr} {s t : State} (hb : s.busy = true) (h : exec i s = .next t) : ActionEnd s t := by
  rw [exec_eq_operate] at h
  rcases operate_cases h with ⟨hn, _⟩ | ⟨_, hi, h⟩ | ⟨_, hi, h⟩
  · rw [hb] at hn; cases hn
  · cases i with
    | enc5 => exact encodeStep_end h
    | enc6 => exact encodeStep_end h
    | dec5 => exact decodeStep_end hi h
    | dec6 => exact decodeStep_end hi h
    | enc85 => exact encode85Step_end h
    | dec85 => exact decode85Step_end hi h
  · cases i with
    | enc5 => exact encodeEnd_end h
    | enc6 => exact encodeEnd_end h
    | dec5 => exact finish_end h
    | dec6 => exact finish_end h
    | enc85 => exact finish_end h
    | dec85 => exact decode85End_end hi h

/-- No engine action touches the host's side (rules R30, R58). -/
theorem ActionEnd.host {s t : State} (h : ActionEnd s t) : HostSideSame s t := by
  cases h with
  | goes h => exact h.host
  | finishes u h ht => subst ht; exact ⟨h.host.cmd, h.host.ilen, h.host.ibuf, h.host.par, h.host.inputs, h.host.answers, h.host.resets⟩
  | raises e pos u h _ _ _ ht =>
    subst ht; exact ⟨h.host.cmd, h.host.ilen, h.host.ibuf, h.host.par, h.host.inputs, h.host.answers, h.host.resets⟩

end Sys2Proof.Machine
end

