-- ==== Sys2Proof/Laws/Host.lean ====
section
/-! SUPPORT. What each operation of a host dialogue can do (rules R22, R54, R98): the events a host offers, one
transaction, and in an idle block, where the engine's turns change nothing, whole pieces. -/

namespace Sys2Proof.Machine

@[simp] theorem Dialogue.andThen_done {α β : Type} (s : State) (a : α) (k : State → α → Dialogue β) :
    (Dialogue.done s a).andThen k = k s a := rfl
@[simp] theorem Dialogue.andThen_polling {α β : Type} (s : State) (k : State → α → Dialogue β) :
    (Dialogue.polling s).andThen k = .polling s := rfl
@[simp] theorem Dialogue.andThen_offScript {α β : Type} (s : State) (a : Answer) (k : State → α → Dialogue β) :
    (Dialogue.offScript s a).andThen k = .offScript s a := rfl
@[simp] theorem Dialogue.andThen_fault {α β : Type} (f : Fault) (k : State → α → Dialogue β) :
    (Dialogue.fault f).andThen k = .fault f := rfl
@[simp] theorem Dialogue.andThen_refused {α β : Type} (r : Refusal) (k : State → α → Dialogue β) :
    (Dialogue.refused r).andThen k = .refused r := rfl

/-- A finished dialogue finished both its pieces. -/
theorem Dialogue.andThen_eq_done {α β : Type} {d : Dialogue α} {k : State → α → Dialogue β} {t : State} {b : β} :
    d.andThen k = .done t b ↔ ∃ s a, d = .done s a ∧ k s a = .done t b := by
  cases d <;> simp [Dialogue.andThen]

/-- An event offered is the agent's own action on the block, whatever was to come. -/
theorem offer_engine (s : State) : offer .engine s = engineTurn s := step_engine rfl
theorem offer_txn (t : Transaction) (s : State) : offer (.txn t) s = transact t s := step_txn rfl

/-- A transaction without a pause. -/
theorem send_zero {t : Transaction} {s u : State} (h : transact t s = .next u) :
    send 0 t s = .done u (u.answers.getLastD .nak) := by simp [send, offer_txn, h]

/-- One turn of the engine, then the rest. -/
theorem send_succ {p : Nat} {t : Transaction} {s u : State} (h : engineTurn s = .next u) :
    send (p + 1) t s = send p t u := by simp [send, offer_engine, h]

/-- In an idle block pauses change nothing (rule R168). -/
theorem send_idle (p : Nat) {t : Transaction} {s u : State} (hb : s.busy = false) (h : transact t s = .next u) :
    send p t s = .done u (u.answers.getLastD .nak) := by
  induction p with
  | zero => exact send_zero h
  | succ p ih => rw [send_succ (engineTurn_idle hb), ih]

/-- The last answer is the one just given. -/
@[simp] theorem State.pushAnswer_last (a d : Answer) (s : State) : (s.pushAnswer a).answers.getLastD d = a := by
  simp [State.pushAnswer]

/-- STATUS is always readable (rules R55, R56). -/
theorem transact_status (s : State) : transact (.rdReg 1) s = .next (s.pushAnswer (.okWord s.status)) := by
  simp [transact, portRefuses, regValue]

/-- The first poll of an idle block ends the polling. -/
theorem hostPoll_idle (p : Nat) (rest : List Nat) {s : State} (hb : s.busy = false) :
    hostPoll (p :: rest) s = .done (s.pushAnswer (.okWord s.status)) s.status := by
  rw [hostPoll, send_idle p hb (transact_status s)]
  have hs : s.status.getLsbD 0 = false := hb
  simp only [Dialogue.andThen_done, State.pushAnswer_last, hs, Bool.false_eq_true, if_false]

/-- A poll of a BUSY block before the engine moves: the polling goes on. -/
theorem hostPoll_busy (rest : List Nat) {s : State} (hb : s.busy = true) :
    hostPoll (0 :: rest) s = hostPoll rest (s.pushAnswer (.okWord s.status)) := by
  rw [hostPoll, send_zero (transact_status s)]
  have hs : s.status.getLsbD 0 = true := hb
  simp only [Dialogue.andThen_done, State.pushAnswer_last, hs, if_true]

/-- A turn of the engine before a poll. -/
theorem hostPoll_turn {p : Nat} (rest : List Nat) {s u : State} (h : engineTurn s = .next u) :
    hostPoll ((p + 1) :: rest) s = hostPoll (p :: rest) u := by
  rw [hostPoll, send_succ h, hostPoll]

/-- `RUN` in an idle block: the command trigger, answered `OK`, and then the polls. -/
theorem hostRun_idle (i : Instr) (pauses : List Nat) {s : State} (hb : s.busy = false) :
    hostRun i pauses s = hostPoll pauses.tail ((commandTrigger (encode i) s).pushAnswer .ok) := by
  have h : transact (.wrReg 0 (encode i)) s = .next ((commandTrigger (encode i) s).pushAnswer .ok) := by
    simp [transact, portRefuses, hb, writeRegister, writeCommand, decode_encode, exec_start i hb]
  rw [hostRun, send_idle _ hb h]
  rfl

end Sys2Proof.Machine
end

