-- ==== Sys2Proof/Laws/PerInstr.lean ====
section
/-! SUPPORT. A statement for every instruction, proved per constructor (LAWS.json names the families). -/

namespace Sys2Proof.Laws

/-- An operation is well formed, and its command word is legal, has no reserved bit and decodes back to it (rules R75 to
R79). -/
def Encoding.Statement (i : Instr) : Prop :=
  i.wellFormed = true ∧ illegalCommand (encode i) = false ∧ fieldRsv (encode i) = 0 ∧ decode (encode i) = .ok i

theorem Encoding.enc5 : Encoding.Statement .enc5 := ⟨rfl, by decide, by decide, rfl⟩
theorem Encoding.dec5 : Encoding.Statement .dec5 := ⟨rfl, by decide, by decide, rfl⟩
theorem Encoding.enc6 : Encoding.Statement .enc6 := ⟨rfl, by decide, by decide, rfl⟩
theorem Encoding.dec6 : Encoding.Statement .dec6 := ⟨rfl, by decide, by decide, rfl⟩
theorem Encoding.enc85 : Encoding.Statement .enc85 := ⟨rfl, by decide, by decide, rfl⟩
theorem Encoding.dec85 : Encoding.Statement .dec85 := ⟨rfl, by decide, by decide, rfl⟩

end Sys2Proof.Laws
end

