-- ==== Sys2Proof/Tests/Slice0.lean ====
section
/-! SUPPORT. The model's own tests. Expected values come from the spec: the encodings of rules R75 to R78, the vectors and
traces of 95_test_vectors.md (T1 to T7, sections 2.6 to 2.8), rules R7, R84 and R85. Then, for every statement with
hypotheses, named witnesses that meet them, at the boundaries where its clauses meet. -/

namespace Sys2Proof.Tests

open Sys2Proof.Machine Sys2Proof.Certificates

/-! ### Helpers -/

/-- The cells of a byte list from an index on. -/
def cells : Nat → List Byte → Memory
  | _, [] => []
  | i, b :: rest => (i, b) :: cells (i + 1) rest

/-- An idle block with a message in IBUF. -/
def idle (message : List Byte) (inputs : List Input) : State :=
  { State.reset with ilen := BitVec.ofNat 32 message.length, ibuf := cells 0 message, inputs := inputs }

/-- A block running operation `i` on a message, with the output so far and the hidden registers as given. -/
def running (i : Instr) (message out : List Byte) (ip nb acc : Nat) : State :=
  { idle message [] with
    cmd := encode i, status := 0x01, obuf := cells 0 out, op := BitVec.ofNat 32 out.length,
    ip := BitVec.ofNat 32 ip, nb := BitVec.ofNat 4 nb, acc := BitVec.ofNat 33 acc }

/-- What `f` sees of a next state. -/
def seen {α : Type} (r : Result) (f : State → α) : Option α :=
  match r with
  | .next t => some (f t)
  | .fault _ => none
  | .refused _ => none

/-- The hidden registers. -/
def hidden (t : State) : Nat × Nat × Nat × Nat := (t.ip.toNat, t.nb.toNat, t.acc.toNat, t.op.toNat)

/-- The report registers. -/
def report (t : State) : Nat × Nat × Nat := (t.status.toNat, t.olen.toNat, t.epos.toNat)

/-- The message of trace T1, `rust`. -/
def rust : List Byte := [0x72, 0x75, 0x73, 0x74]

/-- The text of trace T3, `OJ2XG5A=`. -/
def rust5 : List Byte := [0x4F, 0x4A, 0x32, 0x58, 0x47, 0x35, 0x41, 0x3D]

/-- The text of trace T4, `cnVz*A==`. -/
def bad6 : List Byte := [0x63, 0x6E, 0x56, 0x7A, 0x2A, 0x41, 0x3D, 0x3D]

/-- The text of trace T7, `s8W-"~`. -/
def over85 : List Byte := [0x73, 0x38, 0x57, 0x2D, 0x22, 0x7E]

/-! ### WellFormed: the checks accept the default parameters and refuse an ill-formed term each (rule R7) -/

theorem test_default_params : Params.wellFormed defaultParams = true := by decide
theorem test_instructions_are_well_formed :
    [Instr.enc5, .dec5, .enc6, .dec6, .enc85, .dec85].all Instr.wellFormed = true := by decide
theorem test_in_max_zero_refused : Params.wellFormed { defaultParams with inMax := 0 } = false := by decide
theorem test_in_max_too_large_refused : Params.wellFormed { defaultParams with inMax := 2 ^ 28 + 1 } = false := by decide
theorem test_short_table_refused : tableWellFormed 32 (defaultSym5.drop 1) = false := by decide
theorem test_repeated_symbol_refused : tableWellFormed 32 (0x42 :: defaultSym5.drop 1) = false := by decide
theorem test_unprintable_symbol_refused : tableWellFormed 32 (0x20 :: defaultSym5.drop 1) = false := by decide
/-- A table longer than `2^w`, whose inverse would give values of more than `w` bits. -/
theorem test_long_table_refused : tableWellFormed 32 (defaultSym5 ++ [0x38]) = false := by decide
theorem test_padding_symbol_refused : tableWellFormed 64 (0x3D :: defaultSym6.drop 1) = false := by decide
theorem test_bad_sym5_refused : Params.wellFormed { defaultParams with sym5 := [] } = false := by decide
theorem test_bad_sym6_refused : Params.wellFormed { defaultParams with sym6 := [] } = false := by decide

/-! ### Decoding: words written out bit by bit, RSV 31:3, CODEC 2:1, DIR 0 (rules R75, R76) -/

theorem test_decode_enc5 : decode 0b00000000000000000000000000000_00_0#32 = .ok .enc5 := by rfl
theorem test_decode_dec5 : decode 0b00000000000000000000000000000_00_1#32 = .ok .dec5 := by rfl
theorem test_decode_enc6 : decode 0b00000000000000000000000000000_01_0#32 = .ok .enc6 := by rfl
theorem test_decode_dec6 : decode 0b00000000000000000000000000000_01_1#32 = .ok .dec6 := by rfl
theorem test_decode_enc85 : decode 0b00000000000000000000000000000_10_0#32 = .ok .enc85 := by rfl
theorem test_decode_dec85 : decode 0b00000000000000000000000000000_10_1#32 = .ok .dec85 := by rfl
theorem test_decode_reserved_codec : decode 0b00000000000000000000000000000_11_1#32 = .error .reservedCodec := by rfl
theorem test_decode_reserved_bit : decode 0b10000000000000000000000000000_00_0#32 = .error .reservedBits := by rfl
theorem test_decode_table_word : decodeTableWord 32 3 = some .dec6 := by decide
theorem test_decode_table_word_illegal : decodeTableWord 32 6 = none := by decide

/-! ### One action of each operation, from the traces T1 to T7 -/

/-- T1, second `step`. -/
theorem test_enc5_step :
    seen (exec .enc5 (running .enc5 rust [0x4F] 1 3 2)) (fun t => (hidden t, t.obuf)) =
      some ((2, 1, 1, 3), cells 0 [0x4F, 0x4A, 0x32]) := by decide

/-- T1, `end`. -/
theorem test_enc5_end :
    seen (exec .enc5 (running .enc5 rust [0x4F, 0x4A, 0x32, 0x58, 0x47, 0x35] 4 2 0)) (fun t => (report t, t.obuf)) =
      some ((2, 8, 0), cells 0 [0x4F, 0x4A, 0x32, 0x58, 0x47, 0x35, 0x41, 0x3D]) := by decide

/-- T2, third `step`. -/
theorem test_enc6_step :
    seen (exec .enc6 (running .enc6 rust [0x63, 0x6E] 2 4 5)) (fun t => (hidden t, t.obuf)) =
      some ((3, 0, 0, 4), cells 0 [0x63, 0x6E, 0x56, 0x7A]) := by decide

/-- T2, `end`. -/
theorem test_enc6_end :
    seen (exec .enc6 (running .enc6 rust [0x63, 0x6E, 0x56, 0x7A, 0x64] 4 2 0)) (fun t => (report t, t.obuf)) =
      some ((2, 8, 0), cells 0 [0x63, 0x6E, 0x56, 0x7A, 0x64, 0x41, 0x3D, 0x3D]) := by decide

/-- T3, second `step`. -/
theorem test_dec5_step :
    seen (exec .dec5 (running .dec5 rust5 [] 1 5 0xE)) (fun t => (hidden t, t.obuf)) =
      some ((2, 2, 1, 1), cells 0 [0x72]) := by decide

/-- T3, the `step` at `=`. -/
theorem test_dec5_padding :
    seen (exec .dec5 (running .dec5 rust5 rust 7 3 0)) (fun t => (report t, hidden t)) =
      some ((2, 4, 0), (7, 3, 0, 4)) := by decide

/-- `DEC6` of `cnVz`, fourth `step`: the third byte of T4. -/
theorem test_dec6_step :
    seen (exec .dec6 (running .dec6 bad6 [0x72, 0x75] 3 2 1)) (fun t => (hidden t, t.obuf)) =
      some ((4, 0, 0, 3), cells 0 [0x72, 0x75, 0x73]) := by decide

/-- T4, the `step` at `*`. -/
theorem test_dec6_foreign :
    seen (exec .dec6 (running .dec6 bad6 [0x72, 0x75, 0x73] 4 0 0)) report = some (0x14, 0, 4) := by decide

/-- T5, first `step`. -/
theorem test_enc85_step :
    seen (exec .enc85 (running .enc85 [0x00, 0x01, 0x41, 0xFF, 0xFF] [] 0 0 0)) (fun t => (hidden t, t.obuf)) =
      some ((4, 0, 0x000141FF, 5), cells 0 [0x21, 0x21, 0x2C, 0x43, 0x63]) := by decide

/-- T5, third `step`, on its own: the short chunk `FF`. -/
theorem test_enc85_short_chunk :
    seen (exec .enc85 (running .enc85 [0, 0, 0, 0, 0xFF] [0x7A] 4 0 0)) (fun t => (hidden t, t.obuf)) =
      some ((5, 0, 0xFF000000, 3), cells 0 [0x7A, 0x72, 0x72]) := by decide

/-- T7, the fifth `step`. -/
theorem test_dec85_range :
    seen (exec .dec85 (running .dec85 over85 [] 4 4 50529027)) report = some (0x34, 0, 4) := by decide

/-- T6, `end`. -/
theorem test_dec85_end :
    seen (exec .dec85 (running .dec85 [0x72, 0x72] [] 2 2 6966)) (fun t => (report t, t.obuf)) =
      some ((2, 1, 0), cells 0 [0xFF]) := by decide

/-! ### The port, the command trigger, reset (sections 2.7, 2.8; program P5) -/

theorem test_first_word_runs :
    seen (step (State.reset.withFetchWord 32 5)) (fun t => (t.cmd.toNat, t.status.toNat)) = some (5, 1) := by decide
theorem test_running_word_runs :
    seen (step ((running .enc5 [] [] 0 0 0).withFetchWord 32 4)) (fun t => (t.cmd.toNat, t.status.toNat)) =
      some (4, 2) := by decide
theorem test_illegal_before_length :
    seen (step { idle [] [.txn (.wrReg 0 7)] with ilen := 17 }) report = some (0x44, 0, 0) := by decide
theorem test_too_long :
    seen (step { idle [] [.txn (.wrReg 0 0)] with ilen := 17 }) report = some (0x54, 0, 0) := by decide
theorem test_busy_lock :
    seen (step { running .dec85 [0x7A] [] 0 0 0 with inputs := [.txn (.wrIbuf 0 0x21)] })
      (fun t => (t.answers, t.ibuf)) = some ([.nak], cells 0 [0x7A]) := by decide
theorem test_fresh_register_reads :
    seen (step { State.reset with inputs := [.txn (.rdReg 4)] }) (fun t => t.answers) = some [.okWord 0] := by decide
theorem test_no_such_register :
    seen (step { State.reset with inputs := [.txn (.rdReg 5)] }) (fun t => t.answers) = some [.nak] := by decide
theorem test_result_readable :
    seen (step { State.reset with status := 2, olen := 1, obuf := cells 0 [0x41], inputs := [.txn (.rdObuf 0)] })
      (fun t => t.answers) = some [.okByte 0x41] := by decide
theorem test_reset_while_busy :
    seen (step { running .dec85 [0x7A] [] 0 0 0 with inputs := [.reset] }) (fun t => (report t, t.ilen.toNat)) =
      some ((0, 0, 0), 0) := by decide

/-- What the host has at the end of a dialogue. -/
def told {α : Type} (d : Dialogue α) : Option (α × List Answer) :=
  match d with
  | .done s a => some (a, s.answers)
  | .polling _ | .offScript _ _ | .fault _ | .refused _ => none

/-- `RUN ENC85` on the empty message (program P4): one poll before the engine's `end`, one after it, and the third is not
made. -/
theorem test_run_stops_polling :
    told (hostRun .enc85 [0, 0, 1, 0] (idle [] [])) = some (0x02, [.ok, .okWord 0x01, .okWord 0x02]) := by decide
/-- `RUN` without a turn for the engine keeps polling. -/
theorem test_run_keeps_polling : told (hostRun .enc85 [0, 0] (idle [] [])) = none := by decide
/-- `MOVE` of a result of one byte: `RD OLEN`, `RD OBUF[0]`, `WR IBUF[0]`, `WR ILEN`. -/
theorem test_move :
    told (hostMove [] { State.reset with status := 2, olen := 1, obuf := cells 0 [0x41] }) =
      some ([0x41], [.okWord 1, .okByte 0x41, .ok, .ok]) := by decide
/-- `FETCH` in a BUSY block: `RD OLEN` is refused (rule R56), and there is no `m`. -/
theorem test_fetch_while_busy : told (hostFetch [] (running .dec85 [0x7A] [] 0 0 0)) = none := by decide

/-! ### Witnesses: states and operands that meet each statement's hypotheses -/

theorem witness_IllegalWordsAreNamed :
    illegalCommand 5 = false ∧ illegalCommand 6 = true ∧ illegalCommand 7 = true ∧ illegalCommand 8 = true := by decide
theorem witness_ResetAbandonsEverything :
    ({ running .dec85 [0x7A] [] 0 0 0 with inputs := [.reset] } : State).inputs = .reset :: [] := rfl
theorem witness_StepRunsTheCommandInCmd :
    (running .enc5 rust [] 0 0 0).busy = true ∧ decode (running .enc5 rust [] 0 0 0).cmd = .ok .enc5 ∧
      (running .enc5 rust [] 0 0 0).inputs = [] ∧
      ({ running .enc5 rust [] 0 0 0 with inputs := [.engine] } : State).inputs = .engine :: [] :=
  ⟨by decide, rfl, rfl, rfl⟩
theorem witness_StepRunsTheCommandWritten :
    (idle rust [.txn (.wrReg 0 2)]).busy = false ∧ decode 2 = .ok .enc6 ∧
      (idle rust [.txn (.wrReg 0 2)]).inputs = .txn (.wrReg 0 2) :: [] := ⟨by decide, rfl, rfl⟩
theorem witness_IdleBlockWaits :
    (idle rust []).busy = false ∧ (idle rust []).inputs = [] ∧ (idle rust [.engine]).inputs = .engine :: [] :=
  ⟨by decide, rfl, rfl⟩

/-- One witness for each branch of `CommandTriggerWrite` and `EveryOperationStarts`: illegal words, a message one byte
too long, a message that just fits (`IN_MAX = 16`). -/
theorem witness_CommandTriggerWrite :
    (idle rust [.txn (.wrReg 0 6)]).busy = false ∧
      (idle rust [.txn (.wrReg 0 6)]).inputs = .txn (.wrReg 0 6) :: [] ∧ BitVec.extractLsb' 1 2 (6 : Word) = 3 ∧
      BitVec.extractLsb' 3 29 (8 : Word) ≠ 0 ∧ ({ idle [] [] with ilen := 17 } : State).par.inMax < 17 ∧
      (List.replicate 16 0 : List Byte).length ≤ (idle [] []).par.inMax := by decide
theorem witness_InverseTables :
    Params.wellFormed defaultParams = true ∧ defaultSym5[31]? = some 0x37 ∧ defaultSym6[63]? = some 0x2F := by decide
theorem witness_DefaultTables : 25 ≤ 25 ∧ 26 ≤ 26 ∧ 31 ≤ 31 ∧ 51 ≤ 51 ∧ 52 ≤ 52 ∧ 61 ≤ 61 := by decide
theorem witness_Base85Digits :
    (84 : Nat) ≤ 84 ∧ charDigit 32 = none ∧ charDigit 33 = some 0 ∧ charDigit 117 = some 84 ∧ charDigit 118 = none := by
  decide
theorem witness_EveryOperationStarts :
    (idle rust []).busy = false ∧ (idle rust []).ilen.toNat ≤ (idle rust []).par.inMax ∧
      ({ idle [] [] with ilen := 17 } : State).busy = false := by decide

/-- Default parameters are sized. -/
theorem sized_default : Params.sized defaultParams := by decide

theorem witness_GroupedEncodersTakeAByte_enc5 : AtStep .enc5 (running .enc5 rust [0x4F] 1 3 2) :=
  ⟨by decide, sized_default, ⟨by decide, by decide, ⟨by decide, by decide, by decide⟩⟩, by decide⟩
theorem witness_GroupedEncodersTakeAByte_enc6 : AtStep .enc6 (running .enc6 rust [0x63, 0x6E] 2 4 5) :=
  ⟨by decide, sized_default, ⟨by decide, by decide, ⟨by decide, by decide, by decide⟩⟩, by decide⟩
/-- `end` with bits left. -/
theorem witness_GroupedEncodersPadAndFinish_enc5 :
    AtEnd .enc5 (running .enc5 rust [0x4F, 0x4A, 0x32, 0x58, 0x47, 0x35] 4 2 0) :=
  ⟨by decide, sized_default, ⟨by decide, by decide, ⟨by decide, by decide, by decide⟩⟩, by decide⟩
/-- `end` with no bit left: the empty message. -/
theorem witness_GroupedEncodersPadAndFinish_enc6 : AtEnd .enc6 (running .enc6 [] [] 0 0 0) :=
  ⟨by decide, sized_default, ⟨by decide, by decide, ⟨by decide, by decide, by decide⟩⟩, by decide⟩
theorem witness_GroupedDecodersFinish_padding :
    AtStep .dec5 (running .dec5 rust5 rust 7 3 0) ∧ (running .dec5 rust5 rust 7 3 0).ibufByte 7 = 0x3D :=
  ⟨⟨by decide, sized_default, ⟨by decide, by decide, ⟨by decide, by decide, by decide⟩⟩, by decide⟩, by decide⟩
theorem witness_GroupedDecodersFinish_end : AtEnd .dec6 (running .dec6 [0x5A] [] 1 6 25) :=
  ⟨by decide, sized_default, ⟨by decide, by decide, ⟨by decide, by decide, by decide⟩⟩, by decide⟩
theorem witness_GroupedDecodersRaise_dec5 :
    AtStep .dec5 (running .dec5 [0x6D] [] 0 0 0) ∧ (running .dec5 [0x6D] [] 0 0 0).ibufByte 0 ≠ 0x3D ∧
      (running .dec5 [0x6D] [] 0 0 0).ibufByte 0 ∉ (running .dec5 [0x6D] [] 0 0 0).par.sym5 :=
  ⟨⟨by decide, sized_default, ⟨by decide, by decide, ⟨by decide, by decide, by decide⟩⟩, by decide⟩, by decide, by decide⟩
theorem witness_GroupedDecodersRaise_dec6 :
    AtStep .dec6 (running .dec6 bad6 [0x72, 0x75, 0x73] 4 0 0) ∧
      (running .dec6 bad6 [0x72, 0x75, 0x73] 4 0 0).ibufByte 4 ∉ defaultSym6 :=
  ⟨⟨by decide, sized_default, ⟨by decide, by decide, ⟨by decide, by decide, by decide⟩⟩, by decide⟩, by decide⟩
/-- 7 bits after the symbol: no byte. -/
theorem witness_GroupedDecodersTakeASymbol_none :
    AtStep .dec5 (running .dec5 rust5 [0x72] 2 2 1) ∧
      defaultSym5[26]? = some ((running .dec5 rust5 [0x72] 2 2 1).ibufByte 2) :=
  ⟨⟨by decide, sized_default, ⟨by decide, by decide, ⟨by decide, by decide, by decide⟩⟩, by decide⟩, by decide⟩
/-- 8 bits after the symbol: one byte. -/
theorem witness_GroupedDecodersTakeASymbol_byte :
    AtStep .dec6 (running .dec6 bad6 [0x72, 0x75] 3 2 1) ∧
      defaultSym6[51]? = some ((running .dec6 bad6 [0x72, 0x75] 3 2 1).ibufByte 3) :=
  ⟨⟨by decide, sized_default, ⟨by decide, by decide, ⟨by decide, by decide, by decide⟩⟩, by decide⟩, by decide⟩
theorem witness_Encode85TakesAChunk : AtStep .enc85 (running .enc85 [0, 0, 0, 0, 0xFF] [0x7A] 4 0 0) :=
  ⟨by decide, sized_default, ⟨by decide, by decide, ⟨by decide, by decide, by decide, by decide⟩⟩, by decide⟩
theorem witness_Encode85Finishes : AtEnd .enc85 (running .enc85 [0xFF] [0x72, 0x72] 1 0 0xFF000000) :=
  ⟨by decide, sized_default, ⟨by decide, by decide, ⟨by decide, by decide, by decide, by decide⟩⟩, by decide⟩
theorem witness_Decode85ZeroSymbol_boundary :
    AtStep .dec85 (running .dec85 [0x7A] [] 0 0 0) ∧ (running .dec85 [0x7A] [] 0 0 0).ibufByte 0 = 0x7A :=
  ⟨⟨by decide, sized_default, ⟨by decide, by decide, ⟨by decide, by decide, by decide, by decide⟩⟩, by decide⟩, by decide⟩
theorem witness_Decode85ZeroSymbol_inside :
    AtStep .dec85 (running .dec85 [0x21, 0x7A] [] 1 1 0) ∧ (running .dec85 [0x21, 0x7A] [] 1 1 0).ibufByte 1 = 0x7A :=
  ⟨⟨by decide, sized_default, ⟨by decide, by decide, ⟨by decide, by decide, by decide, by decide⟩⟩, by decide⟩, by decide⟩
theorem witness_Decode85Digit_fourth :
    AtStep .dec85 (running .dec85 over85 [] 3 3 594459) ∧
      ((running .dec85 over85 [] 3 3 594459).ibufByte 3).toNat = 12 + 33 :=
  ⟨⟨by decide, sized_default, ⟨by decide, by decide, ⟨by decide, by decide, by decide, by decide⟩⟩, by decide⟩, by decide⟩
/-- The fifth digit: the largest legal group, and the least one out of range. -/
theorem witness_Decode85Digit_fifth :
    AtStep .dec85 (running .dec85 over85 [] 4 4 50529027) ∧
      ((running .dec85 over85 [] 4 4 50529027).ibufByte 4).toNat = 1 + 33 ∧
      50529027 * 85 + 0 ≤ 0xFFFFFFFF ∧ ¬ 50529027 * 85 + 1 ≤ 0xFFFFFFFF :=
  ⟨⟨by decide, sized_default, ⟨by decide, by decide, ⟨by decide, by decide, by decide, by decide⟩⟩, by decide⟩, by decide,
    by decide, by decide⟩
theorem witness_Decode85ForeignCharacter_low :
    AtStep .dec85 (running .dec85 [0x20] [] 0 0 0) ∧ ((running .dec85 [0x20] [] 0 0 0).ibufByte 0).toNat < 33 :=
  ⟨⟨by decide, sized_default, ⟨by decide, by decide, ⟨by decide, by decide, by decide, by decide⟩⟩, by decide⟩, by decide⟩
theorem witness_Decode85ForeignCharacter_high :
    AtStep .dec85 (running .dec85 [0x76] [] 0 0 0) ∧ 117 < ((running .dec85 [0x76] [] 0 0 0).ibufByte 0).toNat ∧
      (running .dec85 [0x76] [] 0 0 0).ibufByte 0 ≠ 0x7A :=
  ⟨⟨by decide, sized_default, ⟨by decide, by decide, ⟨by decide, by decide, by decide, by decide⟩⟩, by decide⟩, by decide,
    by decide⟩
theorem witness_Decode85LastGroup_none : AtEnd .dec85 (running .dec85 [0x7A] [0, 0, 0, 0] 1 0 0) :=
  ⟨by decide, sized_default, ⟨by decide, by decide, ⟨by decide, by decide, by decide, by decide⟩⟩, by decide⟩
/-- A last group of one digit: 81 fits, 82 does not. -/
theorem witness_Decode85LastGroup_one :
    AtEnd .dec85 (running .dec85 [0x72] [] 1 1 81) ∧ AtEnd .dec85 (running .dec85 [0x73] [] 1 1 82) ∧
      81 * 85 ^ 4 + (85 ^ 4 - 1) ≤ 0xFFFFFFFF ∧ ¬ 82 * 85 ^ 4 + (85 ^ 4 - 1) ≤ 0xFFFFFFFF :=
  ⟨⟨by decide, sized_default, ⟨by decide, by decide, ⟨by decide, by decide, by decide, by decide⟩⟩, by decide⟩,
    ⟨by decide, sized_default, ⟨by decide, by decide, ⟨by decide, by decide, by decide, by decide⟩⟩, by decide⟩,
    by decide, by decide⟩

/-- For the four statements on whole runs and for `OutcomeDependsOnTheMessageOnly`: two idle states with one message, the
second with the leftovers of another operation. -/
theorem witness_RunGives :
    (idle rust []).par.wellFormed = true ∧ (idle rust []).busy = false ∧
      (idle rust []).ilen.toNat ≤ (idle rust []).par.inMax := by decide
theorem witness_OutcomeDependsOnTheMessageOnly :
    (idle rust []).par.wellFormed = true ∧ ({ running .dec85 rust [1, 2] 3 3 7 with status := 2 } : State).busy = false ∧
      ({ running .dec85 rust [1, 2] 3 3 7 with status := 2 } : State).par = (idle rust []).par ∧
      ({ running .dec85 rust [1, 2] 3 3 7 with status := 2 } : State).ilen = (idle rust []).ilen ∧
      ({ running .dec85 rust [1, 2] 3 3 7 with status := 2 } : State).ibuf = (idle rust []).ibuf := by decide
theorem witness_GroupedRoundTrip : Params.wellFormed defaultParams = true := test_default_params
/-- The result of ENC85 on one byte is the message of a second state (section 2.5: `66` gives `Ac`). -/
theorem witness_RoundTripOnTheMachine :
    seen (runCommand .enc85 (idle [0x66] [])) (fun t => t.result) = some (idle [0x41, 0x63] []).message ∧
      (idle [0x41, 0x63] []).busy = false ∧ (idle [0x41, 0x63] []).par = (idle [0x66] []).par := by decide

theorem witness_OutputFits :
    (match outcomeOf defaultParams [0x7A] .dec85 with | .ok out => out.length | .error _ => 0) = 4 ∧
      ([0x7A] : List Byte).length ≤ defaultParams.inMax := by decide
/-- Rule R136: an aligned zero chunk counts, four zero bytes across a boundary do not. -/
theorem test_zero_chunks_counted :
    zeroChunkCount [0, 0, 0, 0, 0xFF] = 1 ∧ zeroChunkCount [1, 0, 0, 0, 0, 1, 0, 0] = 0 ∧ zeroChunkCount [0, 0, 0] = 0 := by
  decide
theorem witness_EncodingInPieces :
    (List.replicate 5 0 : List Byte).length % 5 = 0 ∧ (List.replicate 3 0 : List Byte).length % 3 = 0 ∧
      (rust).length % 4 = 0 := by decide
theorem witness_FullGroupRange :
    (82 ≤ 84 ∧ 23 ≤ 84 ∧ 54 ≤ 84 ∧ 12 ≤ 84 ∧ 1 ≤ 84) ∧
      82 * 85 ^ 4 + 23 * 85 ^ 3 + 54 * 85 ^ 2 + 12 * 85 + 0 ≤ 2 ^ 32 - 1 ∧
      ¬ 82 * 85 ^ 4 + 23 * 85 ^ 3 + 54 * 85 ^ 2 + 12 * 85 + 1 ≤ 2 ^ 32 - 1 := by decide

/-- A refused transaction for each row of rule R55, at the edge of its range. -/
theorem witness_PortRefusesExactly_refused :
    RefusedRow (.rdReg 5) State.reset ∧ RefusedRow (.wrReg 5 0) State.reset ∧ RefusedRow (.wrReg 1 0) State.reset ∧
      RefusedRow (.rdIbuf 16) State.reset ∧ RefusedRow (.wrIbuf 16 0) State.reset ∧ RefusedRow (.rdObuf 0) State.reset ∧
      RefusedRow (.wrObuf 0 0) State.reset ∧ RefusedRow (.wrReg 0 0) (running .enc5 [] [] 0 0 0) ∧
      RefusedRow (.rdReg 3) (running .enc5 [] [] 0 0 0) :=
  ⟨.noSuchRegisterRead _ _ (by decide), .noSuchRegisterWrite _ _ _ (by decide), .readOnly _ _ _ (by decide),
    .outsideIbufRead _ _ (by decide), .outsideIbufWrite _ _ _ (by decide), .notInResult _ _ (by decide), .obufWrite _ _ _,
    .busyRegisterWrite _ _ _ (by decide) (by decide), .busyRegisterRead _ _ (by decide) (by decide)⟩
/-- A transaction the port serves, at the edge: the last register of an idle block. -/
theorem witness_PortRefusesExactly_served : ¬ RefusedRow (.rdReg 4) State.reset := by
  intro h
  cases h with
  | noSuchRegisterRead _ _ h => exact absurd h (by decide)
  | busyRegisterRead _ _ hb _ => exact absurd hb (by decide)
theorem witness_BusyLock :
    ({ running .dec85 [0x7A] [] 0 0 0 with inputs := [.txn (.rdReg 2)] } : State).busy = true ∧
      ({ running .dec85 [0x7A] [] 0 0 0 with inputs := [.txn (.rdReg 2)] } : State).inputs = .txn (.rdReg 2) :: [] := by
  decide
theorem witness_HostCannotDisturbARun : (running .dec85 [0x7A] [] 0 0 0).busy = true := by decide
theorem witness_PortReads :
    (idle rust [.txn (.rdReg 4)]).busy = false ∧ (idle rust [.txn (.rdIbuf 15)]).par.inMax = 16 ∧
      ({ State.reset with olen := 1 } : State).olen.toNat = 1 := by decide
theorem witness_PortWrites :
    (idle rust [.txn (.wrReg 2 17)]).busy = false ∧ 15 < (idle rust [.txn (.wrIbuf 15 0)]).par.inMax := by decide
theorem witness_LoadPlacesTheMessage :
    (idle [] []).busy = false ∧ (List.replicate 16 0 : List Byte).length ≤ (idle [] []).par.inMax := by decide
theorem witness_FetchAndMoveTheResult :
    ({ State.reset with olen := 68 } : State).olen.toNat ≤ State.reset.par.outMax ∧
      ({ State.reset with olen := 68 } : State).busy = false ∧
      ({ State.reset with olen := 16 } : State).olen.toNat ≤ State.reset.par.inMax := by decide
/-- The schedule of program P1 gives the engine its 5 turns; no turn; a message one byte too long. -/
theorem witness_RunPollsUntilDone :
    (idle rust []).busy = false ∧ (idle rust []).ilen.toNat + 1 ≤ ([0, 0, 2, 3] : List Nat).tail.sum ∧
      ([0, 0, 0] : List Nat).tail.sum = 0 ∧ ({ idle [] [] with ilen := 17 } : State).par.inMax < 17 := by decide

/-- A state that meets the invariant while an operation runs, and one step from it. -/
theorem witness_StepKeepsTheInvariant : (running .enc5 rust [0x4F] 1 3 2).Inv where
  params := test_default_params
  ibuf := by decide
  obuf := by decide
  status := by decide
  olen := by decide
  epos := by decide
  run := fun _ => ⟨.enc5, rfl, ⟨by decide, by decide, ⟨by decide, by decide, by decide⟩⟩⟩
theorem witness_StepNeverStops : (running .enc5 rust [0x4F] 1 3 2).Inv := witness_StepKeepsTheInvariant
theorem witness_EveryOperationEnds :
    (running .enc5 rust [0x4F] 1 3 2).Inv ∧ (running .enc5 rust [0x4F] 1 3 2).busy = true ∧
      (running .enc5 rust [0x4F] 1 3 2).inputs = [] := ⟨witness_StepKeepsTheInvariant, by decide, rfl⟩
theorem witness_EngineLeavesTheHostSide :
    (running .enc5 rust [0x4F] 1 3 2).busy = true ∧ Params.sized (running .enc5 rust [0x4F] 1 3 2).par ∧
      (seen (exec .enc5 (running .enc5 rust [0x4F] 1 3 2)) (fun t => t.busy)) = some true :=
  ⟨by decide, sized_default, by decide⟩
/-- Both ways out of BUSY: reset, and the engine's turn. -/
theorem witness_WaysOutOfBusy :
    seen (step { running .enc85 [] [] 0 0 0 with inputs := [.reset] }) (fun t => t.busy) = some false ∧
      seen (step (running .enc85 [] [] 0 0 0)) (fun t => t.busy) = some false := by decide
/-- The state of trace T4 at `*` meets the invariant and its action fails. -/
theorem witness_ErrorsShowNoOutput :
    (running .dec6 bad6 [0x72, 0x75, 0x73] 4 0 0).Inv ∧
      seen (exec .dec6 (running .dec6 bad6 [0x72, 0x75, 0x73] 4 0 0)) (fun t => t.err) = some true :=
  ⟨{ params := test_default_params, ibuf := by decide, obuf := by decide, status := by decide, olen := by decide,
     epos := by decide,
     run := fun _ => ⟨.dec6, rfl, ⟨by decide, by decide, ⟨by decide, by decide, by decide⟩⟩⟩ }, by decide⟩
/-- A write that leaves the report alone, and a command write that ends it, from a block with a result. -/
theorem witness_ReportLasts :
    ({ State.reset with status := 2, olen := 1, obuf := cells 0 [0x41] } : State).busy = false ∧
      seen (step { State.reset with status := 2, olen := 1, obuf := cells 0 [0x41], inputs := [.txn (.wrIbuf 0 1)] })
        report = some (2, 1, 0) ∧
      seen (step { State.reset with status := 2, olen := 1, obuf := cells 0 [0x41], inputs := [.txn (.wrReg 0 7)] })
        report = some (0x44, 0, 0) := by decide
theorem witness_IbufIsStable :
    (seen (step (idle rust [.txn (.rdIbuf 1)])) (fun t => t.answers)) = some [.okByte 0x75] := by decide
theorem witness_ParametersAreConstant :
    (seen (step (idle rust [.reset])) (fun t => t.par)) = some defaultParams := by decide

end Sys2Proof.Tests
end

section
/-! PROOFS. The host port (spec/20_memory.md): what it refuses, one rule per kind of transaction; that these refusals are
the rows of rule R55; that every other transaction is served; and the BUSY lock of rule R56. -/

namespace Sys2Proof.Proofs

open Sys2Proof.Machine Sys2Proof.Certificates

/-! ### What the port refuses -/

theorem portRefuses_rdReg {k : Nat} {s : State} :
    portRefuses (.rdReg k) s = true ↔ 5 ≤ k ∨ s.busy = true ∧ (k = 3 ∨ k = 4) := by simp [portRefuses]

theorem portRefuses_wrReg {k : Nat} {v : Word} {s : State} :
    portRefuses (.wrReg k v) s = true ↔
      5 ≤ k ∨ (k = 1 ∨ k = 3 ∨ k = 4) ∨ s.busy = true ∧ (k = 0 ∨ k = 2) := by simp [portRefuses, or_assoc]

theorem portRefuses_rdIbuf {i : Nat} {s : State} :
    portRefuses (.rdIbuf i) s = true ↔ s.par.inMax ≤ i ∨ s.busy = true := by simp [portRefuses]

theorem portRefuses_wrIbuf {i : Nat} {b : Byte} {s : State} :
    portRefuses (.wrIbuf i b) s = true ↔ s.par.inMax ≤ i ∨ s.busy = true := by simp [portRefuses]

theorem portRefuses_rdObuf {j : Nat} {s : State} :
    portRefuses (.rdObuf j) s = true ↔ (s.olen.toNat ≤ j ∨ s.par.outMax ≤ j) ∨ s.busy = true := by
  simp [portRefuses]

@[simp] theorem portRefuses_wrObuf (j : Nat) (b : Byte) (s : State) : portRefuses (.wrObuf j b) s = true := rfl

/-- What the host does next has no part in a refusal. -/
@[simp] theorem portRefuses_setInputs (q : Transaction) (rest : List Input) (s : State) :
    portRefuses q (s.setInputs rest) = portRefuses q s := by cases q <;> rfl

/-- A transaction in a row of rule R55's table is refused. -/
theorem portRefuses_of_refusedRow {q : Transaction} {s : State} (h : RefusedRow q s) : portRefuses q s = true := by
  cases h with
  | noSuchRegisterRead k _ h => exact portRefuses_rdReg.2 (.inl h)
  | noSuchRegisterWrite k v _ h => exact portRefuses_wrReg.2 (.inl h)
  | readOnly k v _ h => exact portRefuses_wrReg.2 (.inr (.inl h))
  | outsideIbufRead i _ h => exact portRefuses_rdIbuf.2 (.inl h)
  | outsideIbufWrite i b _ h => exact portRefuses_wrIbuf.2 (.inl h)
  | notInResult j _ h => exact portRefuses_rdObuf.2 (.inl h)
  | obufWrite j b => exact portRefuses_wrObuf j b s
  | busyRegisterWrite k v _ hb h => exact portRefuses_wrReg.2 (.inr (.inr ⟨hb, h⟩))
  | busyRegisterRead k _ hb h => exact portRefuses_rdReg.2 (.inr ⟨hb, h⟩)
  | busyIbufRead i _ hb => exact portRefuses_rdIbuf.2 (.inr hb)
  | busyIbufWrite i b _ hb => exact portRefuses_wrIbuf.2 (.inr hb)
  | busyObufRead j _ hb => exact portRefuses_rdObuf.2 (.inr hb)

/-- A refused transaction is in a row of rule R55's table. -/
theorem refusedRow_of_portRefuses {q : Transaction} {s : State} (h : portRefuses q s = true) : RefusedRow q s := by
  cases q with
  | rdReg k =>
    rcases portRefuses_rdReg.1 h with h | ⟨hb, h⟩
    · exact .noSuchRegisterRead k s h
    · exact .busyRegisterRead k s hb h
  | wrReg k v =>
    rcases portRefuses_wrReg.1 h with h | h | ⟨hb, h⟩
    · exact .noSuchRegisterWrite k v s h
    · exact .readOnly k v s h
    · exact .busyRegisterWrite k v s hb h
  | rdIbuf i =>
    rcases portRefuses_rdIbuf.1 h with h | hb
    · exact .outsideIbufRead i s h
    · exact .busyIbufRead i s hb
  | wrIbuf i b =>
    rcases portRefuses_wrIbuf.1 h with h | hb
    · exact .outsideIbufWrite i b s h
    · exact .busyIbufWrite i b s hb
  | rdObuf j =>
    rcases portRefuses_rdObuf.1 h with h | hb
    · exact .notInResult j s h
    · exact .busyObufRead j s hb
  | wrObuf j b => exact .obufWrite j b s

/-- The port's test is rule R55's table. -/
theorem refusedRow_iff {q : Transaction} {s : State} : RefusedRow q s ↔ portRefuses q s = true :=
  ⟨portRefuses_of_refusedRow, refusedRow_of_portRefuses⟩

/-! ### What the port serves -/

@[simp] theorem commandTrigger_answers (v : Word) (s : State) : (commandTrigger v s).answers = s.answers := by
  unfold commandTrigger
  split
  · rfl
  · split <;> rfl

/-- A command write to an idle block always has a next state, and the answers are the port's to give, not the trigger's
(rules R54, R80). -/
theorem writeCommand_idle (v : Word) {s : State} (hb : s.busy = false) :
    ∃ u, writeCommand v s = .next u ∧ u.answers = s.answers := by
  unfold writeCommand
  split
  case h_1 i _ => exact ⟨_, exec_start i hb, commandTrigger_answers _ s⟩
  case h_2 => exact ⟨_, rfl, commandTrigger_answers v s⟩

/-- A register write that the port does not refuse has a next state: it is to ILEN, or to CMD of an idle block
(rule R54). -/
theorem writeRegister_served {k : Nat} {v : Word} {s : State} (h : portRefuses (.wrReg k v) s = false) :
    ∃ u, writeRegister k v s = .next u ∧ u.answers = s.answers := by
  unfold writeRegister
  split
  case isTrue hk =>
    have hb : s.busy = false :=
      Bool.eq_false_iff.2 fun hc => Bool.eq_false_iff.1 h (portRefuses_wrReg.2 (.inr (.inr ⟨hc, .inl hk⟩)))
    exact writeCommand_idle v hb
  case isFalse => exact ⟨_, rfl, rfl⟩

theorem transact_wrReg {k : Nat} {v : Word} {s u : State} (h : portRefuses (.wrReg k v) s = false)
    (hu : writeRegister k v s = .next u) : transact (.wrReg k v) s = .next (u.pushAnswer .ok) := by
  simp [transact, h, hu]

theorem transact_rdReg {k : Nat} {s : State} (h : portRefuses (.rdReg k) s = false) :
    transact (.rdReg k) s = .next (s.pushAnswer (.okWord (regValue k s))) := by simp [transact, h]

theorem transact_rdIbuf {i : Nat} {s : State} (h : portRefuses (.rdIbuf i) s = false) :
    transact (.rdIbuf i) s = .next (s.pushAnswer (.okByte (s.ibufByte i))) := by simp [transact, h]

theorem transact_wrIbuf {i : Nat} {b : Byte} {s : State} (h : portRefuses (.wrIbuf i b) s = false) :
    transact (.wrIbuf i b) s = .next ((s.storeIbuf i b).pushAnswer .ok) := by simp [transact, h]

theorem transact_rdObuf {j : Nat} {s : State} (h : portRefuses (.rdObuf j) s = false) :
    transact (.rdObuf j) s = .next (s.pushAnswer (.okByte (s.obufByte j))) := by simp [transact, h]

/-- A transaction that the port does not refuse is answered, and not with `NAK` (rule R55). -/
theorem transact_served {q : Transaction} {s : State} (h : portRefuses q s = false) :
    ∃ t a, transact q s = .next t ∧ t.answers = s.answers ++ [a] ∧ a ≠ .nak := by
  cases q with
  | rdReg k => exact ⟨_, _, transact_rdReg h, rfl, by simp⟩
  | wrReg k v =>
    obtain ⟨u, hu, ha⟩ := writeRegister_served h
    exact ⟨_, .ok, transact_wrReg h hu, by simp [ha], by simp⟩
  | rdIbuf i => exact ⟨_, _, transact_rdIbuf h, rfl, by simp⟩
  | wrIbuf i b => exact ⟨_, _, transact_wrIbuf h, rfl, by simp⟩
  | rdObuf j => exact ⟨_, _, transact_rdObuf h, rfl, by simp⟩
  | wrObuf j b => simp at h

/-! ### The BUSY lock -/

/-- What the port answers while BUSY: the value of CMD, STATUS or ILEN for their reads, `NAK` for everything else
(rule R56). -/
def busyAnswer (q : Transaction) (s : State) : Answer :=
  if q = .rdReg 0 then .okWord s.cmd else if q = .rdReg 1 then .okWord s.status
    else if q = .rdReg 2 then .okWord s.ilen else .nak

/-- While BUSY the port refuses everything but the reads of the first three registers (rules R55, R56). -/
theorem portRefuses_busy {q : Transaction} {s : State} (hb : s.busy = true) :
    portRefuses q s = true ↔ ∀ k < 3, q ≠ .rdReg k := by
  cases q with
  | rdReg k =>
    have hk : (∀ k' < 3, k ≠ k') ↔ 3 ≤ k := ⟨fun h => Nat.not_lt.1 fun hlt => h k hlt rfl, by omega⟩
    simp only [portRefuses_rdReg, hb, true_and, ne_eq, Transaction.rdReg.injEq] at hk ⊢
    rw [hk]
    omega
  | wrReg k v =>
    simp only [portRefuses_wrReg, hb, true_and, ne_eq, reduceCtorEq, not_false_eq_true, implies_true, iff_true]
    omega
  | rdIbuf i => simp [portRefuses_rdIbuf, hb]
  | wrIbuf i b => simp [portRefuses_wrIbuf, hb]
  | rdObuf j => simp [portRefuses_rdObuf, hb]
  | wrObuf j b => simp

/-- While BUSY a transaction leaves nothing but its answer (rule R56). -/
theorem transact_busy (q : Transaction) {s : State} (hb : s.busy = true) :
    transact q s = .next (s.pushAnswer (busyAnswer q s)) := by
  by_cases hr : portRefuses q s = true
  · have hk := (portRefuses_busy hb).1 hr
    rw [transact_refused hr]
    simp [busyAnswer, hk 0, hk 1, hk 2]
  · have hs : ∃ k < 3, q = .rdReg k := by simpa [portRefuses_busy hb] using hr
    obtain ⟨k, hk, rfl⟩ := hs
    rw [transact_rdReg (by simpa using hr)]
    interval_cases k <;> rfl

/-! ### The statements -/

/-- Settles O43: the table of rule R55 is the port's test, a refusal leaves nothing but its `NAK`, and every other
transaction is served. -/
theorem portRefusesExactly : Obligations.PortRefusesExactly := by
  intro s q rest hq
  rw [step_txn hq, refusedRow_iff]
  constructor
  · intro hr
    exact ⟨_, transact_refused (by simpa using hr), rfl⟩
  · intro hr
    exact transact_served (s := s.setInputs rest) (by simpa using hr)

/-- Settles O44: the step is a transaction on a BUSY block. -/
theorem busyLock : Obligations.BusyLock := by
  intro s q rest hb hq
  exact ⟨_, (step_txn hq).trans (transact_busy q (s := s.setInputs rest) hb), rfl⟩

end Sys2Proof.Proofs
end

section
/-! PROOFS. The encodings (spec/30_encoding.md): the command word through its three fields, the command trigger on the
port, the default tables as runs of consecutive codes, the inverse tables and the base-85 digits. -/

namespace Sys2Proof.Proofs

open Sys2Proof.Machine Sys2Proof.Certificates

/-! ### The fields of a command word (rule R75) -/

/-- A command word is `RSV`, `CODEC` and `DIR` in a row. -/
theorem append_fields (v : Word) : fieldRsv v ++ fieldCodec v ++ BitVec.ofBool (fieldDir v) = v := by
  have hdir : BitVec.ofBool (fieldDir v) = v.extractLsb' 0 1 := by
    ext i hi
    obtain rfl : i = 0 := by omega
    simp [fieldDir]
  calc fieldRsv v ++ fieldCodec v ++ BitVec.ofBool (fieldDir v)
      = v.extractLsb' 1 31 ++ v.extractLsb' 0 1 := by
        rw [hdir]
        exact congrArg (· ++ v.extractLsb' 0 1) (BitVec.extractLsb'_append_extractLsb'_eq_extractLsb' rfl)
    _ = v.extractLsb' 0 32 := BitVec.extractLsb'_append_extractLsb'_eq_extractLsb' rfl
    _ = v := BitVec.extractLsb'_eq_self

section
variable (r : BitVec 29) (c : BitVec 2) (d : BitVec 1)

theorem fieldRsv_append : fieldRsv (r ++ c ++ d) = r :=
  (BitVec.extractLsb'_append_eq_of_le (xlo := d) (by decide)).trans BitVec.extractLsb'_append_eq_left

theorem fieldCodec_append : fieldCodec (r ++ c ++ d) = c :=
  (BitVec.extractLsb'_append_eq_of_le (xlo := d) (by decide)).trans BitVec.extractLsb'_append_eq_right

theorem fieldDir_append : fieldDir (r ++ c ++ d) = d.getLsbD 0 :=
  BitVec.getLsbD_append (x := r ++ c) (y := d) (i := 0)

end

/-! ### The decoder (rules R76, R78, R79) -/

/-- A word is a command when no reserved bit is set and `CODEC` with `DIR` selects an operation. -/
theorem decode_eq_ok_iff {v : Word} {i : Instr} :
    decode v = .ok i ↔ fieldRsv v = 0 ∧ selectOperation (fieldCodec v) (fieldDir v) = some i := by
  unfold decode
  split
  case isTrue h =>
    simp only [reduceCtorEq, false_iff]
    exact fun hand => h hand.1
  case isFalse h =>
    have h0 : fieldRsv v = 0 := not_not.1 h
    split
    case h_1 j hj => simp [h0, hj]
    case h_2 hj => simp [h0, hj]

theorem decode_reservedBits {v : Word} (h : fieldRsv v ≠ 0) : decode v = .error .reservedBits := if_pos h

theorem decode_reservedCodec {v : Word} (h0 : fieldRsv v = 0)
    (h : selectOperation (fieldCodec v) (fieldDir v) = none) : decode v = .error .reservedCodec := by
  simp [decode, h0, h]

/-- What `CODEC` and `DIR` select is the operation whose command value holds them below a zero `RSV`. -/
theorem append_of_selectOperation {c : BitVec 2} {d : Bool} {i : Instr} (h : selectOperation c d = some i) :
    (0 : BitVec 29) ++ c ++ BitVec.ofBool d = encode i := by
  revert c d
  cases i <;> decide

/-- The decoder reads no word but the command value of the operation (rule R78). -/
theorem decode_eq_ok_iff_encode {v : Word} {i : Instr} : decode v = .ok i ↔ v = encode i := by
  constructor
  · intro h
    obtain ⟨hrsv, hsel⟩ := decode_eq_ok_iff.1 h
    rw [← append_fields v, hrsv, append_of_selectOperation hsel]
  · rintro rfl
    exact decode_encode i

/-- A word written field by field with a zero `RSV` decodes to what its `CODEC` and `DIR` select. -/
theorem decode_append {c : BitVec 2} {d : BitVec 1} {i : Instr} (h : selectOperation c (d.getLsbD 0) = some i) :
    decode ((0 : BitVec 29) ++ c ++ d) = .ok i :=
  decode_eq_ok_iff.2 ⟨fieldRsv_append 0 c d, by rw [fieldCodec_append, fieldDir_append, h]⟩

/-- Settles O2: a word is put together again from the fields the decoder reads. -/
theorem exactlySixCommands : Obligations.ExactlySixCommands :=
  ⟨fun _ _ => decode_eq_ok_iff_encode, rfl, rfl, rfl, rfl, rfl, rfl⟩

/-- Settles O1, through the fields of an assembled word. -/
theorem commandWordsDecode : Obligations.CommandWordsDecode := by
  refine ⟨decode_append rfl, decode_append rfl, decode_append rfl, decode_append rfl, decode_append rfl,
    decode_append rfl, decode_reservedCodec (fieldRsv_append 0 3 0) ?_, decode_reservedBits ?_⟩
  · rw [fieldCodec_append, fieldDir_append]
    rfl
  · rw [fieldRsv_append]
    decide

/-! ### The command trigger on the port (rules R80, R81) -/

/-- The trigger's test, in the words of rule R80. -/
theorem illegalCommand_iff {v : Word} :
    illegalCommand v = true ↔ v.extractLsb' 3 29 ≠ 0 ∨ v.extractLsb' 1 2 = 3 := by
  simp only [illegalCommand, Bool.or_eq_true, decide_eq_true_eq, beq_iff_eq]
  rfl

theorem commandTrigger_tooLong {v : Word} {s : State} (h : illegalCommand v = false)
    (hlen : s.par.inMax < s.ilen.toNat) : commandTrigger v s = s.latchCommand v (statusError .eLen) := by
  simp [commandTrigger, h, hlen]

theorem commandTrigger_start {v : Word} {s : State} (h : illegalCommand v = false)
    (hlen : ¬s.par.inMax < s.ilen.toNat) : commandTrigger v s = s.clearDatapath.latchCommand v statusBusy := by
  simp [commandTrigger, h, hlen]

/-- Whatever the trigger decides, it latches the command over `s` or over `s` with its datapath cleared: what holds of
both holds of its result. -/
theorem commandTrigger_elim {P : State → Prop} {v : Word} {s : State} (kept : ∀ st, P (s.latchCommand v st))
    (cleared : ∀ st, P (s.clearDatapath.latchCommand v st)) : P (commandTrigger v s) := by
  unfold commandTrigger
  split
  · exact kept _
  · split
    · exact kept _
    · exact cleared _

/-- What every command write leaves behind, accepted or not: CMD is the word, the old report is gone, and only STATUS
and the datapath may differ besides. -/
structure Latched (v : Word) (s t : State) : Prop where
  cmd : t.cmd = v
  olen : t.olen = 0
  epos : t.epos = 0
  ilen : t.ilen = s.ilen
  ibuf : t.ibuf = s.ibuf
  obuf : t.obuf = s.obuf
  par : t.par = s.par
  resets : t.resets = s.resets
  inputs : t.inputs = s.inputs
  answers : t.answers = s.answers

theorem commandTrigger_latched (v : Word) (s : State) : Latched v s (commandTrigger v s) :=
  commandTrigger_elim (fun _ => ⟨rfl, rfl, rfl, rfl, rfl, rfl, rfl, rfl, rfl, rfl⟩)
    (fun _ => ⟨rfl, rfl, rfl, rfl, rfl, rfl, rfl, rfl, rfl, rfl⟩)

/-- The host's write of CMD to an idle block is the command trigger, answered `OK` (rules R54, R80). -/
theorem step_wrReg_cmd {s : State} {v : Word} {rest : List Input} (hb : s.busy = false)
    (hi : s.inputs = .txn (.wrReg 0 v) :: rest) :
    step s = .next ((commandTrigger v (s.setInputs rest)).pushAnswer .ok) := by
  have hserved : portRefuses (.wrReg 0 v) (s.setInputs rest) = false := by simp [portRefuses, hb]
  have hwrite : writeRegister 0 v (s.setInputs rest) = .next (commandTrigger v (s.setInputs rest)) :=
    writeCommand_eq hb fun _ => decode_eq_ok_iff_encode.1
  rw [step_txn hi, transact_wrReg hserved hwrite]

/-- Settles O9: the step is the trigger; the frame is common to its three outcomes, and each outcome has its STATUS and
its datapath. -/
theorem commandTriggerWrite : Obligations.CommandTriggerWrite := by
  intro s v rest hb hi
  have frame := commandTrigger_latched v (s.setInputs rest)
  refine ⟨_, step_wrReg_cmd hb hi, frame.cmd, frame.olen, frame.epos, frame.ilen, frame.ibuf, frame.obuf, frame.par,
    frame.resets, frame.inputs, congrArg (· ++ [Answer.ok]) frame.answers, ?_⟩
  split
  case isTrue hillegal =>
    rw [commandTrigger_illegal (illegalCommand_iff.2 hillegal)]
    exact ⟨rfl, statusError_bit0 .eIllop, ⟨rfl, rfl, rfl, rfl⟩⟩
  case isFalse hlegal =>
    have hlegal : illegalCommand v = false := Bool.eq_false_iff.2 (mt illegalCommand_iff.1 hlegal)
    split
    case isTrue hlen =>
      rw [commandTrigger_tooLong (s := s.setInputs rest) hlegal hlen]
      exact ⟨rfl, statusError_bit0 .eLen, ⟨rfl, rfl, rfl, rfl⟩⟩
    case isFalse hlen =>
      rw [commandTrigger_start (s := s.setInputs rest) hlegal hlen]
      exact ⟨rfl, rfl, rfl, rfl, rfl⟩

/-! ### Runs of consecutive character codes (rules R84, R85) -/

/-- The `n` characters whose codes follow one another from `first` on. -/
def codeRun (first n : Nat) : List Byte := (List.range n).map fun i => BitVec.ofNat 8 (first + i)

@[simp] theorem codeRun_length (first n : Nat) : (codeRun first n).length = n := by simp [codeRun]

theorem codeRun_append_getElem? {first n v : Nat} {post : List Byte} (h : v < n) :
    (codeRun first n ++ post)[v]? = some (BitVec.ofNat 8 (first + v)) := by
  rw [List.getElem?_append_left (by simpa)]
  simp [codeRun, h]

/-- An entry of the run that stands behind `k` other entries. -/
theorem append_codeRun_getElem? {first n k v : Nat} {pre post : List Byte} (hpre : pre.length = k) (hlo : k ≤ v)
    (hhi : v < k + n) : (pre ++ (codeRun first n ++ post))[v]? = some (BitVec.ofNat 8 (first + (v - k))) := by
  subst hpre
  rw [List.getElem?_append_right hlo, codeRun_append_getElem? (by omega)]

/-- A run holds the characters of its range of codes. -/
theorem mem_codeRun (first n last : Nat) (hn : first + n = last + 1) (hlast : last < 256) {c : Byte} :
    c ∈ codeRun first n ↔ first ≤ c.toNat ∧ c.toNat ≤ last := by
  simp only [codeRun, List.mem_map, List.mem_range]
  constructor
  · rintro ⟨i, hi, rfl⟩
    rw [BitVec.toNat_ofNat, Nat.mod_eq_of_lt (by omega)]
    omega
  · rintro ⟨hlo, hhi⟩
    exact ⟨c.toNat - first, by omega, by rw [Nat.add_sub_cancel' hlo, BitVec.ofNat_toNat, BitVec.setWidth_eq]⟩

theorem defaultSym5_eq : defaultSym5 = codeRun 0x41 26 ++ codeRun 0x32 6 := by decide

theorem defaultSym6_eq :
    defaultSym6 = codeRun 0x41 26 ++ (codeRun 0x61 26 ++ (codeRun 0x30 10 ++ [0x2B, 0x2F])) := by decide

/-- Settles O12: each clause is one run of the table. -/
theorem defaultTables : Obligations.DefaultTables := by
  refine ⟨rfl, rfl, fun v hv => ?_, fun v hlo hhi => ?_, fun v hv => ?_, fun v hlo hhi => ?_, fun v hlo hhi => ?_,
    rfl, rfl⟩
  · rw [defaultSym5_eq, codeRun_append_getElem? (by omega)]
  · rw [defaultSym5_eq, ← List.append_nil (codeRun 0x32 6),
      append_codeRun_getElem? (codeRun_length _ _) hlo (by omega)]
  · rw [defaultSym6_eq, codeRun_append_getElem? (by omega)]
  · rw [defaultSym6_eq, append_codeRun_getElem? (codeRun_length _ _) hlo (by omega)]
  · rw [defaultSym6_eq, ← List.append_assoc, append_codeRun_getElem? (k := 52) (by simp) hlo (by omega)]

/-! ### The inverse tables (rule R86) -/

theorem tableWellFormed_nodup {n : Nat} {table : List Byte} (h : tableWellFormed n table = true) : table.Nodup := by
  simp only [tableWellFormed, Bool.and_eq_true, decide_eq_true_eq] at h
  obtain ⟨⟨⟨-, hnodup⟩, -⟩, -⟩ := h
  exact hnodup

/-- The inverse of a character is an index at which the table holds it; that it is the least one says nothing more when
no character stands twice. -/
theorem inverse_eq_some_iff {g : Grouped} (hg : g.table.Nodup) {c : Byte} {v : Nat} :
    g.inverse c = some v ↔ g.table[v]? = some c := by
  simp only [Grouped.inverse, List.findIdx?_eq_some_iff_getElem, List.getElem?_eq_some_iff, beq_iff_eq]
  constructor
  · rintro ⟨hv, heq, -⟩
    exact ⟨hv, heq⟩
  · rintro ⟨hv, heq⟩
    refine ⟨hv, heq, fun j hj hjc => ?_⟩
    have : j = v := hg.getElem_inj_iff.1 (hjc.trans heq.symm)
    omega

/-- A character has an inverse when the table holds it. -/
theorem inverse_isSome_iff {g : Grouped} {c : Byte} : (g.inverse c).isSome = true ↔ c ∈ g.table := by
  simp [Grouped.inverse]

/-- Settles O13: the inverse of a table without repetition, and the default tables as runs of codes. -/
theorem inverseTables : Obligations.InverseTables := by
  refine ⟨fun p c v hp => ?_, fun c => ?_, fun c => ?_⟩
  · obtain ⟨-, h5, h6⟩ := Params.wellFormed_iff.1 hp
    exact ⟨inverse_eq_some_iff (tableWellFormed_nodup h5), inverse_eq_some_iff (tableWellFormed_nodup h6)⟩
  · rw [inverse_isSome_iff, show (grouped5 defaultParams).table = defaultSym5 from rfl, defaultSym5_eq,
      List.mem_append, mem_codeRun 0x41 26 0x5A rfl (by decide), mem_codeRun 0x32 6 0x37 rfl (by decide)]
  · rw [inverse_isSome_iff, show (grouped6 defaultParams).table = defaultSym6 from rfl, defaultSym6_eq,
      List.mem_append, List.mem_append, List.mem_append, List.mem_pair, mem_codeRun 0x41 26 0x5A rfl (by decide),
      mem_codeRun 0x61 26 0x7A rfl (by decide), mem_codeRun 0x30 10 0x39 rfl (by decide)]

/-! ### The base-85 digits (rule R87) -/

theorem digitChar_toNat {d : Nat} (h : d ≤ 84) : (digitChar d).toNat = d + 33 := by
  rw [digitChar, BitVec.toNat_ofNat, Nat.mod_eq_of_lt (by omega)]

theorem charDigit_eq_some_iff {c : Byte} {d : Nat} :
    charDigit c = some d ↔ 33 ≤ c.toNat ∧ c.toNat ≤ 117 ∧ d = c.toNat - 33 := by
  unfold charDigit
  split
  case isTrue h => simp [h, eq_comm]
  case isFalse h =>
    simp only [reduceCtorEq, false_iff]
    omega

theorem charDigit_digitChar {d : Nat} (h : d ≤ 84) : charDigit (digitChar d) = some d := by
  rw [charDigit_eq_some_iff, digitChar_toNat h]
  omega

/-- Settles O14: a digit character is 33 above its digit, inside the range that `charDigit` reads. -/
theorem base85Digits : Obligations.Base85Digits :=
  ⟨fun _ hd => ⟨digitChar_toNat hd, charDigit_digitChar hd⟩, fun _ _ => charDigit_eq_some_iff⟩

end Sys2Proof.Proofs
end

section
/-! PROOFS. A command run to its end (rules R22, R80, R191, R193): the state its start leaves, the turns of the engine
that follow, what they write, and what the report of a success says of the result. -/

namespace Sys2Proof.Proofs

open Sys2Proof.Machine Sys2Proof.Certificates

/-! ### Runs of the whole machine -/

theorem run_succ (k : Nat) {s u : State} (h : step s = .next u) : core.run (k + 1) s = core.run k u := by
  have hcore : core.step s = .next u := h
  simp [Host.Core.run, hcore]

/-- An idle block that nobody addresses stays as it is (rule R168). -/
theorem run_idle (k : Nat) {s : State} (hb : s.busy = false) (hi : s.inputs = []) : core.run k s = .next s := by
  induction k with
  | zero => rfl
  | succ k ih => rw [run_succ k ((step_idle_queue hi).trans (engineTurn_idle hb)), ih]

/-- Operation `i` is running and the host offers nothing more. -/
structure Running (i : Instr) (s : State) : Prop where
  busy : s.busy = true
  cmd : s.cmd = encode i
  alone : s.inputs = []

theorem Running.step_eq {i : Instr} {s : State} (h : Running i s) : step s = exec i s := by
  rw [step_idle_queue h.alone, engineTurn_busy h.busy (h.cmd ▸ decode_encode i)]

theorem Running.of_continues {i : Instr} {s t : State} (h : Running i s) (hst : Continues s t) : Running i t where
  busy := by rw [State.busy, hst.2.status]; exact h.busy
  cmd := hst.1.cmd.trans h.cmd
  alone := hst.1.inputs.trans h.alone

/-- An operation whose every turn ends it or brings its end nearer ends, and what its last turn leaves stays
(rules R22, R191). -/
theorem run_of_turns {i : Instr} {Going Ended : State → Prop} {left : State → Nat}
    (running : ∀ s, Going s → Running i s) (ended : ∀ s, Ended s → s.busy = false ∧ s.inputs = [])
    (turn : ∀ s, Going s → ∃ t, exec i s = .next t ∧ (Ended t ∨ Going t ∧ left t < left s)) {k : Nat} {s : State}
    (hs : Going s) (hk : left s < k) : ∃ t, core.run k s = .next t ∧ Ended t := by
  induction k generalizing s with
  | zero => omega
  | succ k ih =>
    obtain ⟨u, hu, h⟩ := turn s hs
    rw [run_succ k ((running s hs).step_eq.trans hu)]
    rcases h with hend | ⟨hgo, hlt⟩
    · obtain ⟨hb, hi⟩ := ended u hend
      exact ⟨u, run_idle k hb hi, hend⟩
    · exact ih hgo (by omega)

/-! ### The start -/

/-- The state right after operation `i` has started from `s`, its command write answered (rule R80). -/
def started (i : Instr) (s : State) : State :=
  ((s.setInputs []).clearDatapath.latchCommand (encode i) statusBusy).pushAnswer .ok

@[simp] theorem started_ip (i : Instr) (s : State) : (started i s).ip = 0 := rfl
@[simp] theorem started_nb (i : Instr) (s : State) : (started i s).nb = 0 := rfl
@[simp] theorem started_acc (i : Instr) (s : State) : (started i s).acc = 0 := rfl

/-- Operation `i` has just started in `s`, on a message that fits IBUF: nothing is written and nothing is reported yet
(rules R7, R80). -/
structure Begun (i : Instr) (s : State) : Prop extends Running i s where
  op : s.op = 0
  epos : s.epos = 0
  sized : Params.sized s.par
  fits : s.ilen.toNat ≤ s.par.inMax

theorem started_begun (i : Instr) {s : State} (hwf : s.par.wellFormed = true) (hfits : s.ilen.toNat ≤ s.par.inMax) :
    Begun i (started i s) :=
  ⟨⟨statusBusy_bit0, rfl, rfl⟩, rfl, rfl, (Params.wellFormed_iff.1 hwf).1, hfits⟩

/-- A run is the command write, which starts the operation, and `ILEN + 1` turns of the engine (rules R80, R193). -/
theorem runCommand_eq (i : Instr) {s : State} (hb : s.busy = false) (hfits : s.ilen.toNat ≤ s.par.inMax) :
    runCommand i s = core.run (s.ilen.toNat + 1) (started i s) := by
  have htrigger : commandTrigger (encode i) (s.setInputs []) =
      (s.setInputs []).clearDatapath.latchCommand (encode i) statusBusy :=
    commandTrigger_start (illegalCommand_encode i) (Nat.not_lt.2 hfits)
  have hstart : step (commanding i s) = .next (started i s) := by
    rw [started, ← htrigger]
    exact step_wrReg_cmd (s := commanding i s) hb rfl
  exact run_succ _ hstart

/-! ### The message -/

theorem message_length (s : State) : s.message.length = s.ilen.toNat := by simp [State.message]

theorem message_getD {s : State} {k : Nat} (h : k < s.ilen.toNat) : s.message.getD k 0 = s.ibufByte k := by
  simp [State.message, h]

theorem ibufByte_of_hostSideSame {s t : State} (h : HostSideSame s t) (k : Nat) : t.ibufByte k = s.ibufByte k := by
  rw [State.ibufByte, h.ibuf, h.resets, State.ibufByte]

/-! ### What the engine writes -/

/-- `emit` moves no hidden register but `OP`. -/
theorem emitAll_datapath {bs : List Byte} {s t : State} (h : emitAll bs s = .next t) :
    t.acc = s.acc ∧ t.nb = s.nb ∧ t.ip = s.ip := by
  rw [emitAll_frame h]
  exact ⟨rfl, rfl, rfl⟩

/-- What was written is told by OBUF and `OP` alone. -/
theorem emitted_of_same {bs : List Byte} {s s' t : State} (h : Emitted bs s' t) (hop : s'.op = s.op)
    (hobuf : ∀ a, s'.obufByte a = s.obufByte a) : Emitted bs s t := by
  obtain ⟨op, written, others⟩ := h
  rw [hop] at op written others
  exact ⟨op, written, fun a ha => (others a ha).trans (hobuf a)⟩

/-! ### The report of a success -/

/-- When all that was written since the start is reported, it is the result (rules R12, R155). -/
theorem result_of_emitted {i : Instr} {bs : List Byte} {s t : State} (hs : Begun i s) (h : Emitted bs s t)
    (holen : t.olen = t.op) : t.olen.toNat = bs.length ∧ t.result = bs := by
  have h0 : s.op.toNat = 0 := by simp [hs.op]
  have hlen : t.olen.toNat = bs.length := by rw [holen, h.op, h0, Nat.zero_add]
  refine ⟨hlen, List.ext_getElem (by simp [State.result, hlen]) fun j _ hj => ?_⟩
  have hw := h.written j hj
  rw [h0, Nat.zero_add] at hw
  simp [State.result, hw, hj]

/-- A run that finishes shows the bytes it wrote since its start (rules R155, R193). -/
theorem shows_of_finishes {i : Instr} {bs : List Byte} {s t : State} (hs : Begun i s) (hf : Finishes s t)
    (h : Emitted bs s t) : t.shows (.ok bs) := by
  obtain ⟨-, hstatus, holen, hepos⟩ := hf
  exact ⟨hstatus, hepos.trans hs.epos, result_of_emitted hs h holen⟩

/-- `finish()` after any work reports it as finished (rule R155). -/
theorem finishes_of_worked {s u : State} (h : Worked s u) : Finishes s u.finished := by
  obtain ⟨cmd, ilen, ibuf, par, inputs, answers, resets⟩ := h.host
  exact ⟨⟨cmd, ilen, ibuf, par, inputs, answers, resets⟩, rfl, rfl, h.report.epos⟩

/-- `finish()` writes nothing to OBUF. -/
theorem emitted_finished {bs : List Byte} {s u : State} (h : Emitted bs s u) : Emitted bs s u.finished := by
  obtain ⟨op, written, others⟩ := h
  exact ⟨op, written, others⟩

theorem idle_of_finishes {s t : State} (h : Finishes s t) : t.busy = false := by
  rw [State.busy, h.2.1]; rfl

end Sys2Proof.Proofs
end

section
/-! PROOFS. Values read off a bit stream (rules R111, R121): how a window is cut, what a byte's eight bits say, and the
encoders' loop on a stretch of the stream. -/

namespace Sys2Proof.Proofs

open Sys2Proof.Machine Sys2Proof.Certificates

/-! ### Windows -/

section
variable (bit : Nat → Bool) (start : Nat)

@[simp] theorem bitsValue_zero : bitsValue bit start 0 = 0 := rfl

theorem bitsValue_succ (n : Nat) :
    bitsValue bit start (n + 1) = 2 * bitsValue bit start n + (bit (start + n)).toNat := by
  simp [bitsValue, List.range_succ]

/-- A stretch of the stream is its first part, moved up, and its second. -/
theorem bitsValue_add (m n : Nat) :
    bitsValue bit start (m + n) = bitsValue bit start m * 2 ^ n + bitsValue bit (start + m) n := by
  induction n with
  | zero => simp
  | succ n ih => rw [← Nat.add_assoc, bitsValue_succ, bitsValue_succ, ih, ← Nat.add_assoc, pow_succ]; ring

theorem bitsValue_lt (n : Nat) : bitsValue bit start n < 2 ^ n := by
  induction n with
  | zero => simp
  | succ n ih =>
    have := Bool.toNat_le (bit (start + n))
    rw [bitsValue_succ, pow_succ]
    omega

theorem bitsValue_mod (m n : Nat) : bitsValue bit start (m + n) % 2 ^ n = bitsValue bit (start + m) n := by
  rw [bitsValue_add, Nat.mul_add_mod', Nat.mod_eq_of_lt (bitsValue_lt bit _ n)]

theorem bitsValue_div (m n : Nat) : bitsValue bit start (m + n) / 2 ^ n = bitsValue bit start m := by
  rw [bitsValue_add, Nat.add_div_of_dvd_right (Nat.dvd_mul_left _ _), Nat.mul_div_cancel _ (Nat.two_pow_pos n),
    Nat.div_eq_of_lt (bitsValue_lt bit _ n), Nat.add_zero]

/-- The `c` bits that stand behind the first `a` of a stretch, cut out of its value. -/
theorem bitsValue_window {a c n : Nat} (h : a + c ≤ n) :
    bitsValue bit start n / 2 ^ (n - (a + c)) % 2 ^ c = bitsValue bit (start + a) c := by
  obtain ⟨r, rfl⟩ := Nat.exists_eq_add_of_le h
  rw [Nat.add_sub_cancel_left, bitsValue_div, bitsValue_mod]

/-- The encoders' loop on a stretch of the stream gives out the windows it holds (rule R111). -/
theorem drainSymbols_bitsValue {w : Nat} (hw : 0 < w) (n : Nat) :
    drainSymbols w n (bitsValue bit start n) n =
      (List.range (n / w)).map fun k => bitsValue bit (start + w * k) w := by
  rw [drainSymbols_eq w n _ n hw le_rfl]
  refine List.map_congr_left fun k hk => ?_
  have hfits : w * k + w ≤ n :=
    (Nat.mul_le_mul_left w (List.mem_range.1 hk)).trans (Nat.mul_div_le n w)
  rw [Nat.mul_succ, bitsValue_window bit start hfits]

/-- What the loop leaves is the end of the stretch. -/
theorem bitsValue_mod_width (w n : Nat) :
    bitsValue bit start n % 2 ^ (n % w) = bitsValue bit (start + w * (n / w)) (n % w) := by
  conv_lhs => rw [← Nat.div_add_mod n w]
  rw [Nat.mul_add_mod, Nat.mod_mod, bitsValue_mod]

end

/-! ### Bits of a number -/

/-- The `w` bits of a number, most significant first, have its value. -/
theorem bitsValue_testBit {bit : Nat → Bool} {start w x : Nat} (hx : x < 2 ^ w)
    (h : ∀ j < w, bit (start + j) = x.testBit (w - 1 - j)) : bitsValue bit start w = x := by
  have hleading : ∀ n ≤ w, bitsValue bit start n = x / 2 ^ (w - n) := by
    intro n
    induction n with
    | zero => intro _; simp [Nat.div_eq_of_lt hx]
    | succ n ih =>
      intro hn
      rw [bitsValue_succ, ih (by omega), h n (by omega), Nat.toNat_testBit, show w - n = w - 1 - n + 1 by omega,
        show w - (n + 1) = w - 1 - n by omega, pow_succ, ← Nat.div_div_eq_div_mul]
      omega
  simpa using hleading w le_rfl

theorem bitsValue_eq_zero {bit : Nat → Bool} {start n : Nat} (h : ∀ j < n, bit (start + j) = false) :
    bitsValue bit start n = 0 :=
  bitsValue_testBit (Nat.two_pow_pos n) fun j hj => by rw [h j hj, Nat.zero_testBit]

/-! ### The stream of a message (rule R111) -/

/-- The eight bits of byte `i` are its value. -/
theorem bitsValue_streamBit_byte (m : List Byte) (i : Nat) :
    bitsValue (streamBit m) (8 * i) 8 = (m.getD i 0).toNat := by
  refine bitsValue_testBit (m.getD i 0).isLt fun j hj => ?_
  rw [streamBit, show (8 * i + j) / 8 = i by omega, show (8 * i + j) % 8 = j by omega, BitVec.getLsbD]

/-- Beyond the last byte there are zero bits. -/
theorem streamBit_beyond {m : List Byte} {t : Nat} (h : 8 * m.length ≤ t) : streamBit m t = false := by
  rw [streamBit, List.getD_eq_default _ _ (by omega)]
  simp

/-- A window that ends `r` bits beyond the message is its bits moved up by `r` (rule R111). -/
theorem bitsValue_streamBit_tail {m : List Byte} {start n : Nat} (r : Nat) (h : start + n = 8 * m.length) :
    bitsValue (streamBit m) start (n + r) = bitsValue (streamBit m) start n * 2 ^ r := by
  have hzero : bitsValue (streamBit m) (start + n) r = 0 :=
    bitsValue_eq_zero fun j _ => streamBit_beyond (by omega)
  rw [bitsValue_add, hzero, Nat.add_zero]

end Sys2Proof.Proofs
end

section
/-! PROOFS. The bit-grouped encoders (spec/40_bitgrouped_encode.md): what one `step` and the `end` do (rules R112, R113),
how far a run has come in the stateless rule's own terms (rule R111), and the whole run. -/

namespace Sys2Proof.Proofs

open Sys2Proof.Machine Sys2Proof.Certificates

/-! ### The two families (rule R110) -/

/-- What the encoders need of a family: a window holds 5 to 8 bits, and a container's padding is short and empty when
nothing precedes it (rules R90, R110). -/
structure EncoderFamily (g : Grouped) : Prop where
  width_ge : 5 ≤ g.width
  width_le : g.width ≤ 8
  pad_le : ∀ symbols, g.padCount symbols ≤ 6
  pad_zero : g.padCount 0 = 0

theorem EncoderFamily.width_pos {g : Grouped} (h : EncoderFamily g) : 0 < g.width := by
  have := h.width_ge
  omega

theorem grouped5_family (p : Params) : EncoderFamily (grouped5 p) := by
  have hpad : ∀ r < 8, pad5.getD r 0 ≤ 6 := by decide
  exact ⟨by simp [grouped5], by simp [grouped5], fun symbols => hpad _ (Nat.mod_lt symbols (Nat.zero_lt_succ 7)), rfl⟩

theorem grouped6_family (p : Params) : EncoderFamily (grouped6 p) := by
  have hpad : ∀ r < 4, pad6.getD r 0 ≤ 6 := by decide
  exact ⟨by simp [grouped6], by simp [grouped6], fun symbols => hpad _ (Nat.mod_lt symbols (Nat.zero_lt_succ 3)), rfl⟩

/-! ### The stateless rule in pieces (rule R111) -/

/-- The first `count` symbols of the container of `m`, without padding (rule R111). -/
def encodeSymbols (g : Grouped) (m : List Byte) (count : Nat) : List Byte :=
  (List.range count).map fun k => g.forward (bitsValue (streamBit m) (k * g.width) g.width)

theorem encodeGrouped_eq (g : Grouped) (m : List Byte) :
    encodeGrouped g m = encodeSymbols g m (symbolCount g.width m.length) ++
      List.replicate (g.padCount (symbolCount g.width m.length)) padChar := rfl

@[simp] theorem encodeSymbols_zero (g : Grouped) (m : List Byte) : encodeSymbols g m 0 = [] := rfl

@[simp] theorem encodeSymbols_length (g : Grouped) (m : List Byte) (count : Nat) :
    (encodeSymbols g m count).length = count := by simp [encodeSymbols]

theorem encodeSymbols_add (g : Grouped) (m : List Byte) (a b : Nat) :
    encodeSymbols g m (a + b) = encodeSymbols g m a ++
      (List.range b).map fun k => g.forward (bitsValue (streamBit m) (g.width * a + g.width * k) g.width) := by
  rw [encodeSymbols, List.range_add, List.map_append, List.map_map, encodeSymbols]
  refine congrArg _ (List.map_congr_left fun k _ => ?_)
  rw [Function.comp, Nat.add_mul, Nat.mul_comm a, Nat.mul_comm k]

/-- A window begun by the last bits of the message is one more symbol (rules R89, R111). -/
theorem symbolCount_eq {w : Nat} (hw : 0 < w) (n : Nat) :
    symbolCount w n = 8 * n / w + if 8 * n % w = 0 then 0 else 1 := by
  have hrest : 8 * n % w < w := Nat.mod_lt _ hw
  rw [symbolCount]
  conv_lhs => rw [← Nat.div_add_mod (8 * n) w]
  rw [Nat.add_assoc, Nat.mul_add_div hw]
  refine congrArg _ ?_
  split
  case isTrue h => exact Nat.div_eq_of_lt (by omega)
  case isFalse h => exact Nat.div_eq_of_lt_le (by omega) (by omega)

/-! ### The actions (rules R112, R113) -/

section
variable {g : Grouped} {s : State}

/-- `OP` counts the whole windows of the bits taken in. -/
theorem op_of_encodeInv (hw : 0 < g.width) (inv : EncodeInv g.width s) :
    s.op.toNat = 8 * s.ip.toNat / g.width := by
  rw [← inv.progress, Nat.mul_add_div hw, Nat.div_eq_of_lt inv.nb, Nat.add_zero]

/-- A window has at least five bits, so the cursor stays below 8/5 of the bytes taken in (rule R53). -/
theorem op_le_of_encodeInv (hg : EncoderFamily g) (inv : EncodeInv g.width s) :
    s.op.toNat ≤ 8 * s.ip.toNat / 5 := by
  rw [op_of_encodeInv hg.width_pos inv]
  exact Nat.div_le_div_left hg.width_ge (by decide)

/-- The windows that a byte completes fit OBUF (rule R53). -/
theorem encodeStep_room (hg : EncoderFamily g) (hin : s.ip.toNat < s.par.inMax) (inv : EncodeInv g.width s) :
    s.op.toNat + (s.nb.toNat + 8) / g.width ≤ s.par.outMax := by
  have hcount : s.op.toNat + (s.nb.toNat + 8) / g.width = 8 * (s.ip.toNat + 1) / g.width := by
    rw [← Nat.mul_add_div hg.width_pos, ← Nat.add_assoc, inv.progress, Nat.mul_succ]
  have hle : 8 * (s.ip.toNat + 1) / g.width ≤ 8 * (s.ip.toNat + 1) / 5 := Nat.div_le_div_left hg.width_ge (by decide)
  rw [hcount, Params.outMax]
  omega

/-- A `step` of an encoder, with the bits held and the byte read as one number (rules R112, R113). -/
theorem encodeStep_spec (hg : EncoderFamily g) (hp : Params.sized s.par) (hin : s.ip.toNat < s.par.inMax)
    (inv : EncodeInv g.width s) {x n : Nat} (hx : x = s.acc.toNat * 2 ^ 8 + (s.ibufByte s.ip.toNat).toNat)
    (hn : n = s.nb.toNat + 8) :
    ∃ t, encodeStep g s = .next t ∧ Continues s t ∧ Emitted ((drainSymbols g.width n x n).map g.forward) s t ∧
      t.nb.toNat = n % g.width ∧ t.acc.toNat = x % 2 ^ (n % g.width) ∧ t.ip.toNat = s.ip.toNat + 1 := by
  have hw := hg.width_pos
  have hmax := Params.sized_outMax hp
  have hxn : x < 2 ^ n := by
    have := (s.ibufByte s.ip.toNat).isLt
    have := inv.acc
    rw [hx, hn, pow_add]
    omega
  have hroom : s.op.toNat + ((drainSymbols g.width n x n).map g.forward).length ≤ s.par.outMax := by
    rw [drainSymbols_eq _ _ _ _ hw le_rfl, List.length_map, List.length_map, List.length_range, hn]
    exact encodeStep_room hg hin inv
  obtain ⟨t, ht⟩ := emitAll_goesOn
    (s := (s.setAcc (drainAcc g.width n x n) (drainCount g.width n n)).advance 1) hmax hroom
  obtain ⟨hacc, hnb, hip⟩ := emitAll_datapath ht
  have hleft : n % g.width < 8 := (Nat.mod_lt n hw).trans_le hg.width_le
  have hworked := Worked.taken ht
  refine ⟨t, ?_, ⟨hworked.host, hworked.report⟩, emitted_of_same (emitAll_emitted ht hmax) rfl fun _ => rfl, ?_, ?_, ?_⟩
  · rw [encodeStep, fetchInput_eq _ hin, shiftIn_byte, ← hx, ← hn]
    exact ht
  · rw [hnb, State.advance_nb, State.setAcc_nb, BitVec.toNat_ofNat, drainCount_eq _ _ _ hw le_rfl,
      Nat.mod_eq_of_lt (by omega)]
  · have hlt : x % 2 ^ (n % g.width) < 2 ^ 33 :=
      (Nat.mod_lt _ (Nat.two_pow_pos _)).trans_le (Nat.pow_le_pow_right (by decide) (by omega))
    rw [hacc, State.advance_acc, State.setAcc_acc, BitVec.toNat_ofNat, drainAcc_eq _ _ _ _ hw le_rfl hxn,
      Nat.mod_eq_of_lt hlt]
  · have := hp.2
    rw [hip, State.advance_ip, State.setAcc_ip, BitVec.toNat_add, BitVec.toNat_ofNat]
    omega

theorem lastSymbol_length_le (w : Nat) : (lastSymbol w g s).length ≤ 1 := by
  unfold lastSymbol
  split <;> simp

/-- The short last window goes out when bits are left, and nothing otherwise (rules R112, R113). -/
theorem encodeTail_spec (inv : EncodeInv g.width s) (hmax : s.par.outMax < 2 ^ 32)
    (hroom : s.op.toNat + (lastSymbol g.width g s).length ≤ s.par.outMax) :
    ∃ t, encodeTail g s = .next t ∧ Worked s t ∧ t.ip = s.ip ∧ Emitted (lastSymbol g.width g s) s t := by
  unfold lastSymbol at hroom ⊢
  split
  case isTrue h =>
    exact ⟨s, by simp [encodeTail, h], .refl s, rfl, .nil rfl fun _ => rfl⟩
  case isFalse h =>
    have hpos : 0 < s.nb.toNat := Nat.pos_of_ne_zero fun h0 => h (BitVec.eq_of_toNat_eq h0)
    rw [if_neg h] at hroom
    obtain ⟨t, ht⟩ := emitAll_goesOn (s := s.setAcc 0 0) hmax hroom
    refine ⟨t, ?_, (Worked.setAcc 0 0 s).trans (.ofEmitAll ht), (emitAll_datapath ht).2.2,
      emitted_of_same (emitAll_emitted ht hmax) rfl fun _ => rfl⟩
    rw [encodeTail, if_pos hpos, lastWindow_eq _ _ _ inv.acc inv.nb.le]
    exact ht

/-- The last window and the padding fit OBUF (rule R53). -/
theorem encodeEnd_room (hg : EncoderFamily g) (hin : s.ip.toNat ≤ s.par.inMax) (inv : EncodeInv g.width s) :
    s.op.toNat + (lastSymbol g.width g s).length + g.padCount (s.op.toNat + (lastSymbol g.width g s).length) ≤
      s.par.outMax := by
  have hop := op_le_of_encodeInv hg inv
  rcases Nat.eq_zero_or_pos s.ip.toNat with h0 | hpos
  · have hop0 : s.op.toNat = 0 := by omega
    have hnb : s.nb = 0 := BitVec.eq_of_toNat_eq (by have := inv.progress; simp; omega)
    simp [hop0, lastSymbol, hnb, hg.pad_zero]
  · have hpad := hg.pad_le (s.op.toNat + (lastSymbol g.width g s).length)
    have htail := lastSymbol_length_le (g := g) (s := s) g.width
    rw [Params.outMax]
    omega

/-- The `end` of an encoder: the short last window, the padding for the symbols written, `finish()`
(rules R112, R113). -/
theorem encodeEnd_spec (hg : EncoderFamily g) (hp : Params.sized s.par) (hin : s.ip.toNat ≤ s.par.inMax)
    (inv : EncodeInv g.width s) :
    ∃ t, encodeEnd g s = .next t ∧ Finishes s t ∧ t.ip = s.ip ∧
      Emitted (lastSymbol g.width g s ++
        List.replicate (g.padCount (s.op.toNat + (lastSymbol g.width g s).length)) padChar) s t := by
  have hmax := Params.sized_outMax hp
  have hroom := encodeEnd_room hg hin inv
  obtain ⟨u, hu, hworked, hip, htail⟩ := encodeTail_spec inv hmax ((Nat.le_add_right _ _).trans hroom)
  have hpar : u.par = s.par := hworked.host.par
  obtain ⟨v, hv⟩ := emitAll_goesOn (s := u) (bs := List.replicate (g.padCount u.op.toNat) padChar)
    (by rw [hpar]; exact hmax) (by rw [hpar, htail.op, List.length_replicate]; exact hroom)
  have hpadded := emitAll_emitted hv (by rw [hpar]; exact hmax)
  refine ⟨v.finished, ?_, finishes_of_worked (hworked.trans (.ofEmitAll hv)), (emitAll_datapath hv).2.2.trans hip, ?_⟩
  · rw [encodeEnd, hu, andThen_next, hv, andThen_next, finish_eq]
  · rw [← htail.op]
    exact emitted_finished (htail.trans hpadded)

end

/-! ### A run in the terms of rule R111 -/

/-- How far the run of an encoder that began in `s₀` has come in `s`: the whole windows of the bits taken in are written,
and `ACC` holds the bits that remain (the induction of rule R111). -/
structure EncodeProgress (g : Grouped) (s₀ s : State) : Prop where
  goes : Continues s₀ s
  cursor : s.ip.toNat ≤ s₀.ilen.toNat
  nb : s.nb.toNat = 8 * s.ip.toNat % g.width
  acc : s.acc.toNat =
    bitsValue (streamBit s₀.message) (g.width * (8 * s.ip.toNat / g.width)) (8 * s.ip.toNat % g.width)
  written : Emitted (encodeSymbols g s₀.message (8 * s.ip.toNat / g.width)) s₀ s

/-- The run of an encoder that began in `s₀` has ended in `t` with the container of rule R111. -/
structure EncodeDone (g : Grouped) (s₀ t : State) : Prop where
  report : Finishes s₀ t
  written : Emitted (encodeGrouped g s₀.message) s₀ t

section
variable {i : Instr} {g : Grouped} {s₀ s : State}

theorem EncodeProgress.op (hs : Begun i s₀) (h : EncodeProgress g s₀ s) :
    s.op.toNat = 8 * s.ip.toNat / g.width := by
  simpa [hs.op] using h.written.op

theorem EncodeProgress.inv (hw : 0 < g.width) (hs : Begun i s₀) (h : EncodeProgress g s₀ s) : EncodeInv g.width s where
  acc := by rw [h.acc, h.nb]; exact bitsValue_lt _ _ _
  nb := by rw [h.nb]; exact Nat.mod_lt _ hw
  progress := by rw [h.op hs, h.nb]; exact Nat.div_add_mod _ _

/-- The bits held and the next byte are one stretch of the message's stream. -/
theorem EncodeProgress.joined (h : EncodeProgress g s₀ s) (hip : s.ip.toNat < s₀.ilen.toNat) :
    s.acc.toNat * 2 ^ 8 + (s.ibufByte s.ip.toNat).toNat =
      bitsValue (streamBit s₀.message) (g.width * (8 * s.ip.toNat / g.width)) (8 * s.ip.toNat % g.width + 8) := by
  rw [bitsValue_add, Nat.div_add_mod, bitsValue_streamBit_byte, message_getD hip, h.acc,
    ibufByte_of_hostSideSame h.goes.1]

/-- A `step` takes the run one byte on. -/
theorem EncodeProgress.step (hg : EncoderFamily g) (hs : Begun i s₀) (h : EncodeProgress g s₀ s)
    (hip : s.ip.toNat < s₀.ilen.toNat) :
    ∃ t, encodeStep g s = .next t ∧ EncodeProgress g s₀ t ∧ t.ip.toNat = s.ip.toNat + 1 := by
  have hw := hg.width_pos
  have hpar := h.goes.1.par
  obtain ⟨t, ht, hgoes, hem, hnb, hacc, hipt⟩ := encodeStep_spec hg (hpar ▸ hs.sized) (hpar ▸ hip.trans_le hs.fits)
    (h.inv hw hs) (h.joined hip).symm (congrArg (· + 8) h.nb).symm
  have hbits : 8 * t.ip.toNat = g.width * (8 * s.ip.toNat / g.width) + (8 * s.ip.toNat % g.width + 8) := by
    rw [← Nat.add_assoc, Nat.div_add_mod, hipt, Nat.mul_succ]
  have hdiv : 8 * t.ip.toNat / g.width = 8 * s.ip.toNat / g.width + (8 * s.ip.toNat % g.width + 8) / g.width := by
    rw [hbits, Nat.mul_add_div hw]
  have hmod : 8 * t.ip.toNat % g.width = (8 * s.ip.toNat % g.width + 8) % g.width := by
    rw [hbits, Nat.mul_add_mod]
  refine ⟨t, ht, ⟨⟨h.goes.1.trans hgoes.1, h.goes.2.trans hgoes.2⟩, by omega, hnb.trans hmod.symm, ?_, ?_⟩, hipt⟩
  · rw [hacc, bitsValue_mod_width, hdiv, hmod, Nat.mul_add]
  · rw [drainSymbols_bitsValue _ _ hw, List.map_map] at hem
    rw [hdiv, encodeSymbols_add]
    exact h.written.trans hem

/-- When the message is used up, the short last window completes the symbols of rule R111. -/
theorem EncodeProgress.symbols_complete (hw : 0 < g.width) (h : EncodeProgress g s₀ s)
    (hip : s.ip.toNat = s₀.ilen.toNat) :
    encodeSymbols g s₀.message (8 * s.ip.toNat / g.width) ++ lastSymbol g.width g s =
      encodeSymbols g s₀.message (symbolCount g.width s₀.message.length) := by
  have hzero : s.nb = 0 ↔ 8 * s.ip.toNat % g.width = 0 := by
    rw [← h.nb]
    exact ⟨fun h0 => by simp [h0], fun h0 => BitVec.eq_of_toNat_eq h0⟩
  rw [message_length, ← hip, symbolCount_eq hw, encodeSymbols_add, lastSymbol]
  refine congrArg _ ?_
  split
  case isTrue h0 => simp [hzero.1 h0]
  case isFalse h0 =>
    have hrest : 8 * s.ip.toNat % g.width < g.width := Nat.mod_lt _ hw
    have htail := bitsValue_streamBit_tail (m := s₀.message) (start := g.width * (8 * s.ip.toNat / g.width))
      (n := 8 * s.ip.toNat % g.width) (g.width - 8 * s.ip.toNat % g.width)
      (by rw [Nat.div_add_mod, message_length, hip])
    rw [Nat.add_sub_cancel' hrest.le] at htail
    simp [mt hzero.2 h0, htail, h.acc, h.nb]

/-- The `end` completes the container. -/
theorem EncodeProgress.finishes (hg : EncoderFamily g) (hs : Begun i s₀) (h : EncodeProgress g s₀ s)
    (hip : s.ip.toNat = s₀.ilen.toNat) : ∃ t, encodeEnd g s = .next t ∧ EncodeDone g s₀ t := by
  have hpar := h.goes.1.par
  obtain ⟨t, ht, ⟨hhost, hstatus, holen, hepos⟩, -, hem⟩ := encodeEnd_spec hg (hpar ▸ hs.sized)
    (hpar ▸ hip.trans_le hs.fits) (h.inv hg.width_pos hs)
  have hcount : s.op.toNat + (lastSymbol g.width g s).length = symbolCount g.width s₀.message.length := by
    have hlength := congrArg List.length (h.symbols_complete hg.width_pos hip)
    simpa [h.op hs] using hlength
  refine ⟨t, ht, ⟨h.goes.1.trans hhost, hstatus, holen, hepos.trans h.goes.2.epos⟩, ?_⟩
  rw [hcount] at hem
  rw [encodeGrouped_eq, ← h.symbols_complete hg.width_pos hip, List.append_assoc]
  exact h.written.trans hem

end

/-! ### The whole run -/

/-- Operation `i` is the encoder of the family `g`, by its actions and by its rule (rules R111, R112, R113). -/
structure EncoderOf (i : Instr) (g : Params → Grouped) : Prop where
  family : ∀ p, EncoderFamily (g p)
  step : ∀ s, (actionsOf i).1 s = encodeStep (g s.par) s
  last : ∀ s, (actionsOf i).2 s = encodeEnd (g s.par) s
  outcome : ∀ p m, outcomeOf p m i = .ok (encodeGrouped (g p) m)

theorem enc5_encoder : EncoderOf .enc5 grouped5 := ⟨grouped5_family, fun _ => rfl, fun _ => rfl, fun _ _ => rfl⟩
theorem enc6_encoder : EncoderOf .enc6 grouped6 := ⟨grouped6_family, fun _ => rfl, fun _ => rfl, fun _ _ => rfl⟩

/-- At its start a run has taken in and written nothing. -/
theorem started_encodeProgress (g : Grouped) (i : Instr) (s : State) : EncodeProgress g (started i s) (started i s) where
  goes := ⟨⟨rfl, rfl, rfl, rfl, rfl, rfl, rfl⟩, ⟨rfl, rfl, rfl⟩⟩
  cursor := by simp
  nb := by simp
  acc := by simp
  written := by simpa using Emitted.nil rfl fun _ => rfl

/-- One turn of an encoder takes in a byte or completes the container (rules R22, R112, R113). -/
theorem EncoderOf.turn {i : Instr} {g : Params → Grouped} (hi : EncoderOf i g) {s₀ s : State} (hs : Begun i s₀)
    (h : EncodeProgress (g s₀.par) s₀ s) :
    ∃ t, exec i s = .next t ∧ (EncodeDone (g s₀.par) s₀ t ∨
      EncodeProgress (g s₀.par) s₀ t ∧ s₀.ilen.toNat - t.ip.toNat < s₀.ilen.toNat - s.ip.toNat) := by
  have hbusy := (hs.toRunning.of_continues h.goes).busy
  have hilen := h.goes.1.ilen
  rcases h.cursor.lt_or_eq with hlt | heq
  · obtain ⟨t, ht, hprogress, hip⟩ := h.step (hi.family _) hs hlt
    exact ⟨t, by rw [exec_step i hbusy (hilen ▸ hlt), hi.step, h.goes.1.par, ht], .inr ⟨hprogress, by omega⟩⟩
  · obtain ⟨t, ht, hdone⟩ := h.finishes (hi.family _) hs heq
    exact ⟨t, by rw [exec_end i hbusy (hilen ▸ heq), hi.last, h.goes.1.par, ht], .inl hdone⟩

/-- The run of an encoder from any idle state gives the container of rule R111. -/
theorem EncoderOf.runGives {i : Instr} {g : Params → Grouped} (hi : EncoderOf i g) : RunGives i := by
  intro s hwf hb hfits
  have hs := started_begun i hwf hfits
  obtain ⟨t, ht, hdone⟩ := run_of_turns (Going := EncodeProgress (g s.par) (started i s))
    (Ended := EncodeDone (g s.par) (started i s)) (left := fun u => s.ilen.toNat - u.ip.toNat)
    (fun _ h => hs.toRunning.of_continues h.goes) (fun _ h => ⟨idle_of_finishes h.report, h.report.1.inputs⟩)
    (fun _ h => hi.turn hs h) (started_encodeProgress _ i s) (Nat.lt_succ_of_le (Nat.sub_le s.ilen.toNat _))
  have hhost := hdone.report.1
  refine ⟨t, (runCommand_eq i hb hfits).trans ht, ?_, hhost.cmd, hhost.ilen, hhost.ibuf, hhost.par⟩
  rw [hi.outcome]
  exact shows_of_finishes hs hdone.report hdone.written

/-- Settles O26: ENC5 and ENC6 are encoders of their families, and the progress of an encoder's run is the induction on
`IP` of rule R111. -/
theorem groupedEncodersComputeTheirRule : Obligations.GroupedEncodersComputeTheirRule :=
  ⟨enc5_encoder.runGives, enc6_encoder.runGives⟩

end Sys2Proof.Proofs
end

section
/-! PROOFS. The stateless rule of the bit-grouped decoders (spec/41_bitgrouped_decode.md): what the scan takes in (rules
R121, R124, R125), and the stream of the values, symbol by symbol (rule R121). -/

namespace Sys2Proof.Proofs

open Sys2Proof.Machine Sys2Proof.Certificates

/-! ### The scan (rules R121, R124, R125) -/

/-- A character that the scan takes in: not `=`, and in the alphabet. -/
def Accepted (g : Grouped) (c : Byte) : Prop := c ≠ padChar ∧ (g.inverse c).isSome = true

/-- The values of a text's characters (rule R121). -/
def symbolValues (g : Grouped) (text : List Byte) : List Nat := text.map fun c => (g.inverse c).getD 0

@[simp] theorem symbolValues_length (g : Grouped) (text : List Byte) :
    (symbolValues g text).length = text.length := by simp [symbolValues]

theorem scanned_append {g : Grouped} {a b : List Byte} (h : ∀ c ∈ a, Accepted g c) :
    scanned (a ++ b) = a ++ scanned b :=
  List.takeWhile_append_of_pos fun c hc => by simpa using (h c hc).1

/-- The scan stops at the first `=`. -/
theorem scanned_append_pad (a b : List Byte) : scanned (a ++ padChar :: b) = scanned a := by
  induction a with
  | nil => rfl
  | cons c rest ih =>
    rw [List.cons_append, scanned, List.takeWhile_cons, scanned, List.takeWhile_cons]
    exact congrArg (fun l => if c != padChar then c :: l else []) ih

/-- Nothing behind a `=` has a part in the outcome (rule R125). -/
theorem decodeGrouped_append_pad (g : Grouped) (a b : List Byte) :
    decodeGrouped g (a ++ padChar :: b) = decodeGrouped g a := by
  rw [decodeGrouped, scanned_append_pad, decodeGrouped]

/-- A text of the alphabet gives the bytes of its values (rule R121). -/
theorem decodeGrouped_accepted {g : Grouped} {a : List Byte} (h : ∀ c ∈ a, Accepted g c) :
    decodeGrouped g a = .ok (regroup g.width (symbolValues g a)) := by
  have hscan : scanned a = a := by simpa [scanned] using scanned_append (b := []) h
  have hnone : a.findIdx? (fun c => (g.inverse c).isNone) = none :=
    List.findIdx?_eq_none_iff.2 fun c hc => by simpa [Option.isSome_iff_ne_none] using (h c hc).2
  simp only [decodeGrouped, hscan, hnone, symbolValues]

/-- The first foreign character is the error (rule R124). -/
theorem decodeGrouped_foreign {g : Grouped} {a b : List Byte} {c : Byte} (h : ∀ x ∈ a, Accepted g x)
    (hpad : c ≠ padChar) (hc : g.inverse c = none) : decodeGrouped g (a ++ c :: b) = .error (.eSym, a.length) := by
  have hscan : scanned (a ++ c :: b) = a ++ c :: scanned b := by
    rw [scanned_append h]
    simp [scanned, hpad]
  have hfirst : (a ++ c :: scanned b).findIdx? (fun x => (g.inverse x).isNone) = some a.length := by
    refine List.findIdx?_eq_some_iff_getElem.2 ⟨by simp, by simp [hc], fun j hj => ?_⟩
    have := (h a[j] (List.getElem_mem hj)).2
    simp [List.getElem_append_left hj, Option.isSome_iff_ne_none.1 this]
  simp only [decodeGrouped, hscan, hfirst]

/-- Settles O39: the scan stops at the `=`. -/
theorem textAfterPaddingIsIgnored : Obligations.TextAfterPaddingIsIgnored := decodeGrouped_append_pad

/-! ### The stream of the values (rule R121) -/

theorem bitsValue_congr {bit bit' : Nat → Bool} {start n : Nat} (h : ∀ j < n, bit (start + j) = bit' (start + j)) :
    bitsValue bit start n = bitsValue bit' start n := by
  induction n with
  | zero => rfl
  | succ n ih => rw [bitsValue_succ, bitsValue_succ, ih fun j hj => h j (by omega), h n (by omega)]

/-- `w * S mod 8`: how many bits of the stream do not fill a byte (rule R121). -/
def heldCount (w : Nat) (values : List Nat) : Nat := w * values.length % 8

/-- The value of those bits. -/
def heldValue (w : Nat) (values : List Nat) : Nat :=
  bitsValue (symbolBit w values) (8 * (w * values.length / 8)) (heldCount w values)

theorem heldValue_lt (w : Nat) (values : List Nat) : heldValue w values < 2 ^ heldCount w values := bitsValue_lt _ _ _

@[simp] theorem regroup_length (w : Nat) (values : List Nat) :
    (regroup w values).length = w * values.length / 8 := by simp [regroup]

section
variable {w v : Nat} (hw : 0 < w) (hv : v < 2 ^ w) (values : List Nat)

theorem symbolBit_append_left {t : Nat} (ht : t < w * values.length) :
    symbolBit w (values ++ [v]) t = symbolBit w values t := by
  rw [symbolBit, symbolBit, List.getD_append _ _ _ _ (Nat.div_lt_of_lt_mul ht)]

/-- What stands before the last symbol does not depend on it. -/
theorem bitsValue_symbolBit_append_left {start n : Nat} (h : start + n ≤ w * values.length) :
    bitsValue (symbolBit w (values ++ [v])) start n = bitsValue (symbolBit w values) start n :=
  bitsValue_congr fun _ hj => symbolBit_append_left values (by omega)

include hw hv in
/-- The last `w` bits are the last symbol. -/
theorem bitsValue_symbolBit_last : bitsValue (symbolBit w (values ++ [v])) (w * values.length) w = v := by
  refine bitsValue_testBit hv fun j hj => ?_
  rw [symbolBit, Nat.mul_add_div hw, Nat.div_eq_of_lt hj, Nat.mul_add_mod, Nat.mod_eq_of_lt hj]
  simp

include hw hv in
/-- The held bits and the next symbol are one stretch of the stream. -/
theorem heldValue_joined :
    heldValue w values * 2 ^ w + v =
      bitsValue (symbolBit w (values ++ [v])) (8 * (w * values.length / 8)) (heldCount w values + w) := by
  have hend : 8 * (w * values.length / 8) + heldCount w values = w * values.length := Nat.div_add_mod _ 8
  rw [bitsValue_add, bitsValue_symbolBit_append_left values hend.le, hend, bitsValue_symbolBit_last hw hv, heldValue]

end

/-- The byte that `n` bits of value `x` complete, none when they are fewer than 8 (rule R121). -/
def completedByte (x n : Nat) : List Byte := if n < 8 then [] else [BitVec.ofNat 8 (x / 2 ^ (n - 8))]

theorem completedByte_length_le (x n : Nat) : (completedByte x n).length ≤ 1 := by
  unfold completedByte
  split <;> simp

section
variable {w v x n : Nat} (hw : 0 < w) (hw8 : w ≤ 8) (hv : v < 2 ^ w) (values : List Nat)
  (hx : x = heldValue w values * 2 ^ w + v) (hn : n = heldCount w values + w)

include hn in
/-- The bits taken in with one more symbol are the bytes so far and the `n` bits now at hand. -/
theorem width_mul_snoc : w * (values ++ [v]).length = 8 * (w * values.length / 8) + n := by
  have hend : 8 * (w * values.length / 8) + heldCount w values = w * values.length := Nat.div_add_mod _ 8
  rw [List.length_append, List.length_singleton, Nat.mul_succ, hn, ← Nat.add_assoc, hend]

include hn in
theorem heldCount_snoc : heldCount w (values ++ [v]) = n % 8 := by
  rw [heldCount, width_mul_snoc values hn, Nat.mul_add_mod]

include hw hv hx hn in
theorem heldValue_snoc : heldValue w (values ++ [v]) = x % 2 ^ (n % 8) := by
  rw [heldValue, heldCount_snoc values hn, width_mul_snoc values hn, Nat.mul_add_div (by decide), Nat.mul_add, hx,
    heldValue_joined hw hv, ← hn, bitsValue_mod_width]

include hw hw8 hv hx hn in
/-- One more symbol adds the byte that it completes (rule R121). -/
theorem regroup_snoc : regroup w (values ++ [v]) = regroup w values ++ completedByte x n := by
  have hheld : heldCount w values < 8 := Nat.mod_lt _ (by decide)
  have hbytes : (List.range (w * values.length / 8)).map
        (fun j => BitVec.ofNat 8 (bitsValue (symbolBit w (values ++ [v])) (8 * j) 8)) = regroup w values := by
    refine List.map_congr_left fun j hj => ?_
    rw [bitsValue_symbolBit_append_left values (by have := List.mem_range.1 hj; omega)]
  rw [regroup, width_mul_snoc values hn, Nat.mul_add_div (by decide), completedByte]
  split
  case isTrue hlt => rw [Nat.div_eq_of_lt hlt, Nat.add_zero, hbytes, List.append_nil]
  case isFalse hge =>
    have hone : n / 8 = 1 := by omega
    have hbyte : bitsValue (symbolBit w (values ++ [v])) (8 * (w * values.length / 8)) 8 = x / 2 ^ (n - 8) := by
      rw [hx, heldValue_joined hw hv, ← hn, ← bitsValue_div _ _ 8 (n - 8), Nat.add_sub_cancel' (by omega)]
    rw [hone, List.range_succ, List.map_append, hbytes, List.map_singleton, hbyte]

end

end Sys2Proof.Proofs
end

section
/-! PROOFS. One turn of the engine and a whole run, for every operation (rules R22, R191, R193): an action that takes
input in, stores the accumulator and writes; and a run by its turns. -/

namespace Sys2Proof.Proofs

open Sys2Proof.Machine Sys2Proof.Certificates

/-! ### Taking input in -/

theorem continues_refl (s : State) : Continues s s :=
  ⟨⟨rfl, rfl, rfl, rfl, rfl, rfl, rfl⟩, ⟨rfl, rfl, rfl⟩⟩

theorem continues_trans {s t u : State} (h : Continues s t) (k : Continues t u) : Continues s u :=
  ⟨h.1.trans k.1, h.2.trans k.2⟩

/-- From `s` to `t` the engine took in `k` bytes of input and wrote `bs`; the accumulator and the count are now `x` and
`n`. -/
structure Took (k x n : Nat) (bs : List Byte) (s t : State) : Prop where
  goes : Continues s t
  written : Emitted bs s t
  acc : t.acc.toNat = x
  nb : t.nb.toNat = n
  ip : t.ip.toNat = s.ip.toNat + k

/-- Inside the bounds of rule R21 nothing that an action stores is narrowed, and where OBUF has room it goes on. -/
theorem emitAll_took {k x n : Nat} {bs : List Byte} {s : State} (hp : Params.sized s.par)
    (hin : s.ip.toNat + k ≤ s.par.inMax) (hx : x < 2 ^ 33) (hn : n < 2 ^ 4)
    (hroom : s.op.toNat + bs.length ≤ s.par.outMax) :
    ∃ t, emitAll bs ((s.setAcc x n).advance k) = .next t ∧ Took k x n bs s t := by
  have hmax := Params.sized_outMax hp
  obtain ⟨t, ht⟩ := emitAll_goesOn (s := (s.setAcc x n).advance k) hmax hroom
  obtain ⟨hacc, hnb, hip⟩ := emitAll_datapath ht
  have hworked := Worked.taken ht
  refine ⟨t, ht, ⟨hworked.host, hworked.report⟩, emitted_of_same (emitAll_emitted ht hmax) rfl fun _ => rfl, ?_, ?_, ?_⟩
  · simpa [hacc] using hx
  · simpa [hnb] using hn
  · have := hp.2
    rw [hip, State.advance_ip, State.setAcc_ip, BitVec.toNat_add, BitVec.toNat_ofNat]
    omega

/-- Storing what the accumulator and the count hold changes nothing. -/
theorem setAcc_same (s : State) : s.setAcc s.acc.toNat s.nb.toNat = s := by
  simp [State.setAcc]

/-! ### A run by its turns -/

/-- The run of operation `i` that began in `s₀` has ended in `t` as the stateless rule says. -/
structure RunDone (i : Instr) (s₀ t : State) : Prop where
  host : HostSideSame s₀ t
  shows : t.shows (outcomeOf s₀.par s₀.message i)

theorem idle_of_shows {s : State} {o : Outcome} (h : s.shows o) : s.busy = false := by
  match o with
  | .ok _ => exact (State.busy_of_status h.1).trans statusDone_bit0
  | .error (e, _) => exact (State.busy_of_status h.1).trans (statusError_bit0 e)

/-- An exit with success ends the run when the rule's outcome is what was written. -/
theorem runDone_of_finished {i : Instr} {bs : List Byte} {s₀ u : State} (hs : Begun i s₀) (hu : Continues s₀ u)
    (h : Emitted bs s₀ u) (hout : outcomeOf s₀.par s₀.message i = .ok bs) : RunDone i s₀ u.finished := by
  obtain ⟨⟨cmd, ilen, ibuf, par, inputs, answers, resets⟩, hreport⟩ := hu
  have hf : Finishes s₀ u.finished := ⟨⟨cmd, ilen, ibuf, par, inputs, answers, resets⟩, rfl, rfl, hreport.epos⟩
  refine ⟨hf.1, ?_⟩
  rw [hout]
  exact shows_of_finishes hs hf (emitted_finished h)

/-- An exit with an error ends the run when it is the rule's. -/
theorem runDone_of_raised {i : Instr} {e : ErrorCode} {pos : Nat} {s₀ u : State} (hu : HostSideSame s₀ u)
    (hout : outcomeOf s₀.par s₀.message i = .error (e, pos)) : RunDone i s₀ (u.raised e pos) := by
  obtain ⟨cmd, ilen, ibuf, par, inputs, answers, resets⟩ := hu
  refine ⟨⟨cmd, ilen, ibuf, par, inputs, answers, resets⟩, ?_⟩
  rw [hout]
  exact ⟨rfl, rfl, rfl⟩

/-- `Going s₀ s` says how far a run of operation `i` that began in `s₀` has come in `s`: it holds at the start, a `step`
ends the run as the stateless rule says or takes it further into the message, and the `end` ends it as the rule says. -/
structure Progresses (i : Instr) (Going : State → State → Prop) : Prop where
  start : ∀ s, Going (started i s) (started i s)
  goes : ∀ s₀ s, Going s₀ s → Continues s₀ s
  cursor : ∀ s₀ s, Going s₀ s → s.ip.toNat ≤ s₀.ilen.toNat
  step : ∀ s₀ s, s₀.par.wellFormed = true → Begun i s₀ → Going s₀ s → s.ip.toNat < s₀.ilen.toNat →
    ∃ t, (actionsOf i).1 s = .next t ∧ (RunDone i s₀ t ∨ Going s₀ t ∧ s.ip.toNat < t.ip.toNat)
  last : ∀ s₀ s, Begun i s₀ → Going s₀ s → s.ip.toNat = s₀.ilen.toNat →
    ∃ t, (actionsOf i).2 s = .next t ∧ RunDone i s₀ t

section
variable {i : Instr} {Going : State → State → Prop} (hi : Progresses i Going)
include hi

/-- One turn of the engine is a `step` or the `end` (rule R22). -/
theorem Progresses.turn {s₀ s : State} (hwf : s₀.par.wellFormed = true) (hs : Begun i s₀) (h : Going s₀ s) :
    ∃ t, exec i s = .next t ∧
      (RunDone i s₀ t ∨ Going s₀ t ∧ s₀.ilen.toNat - t.ip.toNat < s₀.ilen.toNat - s.ip.toNat) := by
  have hgoes := hi.goes s₀ s h
  have hbusy := (hs.toRunning.of_continues hgoes).busy
  have hilen := hgoes.1.ilen
  rcases (hi.cursor s₀ s h).lt_or_eq with hlt | heq
  · obtain ⟨t, ht, hturn⟩ := hi.step s₀ s hwf hs h hlt
    exact ⟨t, (exec_step i hbusy (hilen ▸ hlt)).trans ht, hturn.imp_right fun ⟨hgo, hip⟩ => ⟨hgo, by omega⟩⟩
  · obtain ⟨t, ht, hdone⟩ := hi.last s₀ s hs h heq
    exact ⟨t, (exec_end i hbusy (hilen ▸ heq)).trans ht, .inl hdone⟩

/-- The run from any idle state gives what the stateless rule says (rules R191, R193). -/
theorem Progresses.runGives : RunGives i := by
  intro s hwf hb hfits
  have hs := started_begun i hwf hfits
  obtain ⟨t, ht, hhost, hshows⟩ := run_of_turns (Going := Going (started i s)) (Ended := RunDone i (started i s))
    (left := fun u => s.ilen.toNat - u.ip.toNat) (fun u h => hs.toRunning.of_continues (hi.goes _ u h))
    (fun _ h => ⟨idle_of_shows h.shows, h.host.inputs⟩) (fun _ h => hi.turn hwf hs h) (hi.start s)
    (Nat.lt_succ_of_le (Nat.sub_le s.ilen.toNat _))
  exact ⟨t, (runCommand_eq i hb hfits).trans ht, hshows, hhost.cmd, hhost.ilen, hhost.ibuf, hhost.par⟩

end

/-! ### The message on the way -/

theorem message_of_hostSideSame {s t : State} (h : HostSideSame s t) : t.message = s.message := by
  rw [State.message, h.ilen, State.message]
  exact List.map_congr_left fun k _ => ibufByte_of_hostSideSame h k

/-- The message from the input cursor on begins with the byte that the engine reads. -/
theorem message_drop {s₀ s : State} (h : HostSideSame s₀ s) (hip : s.ip.toNat < s₀.ilen.toNat) :
    s₀.message.drop s.ip.toNat = s.ibufByte s.ip.toNat :: s₀.message.drop (s.ip.toNat + 1) := by
  rw [List.drop_eq_getElem_cons (by rwa [message_length]), ibufByte_of_hostSideSame h]
  simp [State.message]

end Sys2Proof.Proofs
end

section
/-! PROOFS. The bit-grouped decoders (spec/41_bitgrouped_decode.md): what one `step` does (rules R122, R123), how far a
run has come in the stateless rule's own terms, and the whole run (rule R121). -/

namespace Sys2Proof.Proofs

open Sys2Proof.Machine Sys2Proof.Certificates

/-! ### The two families (rule R120) -/

/-- What the decoders need of a family: a symbol has 1 to 8 bits, and the table is one of rule R7. -/
structure DecoderFamily (g : Grouped) : Prop where
  width_pos : 0 < g.width
  width_le : g.width ≤ 8
  table : tableWellFormed (2 ^ g.width) g.table = true

theorem grouped5_decoderFamily {p : Params} (hp : p.wellFormed = true) : DecoderFamily (grouped5 p) :=
  ⟨by simp [grouped5], by simp [grouped5], (Params.wellFormed_iff.1 hp).2.1⟩

theorem grouped6_decoderFamily {p : Params} (hp : p.wellFormed = true) : DecoderFamily (grouped6 p) :=
  ⟨by simp [grouped6], by simp [grouped6], (Params.wellFormed_iff.1 hp).2.2⟩

theorem DecoderFamily.inverse_lt {g : Grouped} (hg : DecoderFamily g) {c : Byte} {v : Nat}
    (h : g.inverse c = some v) : v < 2 ^ g.width :=
  (Grouped.inverse_lt h).trans_eq (tableWellFormed_length hg.table)

/-! ### The actions (rules R122, R123) -/

section
variable {g : Grouped} {s : State}

/-- A `step` for a symbol, with the bits held and the symbol as one number: the byte it completes goes out, the rest
stays. -/
theorem decodeSymbol_eq {v x n : Nat} (hv : v < 2 ^ g.width) (hw : g.width ≤ 8) (inv : DecodeInv g.width s)
    (hx : x = s.acc.toNat * 2 ^ g.width + v) (hn : n = s.nb.toNat + g.width) :
    decodeSymbol g v s = emitAll (completedByte x n) ((s.setAcc (x % 2 ^ (n % 8)) (n % 8)).advance 1) := by
  have hnb := inv.nb
  simp only [decodeSymbol, completedByte]
  rw [shiftIn_eq _ _ _ hv, ← hx, ← hn]
  rcases Nat.lt_or_ge n 8 with hlt | hge
  · have hxn : x < 2 ^ n := by
      have := Nat.mul_le_mul_right (2 ^ g.width) (Nat.succ_le_of_lt inv.acc)
      rw [hx, hn, pow_add]
      rw [Nat.succ_mul] at this
      omega
    rw [if_neg (by omega), if_pos hlt, Nat.mod_eq_of_lt hlt, Nat.mod_eq_of_lt hxn, emitAll]
  · have hbyte : BitVec.ofNat 8 (lowBits (x >>> (n - 8)) 8) = BitVec.ofNat 8 (x / 2 ^ (n - 8)) :=
      BitVec.eq_of_toNat_eq (by simp [lowBits_eq, Nat.shiftRight_eq_div_pow])
    rw [if_pos hge, if_neg (by omega), hbyte, lowBits_eq, show n % 8 = n - 8 by omega]

/-- A symbol has at most eight bits, so `OP` is not ahead of `IP` (rule R53). -/
theorem op_le_of_decodeInv (hw : g.width ≤ 8) (inv : DecodeInv g.width s) : s.op.toNat ≤ s.ip.toNat := by
  have := inv.progress
  have := Nat.mul_le_mul_right s.ip.toNat hw
  omega

/-- A `step` for a symbol (rules R121, R122, R123). -/
theorem decodeSymbol_spec {v x n : Nat} (hv : v < 2 ^ g.width) (hw : g.width ≤ 8) (hp : Params.sized s.par)
    (hin : s.ip.toNat < s.par.inMax) (inv : DecodeInv g.width s) (hx : x = s.acc.toNat * 2 ^ g.width + v)
    (hn : n = s.nb.toNat + g.width) :
    ∃ t, decodeSymbol g v s = .next t ∧ Took 1 (x % 2 ^ (n % 8)) (n % 8) (completedByte x n) s t := by
  have hleft : n % 8 < 8 := Nat.mod_lt n (by decide)
  have hacc : x % 2 ^ (n % 8) < 2 ^ 33 :=
    (Nat.mod_lt _ (Nat.two_pow_pos _)).trans_le (Nat.pow_le_pow_right (by decide) (by omega))
  have hroom : s.op.toNat + (completedByte x n).length ≤ s.par.outMax := by
    have := completedByte_length_le x n
    have := op_le_of_decodeInv hw inv
    rw [Params.outMax]
    omega
  rw [decodeSymbol_eq hv hw inv hx hn]
  exact emitAll_took hp hin hacc (by omega) hroom

theorem decodeStep_pad (hin : s.ip.toNat < s.par.inMax) (hc : s.ibufByte s.ip.toNat = padChar) :
    decodeStep g s = .next s.finished := by
  rw [decodeStep, fetchInput_eq _ hin, if_pos hc, finish_eq]

theorem decodeStep_foreign (hin : s.ip.toNat < s.par.inMax) (hc : s.ibufByte s.ip.toNat ≠ padChar)
    (hinv : g.inverse (s.ibufByte s.ip.toNat) = none) :
    decodeStep g s = .next (s.raised .eSym s.ip.toNat) := by
  rw [decodeStep, fetchInput_eq _ hin, if_neg hc, hinv, raise_eq]

theorem decodeStep_symbol {v : Nat} (hin : s.ip.toNat < s.par.inMax) (hc : s.ibufByte s.ip.toNat ≠ padChar)
    (hinv : g.inverse (s.ibufByte s.ip.toNat) = some v) : decodeStep g s = decodeSymbol g v s := by
  rw [decodeStep, fetchInput_eq _ hin, if_neg hc, hinv]

end

/-! ### A run in the terms of rule R121 -/

/-- How far the run of a decoder that began in `s₀` has come in `s`: the characters before the cursor are in the
alphabet, their bytes are written, and `ACC` holds the bits that remain (the induction of rule R121). -/
structure DecodeProgress (g : Grouped) (s₀ s : State) : Prop where
  goes : Continues s₀ s
  cursor : s.ip.toNat ≤ s₀.ilen.toNat
  accepted : ∀ c ∈ s₀.message.take s.ip.toNat, Accepted g c
  nb : s.nb.toNat = heldCount g.width (symbolValues g (s₀.message.take s.ip.toNat))
  acc : s.acc.toNat = heldValue g.width (symbolValues g (s₀.message.take s.ip.toNat))
  written : Emitted (regroup g.width (symbolValues g (s₀.message.take s.ip.toNat))) s₀ s

section
variable {i : Instr} {g : Grouped} {s₀ s : State}

theorem DecodeProgress.taken_length (h : DecodeProgress g s₀ s) :
    (s₀.message.take s.ip.toNat).length = s.ip.toNat := by
  rw [List.length_take, message_length, Nat.min_eq_left h.cursor]

theorem DecodeProgress.inv (hs : Begun i s₀) (h : DecodeProgress g s₀ s) : DecodeInv g.width s where
  acc := by rw [h.acc, h.nb]; exact heldValue_lt _ _
  nb := by rw [h.nb]; exact Nat.mod_lt _ (by decide)
  progress := by
    have hop : s.op.toNat = g.width * s.ip.toNat / 8 := by simpa [hs.op, h.taken_length] using h.written.op
    rw [hop, h.nb, heldCount, symbolValues_length, h.taken_length]
    exact Nat.div_add_mod _ 8

/-- A symbol takes the run one character on. -/
theorem DecodeProgress.symbol (hg : DecoderFamily g) (hs : Begun i s₀) (h : DecodeProgress g s₀ s)
    (hip : s.ip.toNat < s₀.ilen.toNat) {v : Nat} (hc : s.ibufByte s.ip.toNat ≠ padChar)
    (hv : g.inverse (s.ibufByte s.ip.toNat) = some v) :
    ∃ t, decodeStep g s = .next t ∧ DecodeProgress g s₀ t ∧ t.ip.toNat = s.ip.toNat + 1 := by
  have hpar := h.goes.1.par
  have hin : s.ip.toNat < s.par.inMax := hpar ▸ hip.trans_le hs.fits
  have hvlt := hg.inverse_lt hv
  obtain ⟨t, ht, htook⟩ := decodeSymbol_spec hvlt hg.width_le (hpar ▸ hs.sized) hin (h.inv hs)
    (congrArg (· * 2 ^ g.width + v) h.acc).symm (congrArg (· + g.width) h.nb).symm
  have htake : s₀.message.take t.ip.toNat = s₀.message.take s.ip.toNat ++ [s.ibufByte s.ip.toNat] := by
    rw [htook.ip, List.take_add, message_drop h.goes.1 hip]
    simp
  have hvalues : symbolValues g (s₀.message.take t.ip.toNat) =
      symbolValues g (s₀.message.take s.ip.toNat) ++ [v] := by
    simp [htake, symbolValues, hv]
  refine ⟨t, (decodeStep_symbol hin hc hv).trans ht, ⟨continues_trans h.goes htook.goes,
    by rw [htook.ip]; exact hip, ?_, ?_, ?_, ?_⟩, htook.ip⟩
  · rw [htake]
    intro c hmem
    rcases List.mem_append.1 hmem with hmem | hmem
    · exact h.accepted c hmem
    · rw [List.mem_singleton.1 hmem]
      exact ⟨hc, by simp [hv]⟩
  · rw [hvalues, heldCount_snoc _ rfl]
    exact htook.nb
  · rw [hvalues, heldValue_snoc hg.width_pos hvlt _ rfl rfl]
    exact htook.acc
  · rw [hvalues, regroup_snoc hg.width_pos hg.width_le hvlt _ rfl rfl]
    exact h.written.trans htook.written

/-- At a character of the message, the text splits there. -/
theorem DecodeProgress.split (h : DecodeProgress g s₀ s) (hip : s.ip.toNat < s₀.ilen.toNat) :
    s₀.message = s₀.message.take s.ip.toNat ++ s.ibufByte s.ip.toNat :: s₀.message.drop (s.ip.toNat + 1) := by
  rw [← message_drop h.goes.1 hip, List.take_append_drop]

end

/-! ### The whole run -/

/-- Operation `i` is the decoder of the family `g`, by its actions and by its rule (rules R121, R122, R123). -/
structure DecoderOf (i : Instr) (g : Params → Grouped) : Prop where
  family : ∀ p, p.wellFormed = true → DecoderFamily (g p)
  step : ∀ s, (actionsOf i).1 s = decodeStep (g s.par) s
  last : (actionsOf i).2 = finish
  outcome : ∀ p m, outcomeOf p m i = decodeGrouped (g p) m

theorem dec5_decoder : DecoderOf .dec5 grouped5 :=
  ⟨fun _ => grouped5_decoderFamily, fun _ => rfl, rfl, fun _ _ => rfl⟩

theorem dec6_decoder : DecoderOf .dec6 grouped6 :=
  ⟨fun _ => grouped6_decoderFamily, fun _ => rfl, rfl, fun _ _ => rfl⟩

/-- At its start a run has taken in and written nothing. -/
theorem started_decodeProgress (g : Grouped) (i : Instr) (s : State) :
    DecodeProgress g (started i s) (started i s) where
  goes := continues_refl _
  cursor := by simp
  accepted := by simp
  nb := by simp [heldCount, symbolValues]
  acc := by simp [heldValue, heldCount, symbolValues]
  written := by simpa [regroup, symbolValues] using Emitted.nil rfl fun _ => rfl

section
variable {i : Instr} {g : Params → Grouped} {s₀ s : State}

/-- A `step` of a decoder ends the run at a `=` or at a foreign character, and takes it on at a symbol (rule R121). -/
theorem DecoderOf.stepTurn (hi : DecoderOf i g) (hwf : s₀.par.wellFormed = true) (hs : Begun i s₀)
    (h : DecodeProgress (g s₀.par) s₀ s) (hip : s.ip.toNat < s₀.ilen.toNat) :
    ∃ t, (actionsOf i).1 s = .next t ∧
      (RunDone i s₀ t ∨ DecodeProgress (g s₀.par) s₀ t ∧ s.ip.toNat < t.ip.toNat) := by
  rw [hi.step, h.goes.1.par]
  have hin : s.ip.toNat < s.par.inMax := h.goes.1.par ▸ hip.trans_le hs.fits
  have hsplit := h.split hip
  by_cases hpad : s.ibufByte s.ip.toNat = padChar
  · refine ⟨_, decodeStep_pad hin hpad, .inl (runDone_of_finished hs h.goes h.written ?_)⟩
    rw [hi.outcome, ← decodeGrouped_accepted h.accepted]
    conv_lhs => rw [hsplit, hpad, decodeGrouped_append_pad]
  · cases hinv : (g s₀.par).inverse (s.ibufByte s.ip.toNat) with
    | none =>
      refine ⟨_, decodeStep_foreign hin hpad hinv, .inl (runDone_of_raised h.goes.1 ?_)⟩
      rw [hi.outcome]
      conv_lhs => rw [hsplit, decodeGrouped_foreign h.accepted hpad hinv, h.taken_length]
    | some v =>
      obtain ⟨t, ht, hprogress, hipt⟩ := h.symbol (hi.family _ hwf) hs hip hpad hinv
      exact ⟨t, ht, .inr ⟨hprogress, by omega⟩⟩

/-- The `end` of a decoder ends the run with all the characters taken in (rule R121). -/
theorem DecoderOf.endTurn (hi : DecoderOf i g) (hs : Begun i s₀) (h : DecodeProgress (g s₀.par) s₀ s)
    (hip : s.ip.toNat = s₀.ilen.toNat) : ∃ t, (actionsOf i).2 s = .next t ∧ RunDone i s₀ t := by
  have hall : s₀.message.take s.ip.toNat = s₀.message := List.take_of_length_le (by rw [message_length, hip])
  refine ⟨s.finished, by rw [hi.last, finish_eq], runDone_of_finished hs h.goes h.written ?_⟩
  rw [hi.outcome, ← decodeGrouped_accepted h.accepted, hall]

end

/-- The progress of a decoder's run is the induction on `IP` of rule R121. -/
theorem DecoderOf.progresses {i : Instr} {g : Params → Grouped} (hi : DecoderOf i g) :
    Progresses i fun s₀ => DecodeProgress (g s₀.par) s₀ where
  start s := started_decodeProgress _ i s
  goes _ _ h := h.goes
  cursor _ _ h := h.cursor
  step _ _ := hi.stepTurn
  last _ _ := hi.endTurn

/-- Settles O27: DEC5 and DEC6 are decoders of their families, whose runs progress as rule R121 says. -/
theorem groupedDecodersComputeTheirRule : Obligations.GroupedDecodersComputeTheirRule :=
  ⟨dec5_decoder.progresses.runGives, dec6_decoder.progresses.runGives⟩

end Sys2Proof.Proofs
end

section
/-! PROOFS. The base-85 encoder (spec/42_base85_encode.md): the stateless rule chunk by chunk (rule R131), what one
`step` does (rule R132), and the whole run. -/

namespace Sys2Proof.Proofs

open Sys2Proof.Machine Sys2Proof.Certificates

/-! ### The stateless rule in chunks (rule R131) -/

@[simp] theorem encode85_nil : encode85 [] = [] := rfl

/-- A container is the text of the first chunk and the container of the rest. -/
theorem encode85_chunk {m : List Byte} (h : m ≠ []) :
    encode85 m = chunkText (m.take 4) ++ encode85 (m.drop 4) := by
  have hpos : 0 < m.length := List.length_pos_iff.2 h
  rw [encode85, show (m.length + 3) / 4 = (m.length - 4 + 3) / 4 + 1 by omega, List.range_succ_eq_map,
    List.flatMap_cons, List.flatMap_map, encode85, List.length_drop]
  refine congrArg (chunkText (m.take 4) ++ ·) (List.flatMap_congr fun q _ => ?_)
  rw [List.drop_drop, Nat.succ_eq_add_one, Nat.mul_succ, Nat.add_comm]

/-- The container of one chunk is its text. -/
theorem encode85_of_length_le {c : List Byte} (h : c ≠ []) (h4 : c.length ≤ 4) : encode85 c = chunkText c := by
  rw [encode85_chunk h, List.take_of_length_le h4, List.drop_of_length_le h4, encode85_nil, List.append_nil]

/-- A message may be cut between two chunks (rule R52). -/
theorem encode85_append {a b : List Byte} (h : a.length % 4 = 0) : encode85 (a ++ b) = encode85 a ++ encode85 b := by
  induction hn : a.length using Nat.strong_induction_on generalizing a with
  | _ n ih =>
    by_cases ha : a = []
    · simp [ha]
    · have hlen : 4 ≤ a.length := by have := List.length_pos_iff.2 ha; omega
      rw [encode85_chunk (by simp [ha]), encode85_chunk ha, List.take_append_of_le_length hlen,
        List.drop_append_of_le_length hlen, ih (a.drop 4).length (by rw [List.length_drop]; omega)
          (by rw [List.length_drop]; omega) rfl, List.append_assoc]

theorem chunkText_length_le (c : List Byte) : (chunkText c).length ≤ c.length + 1 := by
  rw [← chunkChars_eq, chunkChars_length]
  split <;> omega

/-- Five characters for a full chunk and one more than its bytes for a short one are enough (rule R92). -/
theorem encode85_length_le (m : List Byte) :
    (encode85 m).length ≤ 5 * (m.length / 4) + if m.length % 4 = 0 then 0 else m.length % 4 + 1 := by
  induction hn : m.length using Nat.strong_induction_on generalizing m with
  | _ n ih =>
    by_cases hm : m = []
    · simp [hm]
    · have hpos := List.length_pos_iff.2 hm
      have hchunk := chunkText_length_le (m.take 4)
      rw [encode85_chunk hm, List.length_append]
      rw [List.length_take] at hchunk
      rcases Nat.lt_or_ge n 4 with hlt | hge
      · rw [List.drop_of_length_le (by omega), encode85_nil, List.length_nil, if_neg (by omega)]
        omega
      · have hrest := ih (n - 4) (by omega) (m.drop 4) (by simp [hn])
        split at hrest <;> split <;> omega

/-! ### The actions (rule R132) -/

/-- The length of the chunk that a `step` takes in (rule R132). -/
def chunkSize (s : State) : Nat := min 4 (s.ilen.toNat - s.ip.toNat)

theorem encode85Step_eq (s : State) :
    encode85Step s = fetchChunk (chunkSize s) s fun bytes => emitAll (chunkChars (chunkSize s) (chunkValue bytes))
      ((s.setAcc (chunkValue bytes) s.nb.toNat).advance (chunkSize s)) := rfl

/-- It is what is left of the message, up to four bytes. -/
theorem take_chunkSize (s : State) :
    (s.message.drop s.ip.toNat).take (chunkSize s) = (s.message.drop s.ip.toNat).take 4 :=
  List.take_eq_take_iff.2 (by simp [chunkSize, message_length])

/-- A `step` of ENC85: the next chunk's text goes out (rules R131, R132). -/
theorem encode85Step_spec {s : State} (hp : Params.sized s.par) (hfits : s.ilen.toNat ≤ s.par.inMax)
    (hip : s.ip.toNat < s.ilen.toNat) (inv : Encode85Inv s) {c : List Byte}
    (hc : c = (s.message.drop s.ip.toNat).take 4) :
    ∃ t, encode85Step s = .next t ∧ Took (chunkSize s) (chunkSum c) 0 (chunkText c) s t := by
  have hend : s.ip.toNat + chunkSize s ≤ s.ilen.toNat := by rw [chunkSize]; omega
  have hread : (List.range (chunkSize s)).map (fun j => s.ibufByte (s.ip.toNat + j)) = c := by
    rw [chunk_of_message s _ hend, hc, take_chunkSize]
  have hlen : c.length = chunkSize s := by simp [← hread]
  have hsize : 1 ≤ c.length ∧ c.length ≤ 4 := by rw [hlen, chunkSize]; omega
  have hvalue : chunkValue c = chunkSum c := chunkValue_eq c hsize.1 hsize.2
  have hnb : s.nb.toNat = 0 := by simp [inv.nb]
  have haligned : s.ip.toNat % 4 = 0 := inv.aligned.resolve_right fun h => by rw [h] at hip; exact lt_irrefl _ hip
  have hroom : s.op.toNat + (chunkText c).length ≤ s.par.outMax := by
    have := chunkText_length_le c
    have := inv.progress
    rw [if_pos haligned] at this
    rw [Params.outMax]
    omega
  obtain ⟨t, ht, htook⟩ := emitAll_took (k := chunkSize s) (n := 0) hp (hend.trans hfits)
    ((chunkSum_lt c).trans (by decide)) (by decide) hroom
  refine ⟨t, ?_, htook⟩
  rw [← hnb, ← chunkChars_eq, hlen, ← hvalue] at ht
  rw [encode85Step_eq, fetchChunk_eq _ (hend.trans hfits), hread]
  exact ht

/-! ### A run in the terms of rule R131 -/

/-- How far the run of ENC85 that began in `s₀` has come in `s`: the chunks before the cursor are written. -/
structure Encode85Progress (s₀ s : State) : Prop where
  goes : Continues s₀ s
  cursor : s.ip.toNat ≤ s₀.ilen.toNat
  aligned : s.ip.toNat % 4 = 0 ∨ s.ip.toNat = s₀.ilen.toNat
  nb : s.nb = 0
  acc : s.acc.toNat < 2 ^ 32
  written : Emitted (encode85 (s₀.message.take s.ip.toNat)) s₀ s

section
variable {s₀ s : State}

theorem Encode85Progress.inv (hs : Begun .enc85 s₀) (h : Encode85Progress s₀ s) : Encode85Inv s where
  acc := h.acc
  nb := h.nb
  aligned := h.aligned.imp_right fun heq => BitVec.eq_of_toNat_eq (by rw [heq, h.goes.1.ilen])
  progress := by
    have hop : s.op.toNat = (encode85 (s₀.message.take s.ip.toNat)).length := by simpa [hs.op] using h.written.op
    have hle := encode85_length_le (s₀.message.take s.ip.toNat)
    rwa [← hop, List.length_take, message_length, Nat.min_eq_left h.cursor] at hle

/-- At its start a run has taken in and written nothing. -/
theorem started_encode85Progress (s : State) : Encode85Progress (started .enc85 s) (started .enc85 s) where
  goes := continues_refl _
  cursor := by simp
  aligned := by simp
  nb := rfl
  acc := by simp
  written := by simpa using Emitted.nil rfl fun _ => rfl

/-- A `step` takes the run one chunk on. -/
theorem Encode85Progress.step (hs : Begun .enc85 s₀) (h : Encode85Progress s₀ s) (hip : s.ip.toNat < s₀.ilen.toNat) :
    ∃ t, encode85Step s = .next t ∧ Encode85Progress s₀ t ∧ s.ip.toNat < t.ip.toNat := by
  have hpar := h.goes.1.par
  have hilen := h.goes.1.ilen
  have haligned : s.ip.toNat % 4 = 0 := h.aligned.resolve_right hip.ne
  obtain ⟨t, ht, htook⟩ := encode85Step_spec (hpar ▸ hs.sized) (by rw [hpar, hilen]; exact hs.fits) (hilen ▸ hip)
    (h.inv hs) rfl
  have hmoved : t.ip.toNat = s.ip.toNat + min 4 (s₀.ilen.toNat - s.ip.toNat) := by
    rw [htook.ip, chunkSize, hilen]
  have hmessage := message_of_hostSideSame h.goes.1
  have hchunk : (s₀.message.drop s.ip.toNat).take 4 ≠ [] :=
    List.ne_nil_of_length_pos (by simp [message_length]; omega)
  have htake : s₀.message.take t.ip.toNat =
      s₀.message.take s.ip.toNat ++ (s₀.message.drop s.ip.toNat).take 4 := by
    rw [htook.ip, List.take_add, ← hmessage, take_chunkSize]
  rw [hmessage] at htook
  refine ⟨t, ht, ⟨continues_trans h.goes htook.goes, by omega, by omega,
    BitVec.eq_of_toNat_eq htook.nb, htook.acc ▸ chunkSum_lt _, ?_⟩, by omega⟩
  rw [htake, encode85_append (by simpa [message_length, h.cursor] using haligned),
    encode85_of_length_le hchunk (List.length_take_le _ _)]
  exact h.written.trans htook.written

/-- The `end` of ENC85 finishes with all the chunks written. -/
theorem Encode85Progress.last (hs : Begun .enc85 s₀) (h : Encode85Progress s₀ s) (hip : s.ip.toNat = s₀.ilen.toNat) :
    ∃ t, finish s = .next t ∧ RunDone .enc85 s₀ t := by
  have hall : s₀.message.take s.ip.toNat = s₀.message := List.take_of_length_le (by rw [message_length, hip])
  refine ⟨s.finished, finish_eq s, runDone_of_finished hs h.goes h.written ?_⟩
  rw [hall]
  rfl

end

/-- The progress of ENC85 is an induction on the chunks of rule R131. -/
theorem encode85_progresses : Progresses .enc85 Encode85Progress where
  start := started_encode85Progress
  goes _ _ h := h.goes
  cursor _ _ h := h.cursor
  step _ _ _ hs h hip := by
    obtain ⟨t, ht, hgo⟩ := h.step hs hip
    exact ⟨t, ht, .inr hgo⟩
  last _ _ hs h hip := h.last hs hip

/-- The run of ENC85 from any idle state gives the container of rule R131. -/
theorem encode85_runGives : RunGives .enc85 := encode85_progresses.runGives

end Sys2Proof.Proofs
end

section
/-! PROOFS. The base-85 decoder (spec/43_base85_decode.md): the value of a group and the scan case by case (rule R141),
what one `step` and the `end` do (rule R142), and the whole run. -/

namespace Sys2Proof.Proofs

open Sys2Proof.Machine Sys2Proof.Certificates

/-! ### The value of a group (rules R141, R142) -/

/-- The digits so far as one number, the first most significant: what `ACC` holds of a group (rule R142). -/
def groupValue (digits : List Nat) : Nat := digits.foldl (fun v d => v * 85 + d) 0

@[simp] theorem groupValue_nil : groupValue [] = 0 := rfl

theorem groupValue_snoc (digits : List Nat) (d : Nat) : groupValue (digits ++ [d]) = groupValue digits * 85 + d := by
  simp [groupValue]

theorem groupValue_lt {digits : List Nat} (h : ∀ d ∈ digits, d ≤ 84) : groupValue digits < 85 ^ digits.length := by
  induction digits using List.reverseRecOn with
  | nil => decide
  | append_singleton rest d ih =>
    have hrest := ih fun x hx => h x (List.mem_append_left _ hx)
    have hd := h d (by simp)
    rw [groupValue_snoc, List.length_append, List.length_singleton, pow_succ]
    omega

/-- Filling a group out with the digit 84 gives the sum of rule R141. -/
theorem fillGroup_groupValue {group : List Nat} (h : group.length ≤ 5) :
    fillGroup (5 - group.length) (groupValue group) = groupSum group := by
  unfold groupSum groupValue
  generalize hf : fillerDigit = f
  match group, h with
  | [], _ => simp [fillGroup, hf]; ring
  | [a], _ => simp [fillGroup, hf]; ring
  | [a, b], _ => simp [fillGroup, hf]; ring
  | [a, b, c], _ => simp [fillGroup, hf]; ring
  | [a, b, c, d], _ => simp [fillGroup, hf]; ring
  | [a, b, c, d, e], _ => simp [fillGroup]; ring

/-- A full group needs no filling. -/
theorem groupSum_full {group : List Nat} (h : group.length = 5) : groupSum group = groupValue group := by
  rw [← fillGroup_groupValue h.le, h, fillGroup]

/-! ### Outcomes behind bytes already written -/

theorem outcome_map_nil (o : Outcome) : o.map ([] ++ ·) = o := by cases o <;> rfl

theorem outcome_map_append (a b : List Byte) (o : Outcome) : (o.map (b ++ ·)).map (a ++ ·) = o.map (a ++ b ++ ·) := by
  cases o <;> simp [Except.map]

/-! ### The scan, case by case (rule R141) -/

section
variable {c : Byte} {d : Nat} (rest : List Byte) (pos : Nat) {group : List Nat}

theorem scan85_last (h : group ≠ []) : scan85 [] pos group =
    if maxGroup < groupSum group then .error (.eRange, pos - 1)
    else .ok ((bigEndian (groupSum group)).take (group.length - 1)) := by rw [scan85, if_neg h]

theorem scan85_zero : scan85 (zeroChar :: rest) pos [] = (scan85 rest (pos + 1) []).map ([0, 0, 0, 0] ++ ·) := by
  rw [scan85, if_pos rfl, if_pos rfl]

theorem scan85_zero_inside (h : group ≠ []) : scan85 (zeroChar :: rest) pos group = .error (.eZpos, pos) := by
  rw [scan85, if_pos rfl, if_neg h]

theorem scan85_foreign (hz : c ≠ zeroChar) (hc : charDigit c = none) :
    scan85 (c :: rest) pos group = .error (.eSym, pos) := by
  rw [scan85, if_neg hz, hc]

theorem scan85_joins (hz : c ≠ zeroChar) (hc : charDigit c = some d) (h : group.length < 4) :
    scan85 (c :: rest) pos group = scan85 rest (pos + 1) (group ++ [d]) := by
  rw [scan85, if_neg hz, hc]
  exact if_neg (by omega)

theorem scan85_completes (hz : c ≠ zeroChar) (hc : charDigit c = some d) (h : group.length = 4)
    (hrange : groupSum (group ++ [d]) ≤ maxGroup) :
    scan85 (c :: rest) pos group = (scan85 rest (pos + 1) []).map (bigEndian (groupSum (group ++ [d])) ++ ·) := by
  rw [scan85, if_neg hz, hc]
  exact (if_pos (by omega)).trans (if_neg (Nat.not_lt.2 hrange))

theorem scan85_exceeds (hz : c ≠ zeroChar) (hc : charDigit c = some d) (h : group.length = 4)
    (hrange : maxGroup < groupSum (group ++ [d])) : scan85 (c :: rest) pos group = .error (.eRange, pos) := by
  rw [scan85, if_neg hz, hc]
  exact (if_pos (by omega)).trans (if_pos hrange)

end

theorem charDigit_le {c : Byte} {d : Nat} (h : charDigit c = some d) : d ≤ 84 := by
  have := charDigit_eq_some_iff.1 h
  omega

/-! ### The actions (rule R142) -/

section
variable {s : State} {d : Nat}

theorem decode85Step_zero_inside (hin : s.ip.toNat < s.par.inMax) (hc : s.ibufByte s.ip.toNat = zeroChar)
    (hnb : s.nb.toNat ≠ 0) : decode85Step s = .next (s.raised .eZpos s.ip.toNat) := by
  rw [decode85Step, fetchInput_eq _ hin, if_pos hc, if_pos hnb, raise_eq]

theorem decode85Step_foreign (hin : s.ip.toNat < s.par.inMax) (hz : s.ibufByte s.ip.toNat ≠ zeroChar)
    (hc : charDigit (s.ibufByte s.ip.toNat) = none) : decode85Step s = .next (s.raised .eSym s.ip.toNat) := by
  rw [decode85Step, fetchInput_eq _ hin, if_neg hz, hc, raise_eq]

theorem decode85Step_digit (hin : s.ip.toNat < s.par.inMax) (hz : s.ibufByte s.ip.toNat ≠ zeroChar)
    (hc : charDigit (s.ibufByte s.ip.toNat) = some d) : decode85Step s = decode85Digit d s := by
  rw [decode85Step, fetchInput_eq _ hin, if_neg hz, hc]

/-- Four bytes for each character taken in fit OBUF with four more to come (rule R53). -/
theorem decode85_room (hin : s.ip.toNat ≤ s.par.inMax) (inv : Decode85Inv s) {bs : List Byte} (h : bs.length ≤ 4) :
    s.op.toNat + bs.length ≤ s.par.outMax := by
  have := inv.progress
  rw [Params.outMax]
  omega

theorem decode85_acc_lt (inv : Decode85Inv s) : s.acc.toNat < 85 ^ 4 :=
  inv.acc.trans_le (Nat.pow_le_pow_right (by decide) inv.nb)

/-- `z` at a chunk boundary gives 4 zero bytes (rule R145). -/
theorem decode85Step_zero (hp : Params.sized s.par) (hin : s.ip.toNat < s.par.inMax) (inv : Decode85Inv s)
    (hc : s.ibufByte s.ip.toNat = zeroChar) (hnb : s.nb.toNat = 0) :
    ∃ t, decode85Step s = .next t ∧ Took 1 s.acc.toNat s.nb.toNat [0, 0, 0, 0] s t := by
  rw [decode85Step, fetchInput_eq _ hin, if_pos hc, if_neg (not_not.2 hnb)]
  simpa only [setAcc_same] using
    emitAll_took hp hin s.acc.isLt s.nb.isLt (decode85_room hin.le inv (bs := [0, 0, 0, 0]) le_rfl)

/-- A digit joins a group that it does not fill. -/
theorem decode85Digit_joins (hp : Params.sized s.par) (hin : s.ip.toNat < s.par.inMax) (inv : Decode85Inv s)
    (hd : d ≤ 84) (hnb : s.nb.toNat < 4) :
    ∃ t, decode85Digit d s = .next t ∧ Took 1 (s.acc.toNat * 85 + d) (s.nb.toNat + 1) [] s t := by
  have := decode85_acc_lt inv
  rw [decode85Digit, if_neg (by omega)]
  exact emitAll_took hp hin (by omega) (by omega) (decode85_room hin.le inv (bs := []) (Nat.zero_le 4))

/-- The fifth digit of a group in range gives its 4 bytes. -/
theorem decode85Digit_completes (hp : Params.sized s.par) (hin : s.ip.toNat < s.par.inMax) (inv : Decode85Inv s)
    (hnb : s.nb.toNat = 4) (hrange : s.acc.toNat * 85 + d ≤ maxGroup) :
    ∃ t, decode85Digit d s = .next t ∧ Took 1 0 0 (bigEndian (s.acc.toNat * 85 + d)) s t := by
  rw [decode85Digit, if_pos (by omega), if_neg (Nat.not_lt.2 hrange), leadingBytes_eq 4 _ le_rfl]
  exact emitAll_took hp hin (by decide) (by decide) (decode85_room hin.le inv (bs := bigEndian _) le_rfl)

/-- The fifth digit of a group out of range is the error (rule R143). -/
theorem decode85Digit_exceeds (hnb : s.nb.toNat = 4) (hrange : maxGroup < s.acc.toNat * 85 + d) :
    decode85Digit d s = .next ((s.setAcc (s.acc.toNat * 85 + d) (s.nb.toNat + 1)).raised .eRange s.ip.toNat) := by
  rw [decode85Digit, if_pos (by omega), if_pos hrange, raise_eq]

/-- With no digit left the `end` finishes. -/
theorem decode85End_empty (hnb : s.nb.toNat = 0) : decode85End s = .next s.finished := by
  rw [decode85End, if_neg (by omega), finish_eq]

theorem advance_zero (s : State) : s.advance 0 = s := by simp [State.advance]

/-- A last group in range gives one byte less than it has digits (rule R144). -/
theorem decode85End_group (hp : Params.sized s.par) (hin : s.ip.toNat ≤ s.par.inMax) (inv : Decode85Inv s)
    (hnb : 0 < s.nb.toNat) {v : Nat} (hv : fillGroup (5 - s.nb.toNat) s.acc.toNat = v) (hrange : v ≤ maxGroup) :
    ∃ u, decode85End s = .next u.finished ∧ Took 0 0 0 ((bigEndian v).take (s.nb.toNat - 1)) s u := by
  have hlen := inv.nb
  obtain ⟨u, hu, htook⟩ := emitAll_took (k := 0) (x := 0) (n := 0) (bs := (bigEndian v).take (s.nb.toNat - 1)) hp hin
    (by decide) (by decide) (decode85_room hin inv (by simp [bigEndian]))
  refine ⟨u, ?_, htook⟩
  rw [decode85End, if_pos hnb, hv, if_neg (Nat.not_lt.2 hrange), leadingBytes_eq _ _ (by omega)]
  exact andThen_eq_next.2 ⟨u, by rwa [advance_zero] at hu, finish_eq u⟩

/-- A last group out of range is the error, at the last character (rule R143). -/
theorem decode85End_exceeds (hnb : 0 < s.nb.toNat) {v : Nat} (hv : fillGroup (5 - s.nb.toNat) s.acc.toNat = v)
    (hrange : maxGroup < v) :
    decode85End s = .next ((s.setAcc v s.nb.toNat).raised .eRange (s.ilen.toNat - 1)) := by
  rw [decode85End, if_pos hnb, hv, if_pos hrange, raise_eq]

end

/-! ### A run in the terms of rule R141 -/

/-- How far the run of DEC85 that began in `s₀` has come in `s`: `out` is written, the digits of `group` are taken in,
and the scan from the cursor on says the rest (rule R141). -/
structure Decode85Progress (out : List Byte) (group : List Nat) (s₀ s : State) : Prop where
  goes : Continues s₀ s
  cursor : s.ip.toNat ≤ s₀.ilen.toNat
  short : group.length ≤ 4
  digits : ∀ d ∈ group, d ≤ 84
  within : group.length ≤ s.ip.toNat
  room : out.length ≤ 4 * (s.ip.toNat - group.length)
  nb : s.nb.toNat = group.length
  acc : s.acc.toNat = groupValue group
  written : Emitted out s₀ s
  rest : decode85 s₀.message =
    (scan85 (s₀.message.drop s.ip.toNat) s.ip.toNat group).map (out ++ ·)

/-- At its start a run has taken in and written nothing. -/
theorem started_decode85Progress (s : State) : Decode85Progress [] [] (started .dec85 s) (started .dec85 s) where
  goes := continues_refl _
  cursor := by simp
  short := by simp
  digits := by simp
  within := by simp
  room := by simp
  nb := by simp
  acc := by simp
  written := .nil rfl fun _ => rfl
  rest := (outcome_map_nil _).symm

section
variable {out : List Byte} {group : List Nat} {s₀ s : State}

theorem Decode85Progress.inv (hs : Begun .dec85 s₀) (h : Decode85Progress out group s₀ s) : Decode85Inv s where
  acc := by rw [h.acc, h.nb]; exact groupValue_lt h.digits
  nb := h.nb.trans_le h.short
  group := h.nb.trans_le h.within
  progress := by
    have hop : s.op.toNat = out.length := by simpa [hs.op] using h.written.op
    rw [hop, h.nb]
    exact h.room

/-- The scan at the next character. -/
theorem Decode85Progress.rest_cons (h : Decode85Progress out group s₀ s) (hip : s.ip.toNat < s₀.ilen.toNat) :
    decode85 s₀.message =
      (scan85 (s.ibufByte s.ip.toNat :: s₀.message.drop (s.ip.toNat + 1)) s.ip.toNat group).map (out ++ ·) := by
  rw [h.rest, message_drop h.goes.1 hip]

/-- An error of the scan is the rule's outcome. -/
theorem Decode85Progress.outcome_error (h : Decode85Progress out group s₀ s) {e : ErrorCode × Nat}
    (hscan : scan85 (s₀.message.drop s.ip.toNat) s.ip.toNat group = .error e) :
    outcomeOf s₀.par s₀.message .dec85 = .error e := by
  rw [outcomeOf, h.rest, hscan]
  rfl

/-- A character that the scan takes in, giving out `bs`, takes the run on. -/
theorem Decode85Progress.took (h : Decode85Progress out group s₀ s) (hip : s.ip.toNat < s₀.ilen.toNat) {t : State}
    {bs : List Byte} {group' : List Nat} (htook : Took 1 (groupValue group') group'.length bs s t)
    (hshort : group'.length ≤ 4) (hdigits : ∀ d ∈ group', d ≤ 84)
    (hroom : bs.length + 4 * group'.length ≤ 4 * (group.length + 1))
    (hscan : scan85 (s.ibufByte s.ip.toNat :: s₀.message.drop (s.ip.toNat + 1)) s.ip.toNat group =
      (scan85 (s₀.message.drop (s.ip.toNat + 1)) (s.ip.toNat + 1) group').map (bs ++ ·)) :
    Decode85Progress (out ++ bs) group' s₀ t where
  goes := continues_trans h.goes htook.goes
  cursor := by rw [htook.ip]; exact hip
  short := hshort
  digits := hdigits
  within := by have := h.within; rw [htook.ip]; omega
  room := by
    have := h.within
    have := h.room
    rw [htook.ip, List.length_append]
    omega
  nb := htook.nb
  acc := htook.acc
  written := h.written.trans htook.written
  rest := by rw [h.rest_cons hip, hscan, outcome_map_append, htook.ip]

theorem Decode85Progress.nb_eq_zero_iff (h : Decode85Progress out group s₀ s) : s.nb.toNat = 0 ↔ group = [] := by
  rw [h.nb, List.length_eq_zero_iff]

/-- A digit ends the run when its group exceeds the range, and takes it on otherwise (rules R141, R143). -/
theorem Decode85Progress.digit (hs : Begun .dec85 s₀) (h : Decode85Progress out group s₀ s)
    (hip : s.ip.toNat < s₀.ilen.toNat) {d : Nat} (hz : s.ibufByte s.ip.toNat ≠ zeroChar)
    (hc : charDigit (s.ibufByte s.ip.toNat) = some d) :
    ∃ t, decode85Digit d s = .next t ∧ (RunDone .dec85 s₀ t ∨
      (∃ out' group', Decode85Progress out' group' s₀ t) ∧ s.ip.toNat < t.ip.toNat) := by
  have hpar := h.goes.1.par
  have hp : Params.sized s.par := hpar ▸ hs.sized
  have hin : s.ip.toNat < s.par.inMax := hpar ▸ hip.trans_le hs.fits
  have inv := h.inv hs
  have hd := charDigit_le hc
  have hvalue : s.acc.toNat * 85 + d = groupValue (group ++ [d]) := by rw [groupValue_snoc, h.acc]
  rcases h.short.lt_or_eq with hlt | hfour
  · obtain ⟨t, ht, htook⟩ := decode85Digit_joins hp hin inv hd (h.nb.trans_lt hlt)
    have hlen : s.nb.toNat + 1 = (group ++ [d]).length := by simp [h.nb]
    rw [hvalue, hlen] at htook
    refine ⟨t, ht, .inr ⟨⟨_, _, h.took hip htook (by simpa using hlt) ?_ (by simp) ?_⟩, htook.ip ▸ Nat.lt_succ_self _⟩⟩
    · simpa [or_imp, forall_and] using ⟨h.digits, hd⟩
    · rw [scan85_joins _ _ hz hc hlt, outcome_map_nil]
  · have hsum : groupSum (group ++ [d]) = s.acc.toNat * 85 + d := by
      rw [hvalue, groupSum_full (by simp [hfour])]
    rcases Nat.lt_or_ge maxGroup (s.acc.toNat * 85 + d) with hbad | hrange
    · refine ⟨_, decode85Digit_exceeds (h.nb.trans hfour) hbad,
        .inl (runDone_of_raised (h.goes.1.trans (Worked.setAcc _ _ s).host) (h.outcome_error ?_))⟩
      rw [message_drop h.goes.1 hip, scan85_exceeds _ _ hz hc hfour (hsum ▸ hbad)]
    · obtain ⟨t, ht, htook⟩ := decode85Digit_completes hp hin inv (h.nb.trans hfour) hrange
      refine ⟨t, ht, .inr ⟨⟨_, _, h.took (group' := []) hip htook (by simp) (by simp) (by simp [bigEndian, hfour]) ?_⟩,
        htook.ip ▸ Nat.lt_succ_self _⟩⟩
      rw [scan85_completes _ _ hz hc hfour (hsum ▸ hrange), hsum]

/-- A `step` of DEC85 ends the run at an error, and takes it on otherwise (rules R141, R142). -/
theorem Decode85Progress.step (hs : Begun .dec85 s₀) (h : Decode85Progress out group s₀ s)
    (hip : s.ip.toNat < s₀.ilen.toNat) :
    ∃ t, decode85Step s = .next t ∧ (RunDone .dec85 s₀ t ∨
      (∃ out' group', Decode85Progress out' group' s₀ t) ∧ s.ip.toNat < t.ip.toNat) := by
  have hpar := h.goes.1.par
  have hin : s.ip.toNat < s.par.inMax := hpar ▸ hip.trans_le hs.fits
  by_cases hz : s.ibufByte s.ip.toNat = zeroChar
  · by_cases hgroup : group = []
    · obtain ⟨t, ht, htook⟩ := decode85Step_zero (hpar ▸ hs.sized) hin (h.inv hs) hz (h.nb_eq_zero_iff.2 hgroup)
      subst hgroup
      rw [h.acc, h.nb] at htook
      refine ⟨t, ht, .inr ⟨⟨_, _, h.took hip htook h.short h.digits (by simp) ?_⟩, htook.ip ▸ Nat.lt_succ_self _⟩⟩
      rw [hz, scan85_zero]
    · refine ⟨_, decode85Step_zero_inside hin hz (mt h.nb_eq_zero_iff.1 hgroup),
        .inl (runDone_of_raised h.goes.1 (h.outcome_error ?_))⟩
      rw [message_drop h.goes.1 hip, hz, scan85_zero_inside _ _ hgroup]
  · cases hc : charDigit (s.ibufByte s.ip.toNat) with
    | none =>
      refine ⟨_, decode85Step_foreign hin hz hc, .inl (runDone_of_raised h.goes.1 (h.outcome_error ?_))⟩
      rw [message_drop h.goes.1 hip, scan85_foreign _ _ hz hc]
    | some d =>
      rw [decode85Step_digit hin hz hc]
      exact h.digit hs hip hz hc

/-- The `end` of DEC85 ends the run (rules R141, R142). -/
theorem Decode85Progress.last (hs : Begun .dec85 s₀) (h : Decode85Progress out group s₀ s)
    (hip : s.ip.toNat = s₀.ilen.toNat) : ∃ t, decode85End s = .next t ∧ RunDone .dec85 s₀ t := by
  have hpar := h.goes.1.par
  have hilen := h.goes.1.ilen
  have hdrop : s₀.message.drop s.ip.toNat = [] := List.drop_of_length_le (by rw [message_length, hip])
  by_cases hgroup : group = []
  · refine ⟨_, decode85End_empty (h.nb_eq_zero_iff.2 hgroup), runDone_of_finished hs h.goes h.written ?_⟩
    rw [outcomeOf, h.rest, hdrop, hgroup]
    simp [scan85, Except.map]
  · have hnb : 0 < s.nb.toNat := Nat.pos_of_ne_zero (mt h.nb_eq_zero_iff.1 hgroup)
    have hsum : fillGroup (5 - s.nb.toNat) s.acc.toNat = groupSum group := by
      rw [h.nb, h.acc, fillGroup_groupValue (h.short.trans (by decide))]
    have hscan := scan85_last s.ip.toNat hgroup
    rcases Nat.lt_or_ge maxGroup (groupSum group) with hbad | hrange
    · refine ⟨_, decode85End_exceeds hnb hsum hbad,
        runDone_of_raised (h.goes.1.trans (Worked.setAcc _ _ s).host) (h.outcome_error ?_)⟩
      rw [hdrop, hscan, if_pos hbad, hip, hilen]
    · obtain ⟨u, hu, htook⟩ := decode85End_group (hpar ▸ hs.sized) (hpar ▸ hip.trans_le hs.fits) (h.inv hs) hnb hsum
        hrange
      refine ⟨_, hu, runDone_of_finished hs (continues_trans h.goes htook.goes)
        (h.written.trans htook.written) ?_⟩
      rw [outcomeOf, h.rest, hdrop, hscan, if_neg (Nat.not_lt.2 hrange), h.nb]
      rfl

end

/-- The progress of DEC85 is an induction on the characters that the scan of rule R141 takes in. -/
theorem decode85_progresses :
    Progresses .dec85 fun s₀ s => ∃ out group, Decode85Progress out group s₀ s where
  start s := ⟨[], [], started_decode85Progress s⟩
  goes := fun _ _ ⟨_, _, h⟩ => h.goes
  cursor := fun _ _ ⟨_, _, h⟩ => h.cursor
  step := fun _ _ _ hs ⟨_, _, h⟩ hip => h.step hs hip
  last := fun _ _ hs ⟨_, _, h⟩ hip => h.last hs hip

/-- The run of DEC85 from any idle state gives what rule R141 says. -/
theorem decode85_runGives : RunGives .dec85 := decode85_progresses.runGives

end Sys2Proof.Proofs
end

section
/-! PROOFS. The round trips (rules R126, R146): on the stateless rules for both kinds of container, and on the machine,
where a run computes its rule. -/

namespace Sys2Proof.Proofs

open Sys2Proof.Machine Sys2Proof.Certificates

/-! ### The bit-grouped families (rule R126) -/

/-- The bits of a window's value are the window. -/
theorem testBit_bitsValue {bit : Nat → Bool} {start n j : Nat} (hj : j < n) :
    (bitsValue bit start n).testBit (n - 1 - j) = bit (start + j) := by
  have hbit : bitsValue bit (start + j) 1 = (bit (start + j)).toNat := by simp [bitsValue_succ]
  have hwindow := bitsValue_window bit start (a := j) (c := 1) (n := n) hj
  rw [show n - (j + 1) = n - 1 - j by omega, hbit, pow_one] at hwindow
  rw [Nat.testBit_eq_decide_div_mod_eq, hwindow]
  cases bit (start + j) <;> rfl

/-- The values that the encoder writes for a message (rule R111). -/
def windowValues (w : Nat) (m : List Byte) : List Nat :=
  (List.range (symbolCount w m.length)).map fun k => bitsValue (streamBit m) (k * w) w

@[simp] theorem windowValues_length (w : Nat) (m : List Byte) :
    (windowValues w m).length = symbolCount w m.length := by simp [windowValues]

/-- Cut into windows and joined again, the stream is as before. -/
theorem symbolBit_windowValues {w t : Nat} {m : List Byte} (hw : 0 < w) (ht : t < w * symbolCount w m.length) :
    symbolBit w (windowValues w m) t = streamBit m t := by
  have hget : (windowValues w m).getD (t / w) 0 = bitsValue (streamBit m) (t / w * w) w := by
    simp [windowValues, Nat.div_lt_of_lt_mul ht]
  rw [symbolBit, hget, testBit_bitsValue (Nat.mod_lt t hw), Nat.div_add_mod']

/-- The windows hold the message and less than one byte more (rule R127). -/
theorem width_mul_symbolCount_div {w : Nat} (hw : 0 < w) (hw8 : w ≤ 8) (n : Nat) : w * symbolCount w n / 8 = n := by
  have hdiv := Nat.div_add_mod (8 * n + (w - 1)) w
  have hmod := Nat.mod_lt (8 * n + (w - 1)) hw
  rw [← symbolCount] at hdiv
  omega

/-- Regrouping the windows of a message gives the message. -/
theorem regroup_windowValues {w : Nat} (hw : 0 < w) (hw8 : w ≤ 8) (m : List Byte) :
    regroup w (windowValues w m) = m := by
  have hcount := width_mul_symbolCount_div hw hw8 m.length
  refine List.ext_getElem (by simp [hcount]) fun j _ hj => ?_
  have hbyte : bitsValue (symbolBit w (windowValues w m)) (8 * j) 8 = (m.getD j 0).toNat := by
    rw [← bitsValue_streamBit_byte]
    exact bitsValue_congr fun k hk => symbolBit_windowValues hw (by omega)
  simp [regroup, hbyte, hj]

/-- No entry of a table of rule R7 is `=`. -/
theorem tableWellFormed_pad {n : Nat} {table : List Byte} (h : tableWellFormed n table = true) : padChar ∉ table := by
  simp only [tableWellFormed, Bool.and_eq_true, Bool.not_eq_true', List.contains_eq_mem,
    decide_eq_false_iff_not] at h
  obtain ⟨-, hpad⟩ := h
  exact hpad

section
variable {g : Grouped} (hg : DecoderFamily g)
include hg

/-- The lookup of a `w`-bit value is an entry of the table (rule R83). -/
theorem forward_eq {v : Nat} (hv : v < 2 ^ g.width) : g.table[v]? = some (g.forward v) := by
  have hlen : v < g.table.length := hv.trans_eq (tableWellFormed_length hg.table).symm
  rw [Grouped.forward, List.getD_eq_getElem _ _ hlen, List.getElem?_eq_getElem hlen]

/-- The decoder reads every symbol back as its value. -/
theorem inverse_forward {v : Nat} (hv : v < 2 ^ g.width) : g.inverse (g.forward v) = some v :=
  (inverse_eq_some_iff (tableWellFormed_nodup hg.table)).2 (forward_eq hg hv)

theorem forward_ne_pad {v : Nat} (hv : v < 2 ^ g.width) : g.forward v ≠ padChar :=
  fun h => tableWellFormed_pad hg.table (h ▸ List.mem_of_getElem? (forward_eq hg hv))

theorem encodeSymbols_accepted (m : List Byte) (count : Nat) : ∀ c ∈ encodeSymbols g m count, Accepted g c := by
  intro c hc
  obtain ⟨k, -, rfl⟩ := List.mem_map.1 hc
  have hlt := bitsValue_lt (streamBit m) (k * g.width) g.width
  exact ⟨forward_ne_pad hg hlt, by rw [inverse_forward hg hlt]; rfl⟩

theorem symbolValues_encodeSymbols (m : List Byte) :
    symbolValues g (encodeSymbols g m (symbolCount g.width m.length)) = windowValues g.width m := by
  rw [symbolValues, encodeSymbols, List.map_map, windowValues]
  refine List.map_congr_left fun k _ => ?_
  rw [Function.comp, inverse_forward hg (bitsValue_lt _ _ _), Option.getD_some]

/-- A decoder gives back what the encoder of its family wrote (rule R126). -/
theorem decodeGrouped_encodeGrouped (m : List Byte) : decodeGrouped g (encodeGrouped g m) = .ok m := by
  have hsymbols : decodeGrouped g (encodeSymbols g m (symbolCount g.width m.length)) = .ok m := by
    rw [decodeGrouped_accepted (encodeSymbols_accepted hg m _), symbolValues_encodeSymbols hg,
      regroup_windowValues hg.width_pos hg.width_le]
  rw [encodeGrouped_eq]
  cases g.padCount (symbolCount g.width m.length) with
  | zero => rw [List.replicate_zero, List.append_nil, hsymbols]
  | succ k => rw [List.replicate_succ, decodeGrouped_append_pad, hsymbols]

end

/-! ### Base-85 (rule R146) -/

/-- The first `k + 1` digits of a 32-bit value (rule R131). -/
def leadingDigits (v k : Nat) : List Nat := (List.range (k + 1)).map fun i => v / 85 ^ (4 - i) % 85

@[simp] theorem leadingDigits_length (v k : Nat) : (leadingDigits v k).length = k + 1 := by simp [leadingDigits]

theorem leadingDigits_le {v k d : Nat} (h : d ∈ leadingDigits v k) : d ≤ 84 := by
  obtain ⟨i, -, rfl⟩ := List.mem_map.1 h
  have := Nat.mod_lt (v / 85 ^ (4 - i)) (show 0 < 85 by decide)
  omega

theorem leadingDigits_succ (v k : Nat) :
    leadingDigits v (k + 1) = leadingDigits v k ++ [v / 85 ^ (4 - (k + 1)) % 85] := by
  rw [leadingDigits, List.range_succ, List.map_append, List.map_singleton, leadingDigits]

/-- The leading digits as one number are the value without its last digits. -/
theorem groupValue_leadingDigits {v k : Nat} (hv : v < 85 ^ 5) (hk : k ≤ 4) :
    groupValue (leadingDigits v k) = v / 85 ^ (4 - k) := by
  induction k with
  | zero => simp [leadingDigits, groupValue]; omega
  | succ k ih =>
    rw [leadingDigits_succ, groupValue_snoc, ih (by omega), show 4 - k = 4 - (k + 1) + 1 by omega, pow_succ,
      ← Nat.div_div_eq_div_mul]
    exact Nat.div_add_mod' _ _

/-- Filled out with the digit 84, the leading digits stand for the value or one above it that agrees with it in the
bytes that count (rules R133, R144). -/
theorem groupSum_leadingDigits {v k : Nat} (hv : v < 85 ^ 5) (hk : k ≤ 4) :
    v ≤ groupSum (leadingDigits v k) ∧ groupSum (leadingDigits v k) < v + 85 ^ (4 - k) := by
  have hpos : 0 < 85 ^ (4 - k) := Nat.pow_pos (by decide)
  have hdiv := Nat.div_add_mod' v (85 ^ (4 - k))
  have hmod := Nat.mod_lt v hpos
  rw [← fillGroup_groupValue (by rw [leadingDigits_length]; omega), leadingDigits_length,
    groupValue_leadingDigits hv hk, show 5 - (k + 1) = 4 - k by omega, fillGroup_eq]
  omega

/-- The missing bytes of a short chunk count as 0 (rule R131). -/
theorem pow_dvd_chunkSum {c : List Byte} (h4 : c.length ≤ 4) : 2 ^ (8 * (4 - c.length)) ∣ chunkSum c := by
  match c, h4 with
  | [], _ => simp [chunkSum]
  | [a], _ => simp [chunkSum]
  | [a, b], _ => simp [chunkSum]; omega
  | [a, b, c], _ => simp [chunkSum]; omega
  | [a, b, c, d], _ => simp [chunkSum]

/-- So there is room in 32 bits above a short chunk's value. -/
theorem chunkSum_add_le {c : List Byte} (h4 : c.length ≤ 4) : chunkSum c + 2 ^ (8 * (4 - c.length)) ≤ 2 ^ 32 := by
  obtain ⟨q, hq⟩ := pow_dvd_chunkSum h4
  have hsplit : 2 ^ 32 = 2 ^ (8 * (4 - c.length)) * 2 ^ (8 * c.length) := by rw [← pow_add]; congr 1; omega
  have hlt := chunkSum_lt c
  rw [hq, hsplit] at hlt
  rw [hq, hsplit, ← Nat.mul_succ]
  exact Nat.mul_le_mul_left _ (Nat.succ_le_of_lt (Nat.lt_of_mul_lt_mul_left hlt))

/-- The leading bytes of a value are told by its leading bits. -/
theorem bigEndian_take_congr {v u k : Nat} (hk : k ≤ 4) (h : v / 2 ^ (8 * (4 - k)) = u / 2 ^ (8 * (4 - k))) :
    (bigEndian v).take k = (bigEndian u).take k := by
  rw [← leadingBytes_eq _ _ hk, ← leadingBytes_eq _ _ hk]
  refine List.map_congr_left fun j hj => ?_
  have hsplit : 24 - 8 * j = 8 * (4 - k) + 8 * (k - 1 - j) := by have := List.mem_range.1 hj; omega
  rw [Nat.shiftRight_eq_div_pow, Nat.shiftRight_eq_div_pow, hsplit, pow_add, ← Nat.div_div_eq_div_mul, h,
    Nat.div_div_eq_div_mul]

theorem take_length_of_length_le {c : List Byte} (h4 : c.length ≤ 4) :
    [c.getD 0 0, c.getD 1 0, c.getD 2 0, c.getD 3 0].take c.length = c := by
  match c, h4 with
  | [], _ => rfl
  | [a], _ => rfl
  | [a, b], _ => rfl
  | [a, b, c], _ => rfl
  | [a, b, c, d], _ => rfl

/-- The bytes of a chunk are the leading bytes of its value. -/
theorem bigEndian_chunkSum {c : List Byte} (h4 : c.length ≤ 4) : (bigEndian (chunkSum c)).take c.length = c := by
  have hbytes : bigEndian (chunkSum c) = [c.getD 0 0, c.getD 1 0, c.getD 2 0, c.getD 3 0] := by
    have hbyte (i : Nat) : (c.getD i 0).toNat < 256 := (c.getD i 0).isLt
    have h0 := hbyte 0
    have h1 := hbyte 1
    have h2 := hbyte 2
    have h3 := hbyte 3
    simp only [bigEndian, chunkSum, List.cons.injEq, and_true, ← BitVec.toNat_inj, BitVec.toNat_ofNat]
    omega
  rw [hbytes, take_length_of_length_le h4]

/-- They are the leading bytes of every value from there up to the next chunk's. -/
theorem bigEndian_take {c : List Byte} {v : Nat} (h4 : c.length ≤ 4) (hlo : chunkSum c ≤ v)
    (hhi : v < chunkSum c + 2 ^ (8 * (4 - c.length))) : (bigEndian v).take c.length = c := by
  obtain ⟨q, hq⟩ := pow_dvd_chunkSum h4
  have hpos : 0 < 2 ^ (8 * (4 - c.length)) := Nat.two_pow_pos _
  have hdiv : v / 2 ^ (8 * (4 - c.length)) = chunkSum c / 2 ^ (8 * (4 - c.length)) := by
    rw [hq, Nat.mul_div_cancel_left _ hpos, Nat.div_eq_of_lt_le]
    · rw [Nat.mul_comm, ← hq]; exact hlo
    · rw [Nat.mul_comm, Nat.mul_succ, ← hq]; exact hhi
  rw [bigEndian_take_congr h4 hdiv, bigEndian_chunkSum h4]

theorem digitChar_ne_zeroChar {d : Nat} (h : d ≤ 84) : digitChar d ≠ zeroChar := fun heq => by
  have hcode : d + 33 = zeroChar.toNat := (digitChar_toNat h).symm.trans (congrArg BitVec.toNat heq)
  have hz : zeroChar.toNat = 122 := rfl
  omega

/-- The scan takes in digits that do not fill a group. -/
theorem scan85_digits (rest : List Byte) {digits : List Nat} (pos : Nat) (group : List Nat)
    (hd : ∀ d ∈ digits, d ≤ 84) (hlen : group.length + digits.length ≤ 4) :
    scan85 (digits.map digitChar ++ rest) pos group = scan85 rest (pos + digits.length) (group ++ digits) := by
  induction digits generalizing pos group with
  | nil => simp
  | cons d digits ih =>
    have hle := hd d List.mem_cons_self
    rw [List.length_cons] at hlen
    rw [List.map_cons, List.cons_append,
      scan85_joins _ _ (digitChar_ne_zeroChar hle) (charDigit_digitChar hle) (by omega),
      ih _ _ (fun x hx => hd x (List.mem_cons_of_mem _ hx)) (by simp; omega), List.append_assoc, List.length_cons,
      Nat.add_assoc, Nat.add_comm 1]
    rfl

/-- The text of a chunk that is not written `z` is its leading digits (rule R131). -/
theorem chunkText_digits {c : List Byte} (h : ¬(c.length = 4 ∧ chunkSum c = 0)) :
    chunkText c = (leadingDigits (chunkSum c) c.length).map digitChar := by
  rw [chunkText, if_neg h, leadingDigits, List.map_map]
  rfl

theorem chunkSum_lt_pow (c : List Byte) : chunkSum c < 85 ^ 5 := (chunkSum_lt c).trans (by decide)

/-- The text of a full chunk gives the chunk back, and the scan goes on (rule R146). -/
theorem scan85_fullChunk (rest : List Byte) (pos : Nat) {c : List Byte} (h : c.length = 4) :
    ∃ pos', scan85 (chunkText c ++ rest) pos [] = (scan85 rest pos' []).map (c ++ ·) := by
  have hbytes : bigEndian (chunkSum c) = c := by
    have := bigEndian_chunkSum h.le
    rwa [h, List.take_of_length_le (by simp [bigEndian])] at this
  by_cases hzero : chunkSum c = 0
  · refine ⟨pos + 1, ?_⟩
    rw [chunkText, if_pos ⟨h, hzero⟩, List.singleton_append, scan85_zero, ← hbytes, hzero]
    rfl
  · have hle : chunkSum c / 85 ^ (4 - 4) % 85 ≤ 84 := by omega
    have hsum : groupSum (leadingDigits (chunkSum c) 3 ++ [chunkSum c / 85 ^ (4 - 4) % 85]) = chunkSum c := by
      rw [← leadingDigits_succ, groupSum_full (by simp), groupValue_leadingDigits (chunkSum_lt_pow c) le_rfl]
      simp
    have hrange : chunkSum c ≤ maxGroup := Nat.le_of_lt_succ (chunkSum_lt c)
    refine ⟨pos + 4 + 1, ?_⟩
    rw [chunkText_digits fun hz => hzero hz.2, h, leadingDigits_succ, List.map_append, List.append_assoc,
      scan85_digits _ _ _ (fun d => leadingDigits_le) (by simp), List.nil_append, List.map_singleton,
      List.singleton_append, scan85_completes _ _ (digitChar_ne_zeroChar hle) (charDigit_digitChar hle) (by simp)
        (hsum.trans_le hrange), hsum, hbytes]
    rfl

/-- The text of a short chunk at the end gives the chunk back (rules R144, R146). -/
theorem scan85_shortChunk (pos : Nat) {c : List Byte} (h4 : c.length < 4) :
    scan85 (chunkText c) pos [] = .ok c := by
  have hle : 85 ^ (4 - c.length) ≤ 2 ^ (8 * (4 - c.length)) := by
    rw [pow_mul]
    exact Nat.pow_le_pow_left (by decide) _
  obtain ⟨hlo, hhi⟩ := groupSum_leadingDigits (chunkSum_lt_pow c) h4.le
  have hroom := chunkSum_add_le h4.le
  have hrange : ¬maxGroup < groupSum (leadingDigits (chunkSum c) c.length) := by rw [maxGroup]; omega
  have hscan := scan85_digits [] pos [] (fun d => leadingDigits_le (v := chunkSum c) (k := c.length))
    (by simpa using h4)
  rw [List.append_nil, List.nil_append] at hscan
  rw [chunkText_digits fun hz => h4.ne hz.1, hscan, scan85_last _ (List.ne_nil_of_length_pos (by simp)),
    if_neg hrange, leadingDigits_length, Nat.add_sub_cancel, bigEndian_take h4.le hlo (by omega)]

/-- Behind any position, the scan of a container gives the message (rule R146). -/
theorem scan85_encode85 (m : List Byte) (pos : Nat) : scan85 (encode85 m) pos [] = .ok m := by
  induction hn : m.length using Nat.strong_induction_on generalizing m pos with
  | _ n ih =>
    by_cases hm : m = []
    · rw [hm]
      rfl
    · rcases Nat.lt_or_ge m.length 4 with hlt | hge
      · rw [encode85_of_length_le hm hlt.le, scan85_shortChunk pos hlt]
      · obtain ⟨pos', hscan⟩ := scan85_fullChunk (encode85 (m.drop 4)) pos (c := m.take 4) (by simpa using hge)
        rw [encode85_chunk hm, hscan, ih (m.drop 4).length (by simp; omega) _ _ rfl]
        exact congrArg Except.ok (List.take_append_drop 4 m)

/-- DEC85 gives back what ENC85 wrote (rule R146). -/
theorem decode85_encode85 (m : List Byte) : decode85 (encode85 m) = .ok m := scan85_encode85 m 0

/-! ### On the machine -/

/-- Two operations whose runs compute their rules make a round trip on the machine when their rules do. -/
theorem machineRoundTrip_of_runGives {i j : Instr} (hi : RunGives i) (hj : RunGives j)
    (h : ∀ (p : Params) (m : List Byte), p.wellFormed = true →
      ∃ text, outcomeOf p m i = .ok text ∧ outcomeOf p text j = .ok m) :
    MachineRoundTrip i j := by
  intro s u hwf hb hfits
  obtain ⟨text, hencoded, hdecoded⟩ := h s.par s.message hwf
  obtain ⟨t, ht, hshows, -⟩ := hi s hwf hb hfits
  rw [hencoded] at hshows
  obtain ⟨-, -, -, htext⟩ := hshows
  refine ⟨t, ht, fun hpar hbu hfitsu hmessage => ?_⟩
  obtain ⟨r, hr, hshows, -⟩ := hj u (hpar ▸ hwf) hbu hfitsu
  rw [hpar, hmessage, htext, hdecoded] at hshows
  obtain ⟨hstatus, -, -, hresult⟩ := hshows
  exact ⟨r, hr, hstatus, hresult⟩

/-- Settles O32: every run computes its rule, and the rules make the round trip. -/
theorem roundTripOnTheMachine : Obligations.RoundTripOnTheMachine :=
  ⟨machineRoundTrip_of_runGives enc5_encoder.runGives dec5_decoder.progresses.runGives fun _ m hwf =>
      ⟨_, rfl, decodeGrouped_encodeGrouped (grouped5_decoderFamily hwf) m⟩,
    machineRoundTrip_of_runGives enc6_encoder.runGives dec6_decoder.progresses.runGives fun _ m hwf =>
      ⟨_, rfl, decodeGrouped_encodeGrouped (grouped6_decoderFamily hwf) m⟩,
    machineRoundTrip_of_runGives encode85_runGives decode85_runGives fun _ m _ => ⟨_, rfl, decode85_encode85 m⟩⟩

end Sys2Proof.Proofs
end

section
/-! PROOFS. ENC85 on the machine against the stateless encoder (rule R131). -/

namespace Sys2Proof.Proofs

open Sys2Proof.Machine Sys2Proof.Certificates

/-- Settles O28: a run of ENC85 progresses chunk by chunk as rule R131 says (`Encode85Progress`: the chunks before the
cursor are written, which a `step` carries one chunk on), and the run's end reports all of them. -/
theorem encode85ComputesItsRule : Obligations.Encode85ComputesItsRule := encode85_runGives

end Sys2Proof.Proofs
end

section
/-! PROOFS. DEC85 on the machine against the stateless decoder (rule R141). -/

namespace Sys2Proof.Proofs

open Sys2Proof.Machine Sys2Proof.Certificates

/-- Settles O29: a run of DEC85 progresses character by character as rule R141 says (`Decode85Progress`: the closed
groups are written, the open one is in the accumulator, and the scan from the cursor on says the rest), and the first
error of that scan, or the `end` of its last group, is what the run reports. -/
theorem decode85ComputesItsRule : Obligations.Decode85ComputesItsRule := decode85_runGives

end Sys2Proof.Proofs
end

section
/-! PROOFS. A report lasts (rule R189): reset and the write of CMD aside, an input to an idle block leaves the engine's
side of the state alone; and every write of CMD ends the old report. -/

namespace Sys2Proof.Proofs

open Sys2Proof.Machine Sys2Proof.Certificates

/-! ### The engine's side of the state -/

/-- What no host transaction but the write of CMD changes (rule R54): CMD, the report, OBUF with its draw, and the
hidden registers. -/
structure EngineSideSame (s t : State) : Prop where
  cmd : t.cmd = s.cmd
  report : ReportSame s t
  obuf : t.obuf = s.obuf
  resets : t.resets = s.resets
  datapath : DatapathSame s t

theorem EngineSideSame.result {s t : State} (h : EngineSideSame s t) : t.result = s.result := by
  have hbyte : t.obufByte = s.obufByte := by
    funext j
    simp only [State.obufByte, h.obuf, h.resets]
  rw [State.result, State.result, h.report.olen, hbyte]

/-- ILEN, IBUF and the model's record of the outside world are the host's side. -/
theorem engineSideSame_update (s : State) (ilen : Word) (ibuf : Memory) (inputs : List Input) (answers : List Answer) :
    EngineSideSame s { s with ilen := ilen, ibuf := ibuf, inputs := inputs, answers := answers } :=
  ⟨rfl, ⟨rfl, rfl, rfl⟩, rfl, rfl, ⟨rfl, rfl, rfl, rfl⟩⟩

/-- A transaction other than the write of CMD, refused or served, keeps to the host's side (rules R54, R55). -/
theorem transact_engineSideSame {q : Transaction} {rest : List Input} {s t : State} (hq : ∀ v, q ≠ .wrReg 0 v)
    (h : transact q (s.setInputs rest) = .next t) : EngineSideSame s t := by
  obtain ⟨-, rfl⟩ | ⟨-, ⟨k, -, rfl⟩ | ⟨i, -, rfl⟩ | ⟨j, -, rfl⟩ | ⟨v, -, rfl⟩ | ⟨i, b, -, -, rfl⟩ | ⟨v, -, hcmd, -⟩⟩ :=
    transact_cases h
  case inr.inr.inr.inr.inr.inr => exact absurd hcmd (hq v)
  all_goals exact engineSideSame_update s _ _ _ _

/-- An idle engine's turn does nothing (rule R168). -/
theorem engineTurn_engineSideSame {rest : List Input} {s t : State} (hb : s.busy = false)
    (h : engineTurn (s.setInputs rest) = .next t) : EngineSideSame s t := by
  rw [engineTurn_idle (s := s.setInputs rest) hb] at h
  cases h
  exact engineSideSame_update s _ _ _ _

/-- A step of an idle block keeps the engine's side, whatever its input, if that is neither reset nor a write of CMD. -/
theorem step_engineSideSame {s t : State} (hb : s.busy = false) (h : step s = .next t)
    (hcmd : ∀ v rest, s.inputs ≠ .txn (.wrReg 0 v) :: rest) (hreset : ∀ rest, s.inputs ≠ .reset :: rest) :
    EngineSideSame s t := by
  obtain ⟨hi, hturn⟩ | ⟨rest, -, hturn⟩ | ⟨q, rest, hi, htxn⟩ | ⟨rest, hi, -⟩ := step_cases h
  · exact engineTurn_engineSideSame (rest := s.inputs) hb hturn
  · exact engineTurn_engineSideSame hb hturn
  · exact transact_engineSideSame (fun v hq => hcmd v rest (hq ▸ hi)) htxn
  · exact absurd hi (hreset rest)

/-! ### The write of CMD -/

theorem statusBusy_bit1 : statusBusy.getLsbD 1 = false := by decide
theorem statusError_bit1 (e : ErrorCode) : (statusError e).getLsbD 1 = false := by cases e <;> decide

/-- Whatever the trigger decides, it does not leave DONE set (rule R80). -/
theorem commandTrigger_done (v : Word) (s : State) : (commandTrigger v s).done = false := by
  unfold commandTrigger
  split
  · exact statusError_bit1 .eIllop
  · split
    · exact statusError_bit1 .eLen
    · exact statusBusy_bit1

/-- Settles O57: a step with any other input keeps the engine's side of the state, and a command write is the trigger,
which clears the report. -/
theorem reportLasts : Obligations.ReportLasts := by
  intro s t hb h
  constructor
  · intro hcmd hreset
    have same := step_engineSideSame hb h hcmd hreset
    exact ⟨same.report, same.cmd, same.obuf, same.result, same.datapath⟩
  · intro v rest hi
    rw [step_wrReg_cmd hb hi] at h
    cases h
    have latched := commandTrigger_latched v (s.setInputs rest)
    exact ⟨latched.olen, latched.epos, commandTrigger_done v _⟩

end Sys2Proof.Proofs
end

section
/-! PROOFS. Every operation's run (rules R22, R191, R193): all six progress as their stateless rules say, so an outcome
depends on the parameters and the message alone; and the round trips on the stateless rules (rules R126, R146). -/

namespace Sys2Proof.Proofs

open Sys2Proof.Machine Sys2Proof.Certificates

/-! ### The round trips -/

/-- Settles O30: both families are decoder families, and a decoder gives back what its family's encoder wrote. -/
theorem groupedRoundTrip : Obligations.GroupedRoundTrip := fun _ m hwf =>
  ⟨decodeGrouped_encodeGrouped (grouped5_decoderFamily hwf) m,
    decodeGrouped_encodeGrouped (grouped6_decoderFamily hwf) m⟩

/-- Settles O31: the scan of a container gives the message chunk by chunk (`scan85_encode85`). -/
theorem base85RoundTrip : Obligations.Base85RoundTrip := decode85_encode85

/-! ### Every operation progresses as its rule says -/

/-- The progress of an encoder's run is the induction on `IP` of rule R111. -/
theorem EncoderOf.progresses {i : Instr} {g : Params → Grouped} (hi : EncoderOf i g) :
    Progresses i fun s₀ => EncodeProgress (g s₀.par) s₀ where
  start s := started_encodeProgress _ i s
  goes _ _ h := h.goes
  cursor _ _ h := h.cursor
  step s₀ s _ hs h hip := by
    obtain ⟨t, ht, hprogress, hipt⟩ := h.step (hi.family _) hs hip
    exact ⟨t, by rw [hi.step, h.goes.1.par, ht], .inr ⟨hprogress, by omega⟩⟩
  last s₀ s hs h hip := by
    obtain ⟨t, ht, hdone⟩ := h.finishes (hi.family _) hs hip
    refine ⟨t, by rw [hi.last, h.goes.1.par, ht], hdone.report.1, ?_⟩
    rw [hi.outcome]
    exact shows_of_finishes hs hdone.report hdone.written

theorem exists_progresses (i : Instr) : ∃ Going, Progresses i Going := by
  cases i with
  | enc5 => exact ⟨_, enc5_encoder.progresses⟩
  | dec5 => exact ⟨_, dec5_decoder.progresses⟩
  | enc6 => exact ⟨_, enc6_encoder.progresses⟩
  | dec6 => exact ⟨_, dec6_decoder.progresses⟩
  | enc85 => exact ⟨_, encode85_progresses⟩
  | dec85 => exact ⟨_, decode85_progresses⟩

/-- A run of any operation from any idle state gives what its stateless rule says. -/
theorem runGives (i : Instr) : RunGives i := by
  obtain ⟨_, hi⟩ := exists_progresses i
  exact hi.runGives

/-! ### Noninterference -/

/-- Two states that show one outcome have the same report and the same result. -/
theorem same_of_shows {o : Outcome} {t t' : State} (h : t.shows o) (h' : t'.shows o) :
    t.status = t'.status ∧ t.olen = t'.olen ∧ t.epos = t'.epos ∧ t.result = t'.result := by
  match o, h, h' with
  | .ok _, ⟨hst, hep, hol, hres⟩, ⟨hst', hep', hol', hres'⟩ =>
    exact ⟨hst.trans hst'.symm, BitVec.eq_of_toNat_eq (hol.trans hol'.symm), hep.trans hep'.symm,
      hres.trans hres'.symm⟩
  | .error _, ⟨hst, hep, hol⟩, ⟨hst', hep', hol'⟩ =>
    exact ⟨hst.trans hst'.symm, hol.trans hol'.symm, hep.trans hep'.symm, by simp [State.result, hol, hol']⟩

/-- Settles O33: both runs show the outcome of their message by the stateless rule, and the messages are the same. -/
theorem outcomeDependsOnTheMessageOnly : Obligations.OutcomeDependsOnTheMessageOnly := by
  intro i s s' hwf hpar hb hb' hilen hfits hbytes
  have hmessage : s'.message = s.message := by
    rw [State.message, hilen]
    exact List.map_congr_left fun k hk => hbytes k (List.mem_range.1 hk)
  obtain ⟨t, ht, hshows, -⟩ := runGives i s hwf hb hfits
  obtain ⟨t', ht', hshows', -⟩ := runGives i s' (by rw [hpar]; exact hwf) hb' (by rw [hilen, hpar]; exact hfits)
  rw [hmessage, hpar] at hshows'
  exact ⟨t, t', ht, ht', same_of_shows hshows hshows'⟩

end Sys2Proof.Proofs
end

section
/-! PROOFS. The bounds of a run (rules R21, R22, R53): each operation's start meets them, each of its actions has a next
state, and a `step` that goes on keeps them and moves the input cursor. -/

namespace Sys2Proof.Proofs

open Sys2Proof.Machine Sys2Proof.Certificates

/-- No state is both BUSY and idle. -/
theorem not_busy_and_idle {s : State} (hb : s.busy = true) (hidle : s.busy = false) : False := by
  rw [hb] at hidle
  cases hidle

/-! ### The start -/

/-- The bounds hold where all hidden registers are 0 (rule R80). -/
theorem runInv_of_cleared (i : Instr) {s : State} (hfits : s.ilen.toNat ≤ s.par.inMax) (hacc : s.acc = 0)
    (hnb : s.nb = 0) (hip : s.ip = 0) (hop : s.op = 0) : RunInv i s where
  fits := hfits
  cursor := by simp [hip]
  bounds := by
    cases i with
    | enc5 => exact ⟨by simp [hacc, hnb], by simp [hnb], by simp [hop, hnb, hip]⟩
    | enc6 => exact ⟨by simp [hacc, hnb], by simp [hnb], by simp [hop, hnb, hip]⟩
    | dec5 => exact ⟨by simp [hacc, hnb], by simp [hnb], by simp [hop, hnb, hip]⟩
    | dec6 => exact ⟨by simp [hacc, hnb], by simp [hnb], by simp [hop, hnb, hip]⟩
    | enc85 => exact ⟨by simp [hacc], hnb, by simp [hip], by simp [hop]⟩
    | dec85 => exact ⟨by simp [hacc, hnb], by simp [hnb], by simp [hnb], by simp [hop]⟩

/-! ### One action of each kind -/

/-- Up to 15 bits complete as many bytes as they hold: one or none. -/
theorem completedByte_length {n : Nat} (x : Nat) (h : n < 16) : (completedByte x n).length = n / 8 := by
  unfold completedByte
  split
  case isTrue hlt => rw [List.length_nil, Nat.div_eq_of_lt hlt]
  case isFalse hge =>
    rw [List.length_singleton]
    omega

/-- An action of the run in `s` has a next state, which is idle, or the run goes on in it within the bounds `Bounds`
with its input cursor moved, but not beyond the message. -/
def KeepsBounds (Bounds : State → Prop) (s : State) (r : Result) : Prop :=
  ∃ t, r = .next t ∧ (t.busy = false ∨
    Continues s t ∧ Bounds t ∧ s.ip.toNat < t.ip.toNat ∧ t.ip.toNat ≤ s.ilen.toNat)

section
variable {s : State} (hp : Params.sized s.par) (hfits : s.ilen.toNat ≤ s.par.inMax)
include hp hfits

theorem encodeStep_keepsBounds {g : Grouped} (hg : EncoderFamily g) (inv : EncodeInv g.width s)
    (hip : s.ip.toNat < s.ilen.toNat) : KeepsBounds (EncodeInv g.width) s (encodeStep g s) := by
  have hw := hg.width_pos
  obtain ⟨t, ht, hgoes, hem, hnb, hacc, hipt⟩ := encodeStep_spec hg hp (hip.trans_le hfits) inv rfl rfl
  refine ⟨t, ht, .inr ⟨hgoes, ⟨?_, hnb ▸ Nat.mod_lt _ hw, ?_⟩, by omega, by omega⟩⟩
  · rw [hacc, hnb]
    exact Nat.mod_lt _ (Nat.two_pow_pos _)
  · have hop : t.op.toNat = s.op.toNat + (s.nb.toNat + 8) / g.width := by
      rw [hem.op, drainSymbols_eq _ _ _ _ hw le_rfl]
      simp
    rw [hop, hnb, Nat.mul_add, Nat.add_assoc, Nat.div_add_mod, hipt, ← Nat.add_assoc, inv.progress, Nat.mul_succ]

theorem encodeEnd_keepsBounds {g : Grouped} (hg : EncoderFamily g) (inv : EncodeInv g.width s)
    (hip : s.ip.toNat = s.ilen.toNat) : KeepsBounds (EncodeInv g.width) s (encodeEnd g s) := by
  obtain ⟨t, ht, hreport, -⟩ := encodeEnd_spec hg hp (hip.trans_le hfits) inv
  exact ⟨t, ht, .inl (idle_of_finishes hreport)⟩

theorem decodeStep_keepsBounds {g : Grouped} (hg : DecoderFamily g) (inv : DecodeInv g.width s)
    (hip : s.ip.toNat < s.ilen.toNat) : KeepsBounds (DecodeInv g.width) s (decodeStep g s) := by
  have hin := hip.trans_le hfits
  by_cases hpad : s.ibufByte s.ip.toNat = padChar
  · exact ⟨_, decodeStep_pad hin hpad, .inl (State.finished_busy s)⟩
  · cases hinv : g.inverse (s.ibufByte s.ip.toNat) with
    | none => exact ⟨_, decodeStep_foreign hin hpad hinv, .inl (State.raised_busy _ _ s)⟩
    | some v =>
      obtain ⟨t, ht, htook⟩ := decodeSymbol_spec (hg.inverse_lt hinv) hg.width_le hp hin inv rfl rfl
      have hipt := htook.ip
      refine ⟨t, (decodeStep_symbol hin hpad hinv).trans ht,
        .inr ⟨htook.goes, ⟨?_, htook.nb ▸ Nat.mod_lt _ (by decide), ?_⟩, by omega, by omega⟩⟩
      · rw [htook.acc, htook.nb]
        exact Nat.mod_lt _ (Nat.two_pow_pos _)
      · have hnb := inv.nb
        have hw := hg.width_le
        rw [htook.written.op, completedByte_length _ (by omega), htook.nb, hipt, Nat.mul_succ, ← inv.progress]
        omega

theorem encode85Step_keepsBounds (inv : Encode85Inv s) (hip : s.ip.toNat < s.ilen.toNat) :
    KeepsBounds Encode85Inv s (encode85Step s) := by
  obtain ⟨t, ht, htook⟩ := encode85Step_spec hp hfits hip inv rfl
  have haligned : s.ip.toNat % 4 = 0 := inv.aligned.resolve_right fun h => hip.ne (congrArg BitVec.toNat h)
  have hipt : t.ip.toNat = s.ip.toNat + min 4 (s.ilen.toNat - s.ip.toNat) := htook.ip
  have hilen : t.ilen = s.ilen := htook.goes.1.ilen
  refine ⟨t, ht, .inr ⟨htook.goes, ⟨htook.acc ▸ chunkSum_lt _, BitVec.eq_of_toNat_eq htook.nb, ?_, ?_⟩,
    by omega, by omega⟩⟩
  · rcases Nat.le_or_le 4 (s.ilen.toNat - s.ip.toNat) with hfull | hshort
    · exact .inl (by omega)
    · exact .inr (BitVec.eq_of_toNat_eq (by rw [hilen]; omega))
  · have hlen := chunkText_length_le ((s.message.drop s.ip.toNat).take 4)
    have hprogress := inv.progress
    rw [if_pos haligned] at hprogress
    rw [List.length_take, List.length_drop, message_length] at hlen
    rw [htook.written.op]
    split <;> omega

theorem decode85Digit_keepsBounds (inv : Decode85Inv s) (hip : s.ip.toNat < s.ilen.toNat) {d : Nat} (hd : d ≤ 84) :
    KeepsBounds Decode85Inv s (decode85Digit d s) := by
  have hin := hip.trans_le hfits
  have hprogress := inv.progress
  have hgroup := inv.group
  rcases inv.nb.lt_or_eq with hlt | hfour
  · obtain ⟨t, ht, htook⟩ := decode85Digit_joins hp hin inv hd hlt
    have hipt := htook.ip
    have hop := htook.written.op
    rw [List.length_nil] at hop
    refine ⟨t, ht, .inr ⟨htook.goes, ⟨?_, ?_, ?_, ?_⟩, by omega, by omega⟩⟩
    · rw [htook.acc, htook.nb, pow_succ]
      have := inv.acc
      omega
    · rw [htook.nb]; omega
    · rw [htook.nb]; omega
    · rw [htook.nb]; omega
  · rcases Nat.lt_or_ge maxGroup (s.acc.toNat * 85 + d) with hbad | hrange
    · exact ⟨_, decode85Digit_exceeds hfour hbad, .inl (State.raised_busy _ _ _)⟩
    · obtain ⟨t, ht, htook⟩ := decode85Digit_completes hp hin inv hfour hrange
      have hipt := htook.ip
      have hop := htook.written.op
      have hlen : (bigEndian (s.acc.toNat * 85 + d)).length = 4 := rfl
      refine ⟨t, ht, .inr ⟨htook.goes, ⟨?_, ?_, ?_, ?_⟩, by omega, by omega⟩⟩
      · simp [htook.acc, htook.nb]
      · simp [htook.nb]
      · simp [htook.nb]
      · rw [htook.nb]; omega

theorem decode85Step_keepsBounds (inv : Decode85Inv s) (hip : s.ip.toNat < s.ilen.toNat) :
    KeepsBounds Decode85Inv s (decode85Step s) := by
  have hin := hip.trans_le hfits
  by_cases hz : s.ibufByte s.ip.toNat = zeroChar
  · by_cases hnb : s.nb.toNat = 0
    · obtain ⟨t, ht, htook⟩ := decode85Step_zero hp hin inv hz hnb
      have hipt := htook.ip
      have hop := htook.written.op
      have hprogress := inv.progress
      have hlen : ([0, 0, 0, 0] : List Byte).length = 4 := rfl
      refine ⟨t, ht, .inr ⟨htook.goes, ⟨?_, ?_, ?_, ?_⟩, by omega, by omega⟩⟩
      · rw [htook.acc, htook.nb]; exact inv.acc
      · rw [htook.nb]; exact inv.nb
      · rw [htook.nb]; omega
      · rw [htook.nb]; omega
    · exact ⟨_, decode85Step_zero_inside hin hz hnb, .inl (State.raised_busy _ _ s)⟩
  · cases hc : charDigit (s.ibufByte s.ip.toNat) with
    | none => exact ⟨_, decode85Step_foreign hin hz hc, .inl (State.raised_busy _ _ s)⟩
    | some d =>
      rw [decode85Step_digit hin hz hc]
      exact decode85Digit_keepsBounds hp hfits inv hip (charDigit_le hc)

theorem decode85End_keepsBounds (inv : Decode85Inv s) (hip : s.ip.toNat = s.ilen.toNat) :
    KeepsBounds Decode85Inv s (decode85End s) := by
  rcases Nat.eq_zero_or_pos s.nb.toNat with hnb | hnb
  · exact ⟨_, decode85End_empty hnb, .inl (State.finished_busy s)⟩
  · rcases Nat.lt_or_ge maxGroup (fillGroup (5 - s.nb.toNat) s.acc.toNat) with hbad | hrange
    · exact ⟨_, decode85End_exceeds hnb rfl hbad, .inl (State.raised_busy _ _ _)⟩
    · obtain ⟨u, hu, -⟩ := decode85End_group hp (hip.trans_le hfits) inv hnb rfl hrange
      exact ⟨_, hu, .inl (State.finished_busy u)⟩

end

theorem finish_keepsBounds (Bounds : State → Prop) (s : State) : KeepsBounds Bounds s (finish s) :=
  ⟨_, finish_eq s, .inl (State.finished_busy s)⟩

/-! ### Every operation -/

/-- An operation's own bounds, kept by an action, are the run's: the message still fits, with the cursor in it. -/
theorem KeepsBounds.runInv {i : Instr} {Bounds : State → Prop} {s : State} {r : Result}
    (hk : KeepsBounds Bounds s r) (hfits : s.ilen.toNat ≤ s.par.inMax)
    (mk : ∀ t : State, t.ilen.toNat ≤ t.par.inMax → t.ip.toNat ≤ t.ilen.toNat → Bounds t → RunInv i t) :
    KeepsBounds (RunInv i) s r := by
  obtain ⟨t, ht, hend⟩ := hk
  refine ⟨t, ht, hend.imp_right fun ⟨hgoes, hbounds, hlt, hle⟩ => ⟨hgoes, mk t ?_ ?_ hbounds, hlt, hle⟩⟩
  · rw [hgoes.1.ilen, hgoes.1.par]
    exact hfits
  · rw [hgoes.1.ilen]
    exact hle

section
variable {i : Instr} {s : State} (hwf : s.par.wellFormed = true) (h : RunInv i s)
include hwf h

theorem step_keepsBounds (hip : s.ip.toNat < s.ilen.toNat) : KeepsBounds (RunInv i) s ((actionsOf i).1 s) := by
  have hp : Params.sized s.par := (Params.wellFormed_iff.1 hwf).1
  obtain ⟨hfits, -, hbounds⟩ := h
  cases i with
  | enc5 =>
    exact (encodeStep_keepsBounds hp hfits (grouped5_family _) hbounds hip).runInv hfits
      fun _ => .mk (i := .enc5)
  | enc6 =>
    exact (encodeStep_keepsBounds hp hfits (grouped6_family _) hbounds hip).runInv hfits
      fun _ => .mk (i := .enc6)
  | dec5 =>
    exact (decodeStep_keepsBounds hp hfits (grouped5_decoderFamily hwf) hbounds hip).runInv hfits
      fun _ => .mk (i := .dec5)
  | dec6 =>
    exact (decodeStep_keepsBounds hp hfits (grouped6_decoderFamily hwf) hbounds hip).runInv hfits
      fun _ => .mk (i := .dec6)
  | enc85 =>
    exact (encode85Step_keepsBounds hp hfits hbounds hip).runInv hfits
      fun _ => .mk (i := .enc85)
  | dec85 =>
    exact (decode85Step_keepsBounds hp hfits hbounds hip).runInv hfits
      fun _ => .mk (i := .dec85)

theorem end_keepsBounds (hip : s.ip.toNat = s.ilen.toNat) : KeepsBounds (RunInv i) s ((actionsOf i).2 s) := by
  have hp : Params.sized s.par := (Params.wellFormed_iff.1 hwf).1
  obtain ⟨hfits, -, hbounds⟩ := h
  cases i with
  | enc5 =>
    exact (encodeEnd_keepsBounds hp hfits (grouped5_family _) hbounds hip).runInv hfits
      fun _ => .mk (i := .enc5)
  | enc6 =>
    exact (encodeEnd_keepsBounds hp hfits (grouped6_family _) hbounds hip).runInv hfits
      fun _ => .mk (i := .enc6)
  | dec5 | dec6 | enc85 => exact finish_keepsBounds _ s
  | dec85 =>
    exact (decode85End_keepsBounds hp hfits hbounds hip).runInv hfits
      fun _ => .mk (i := .dec85)

/-- Within its bounds a running operation's next action has a next state, ends the run or keeps the bounds and moves
the cursor (rules R21, R22, R191). -/
theorem exec_keepsBounds (hb : s.busy = true) : KeepsBounds (RunInv i) s (exec i s) := by
  rcases h.cursor.lt_or_eq with hlt | heq
  · rw [exec_step i hb hlt]
    exact step_keepsBounds hwf h hlt
  · rw [exec_end i hb heq]
    exact end_keepsBounds hwf h heq

end

/-- Within its bounds a run has not filled OBUF (rule R53). -/
theorem op_le_of_runInv {i : Instr} {s : State} (h : RunInv i s) : s.op.toNat ≤ s.par.outMax := by
  obtain ⟨hfits, hcursor, hbounds⟩ := h
  rw [Params.outMax]
  cases i with
  | enc5 => have := hbounds.progress; omega
  | enc6 => have := hbounds.progress; omega
  | dec5 => have := hbounds.progress; omega
  | dec6 => have := hbounds.progress; omega
  | enc85 =>
    have := hbounds.progress
    split at this <;> omega
  | dec85 => have := hbounds.progress; omega

end Sys2Proof.Proofs
end

section
/-! PROOFS. The invariant of the machine (rules R7, R21, R22, R26 to R31): it holds after reset, every step keeps it, no
step stops where it holds, and a running operation ends (rule R191). -/

namespace Sys2Proof.Proofs

open Sys2Proof.Machine Sys2Proof.Certificates

/-! ### The outside world has no part in the invariant -/

/-- `s` with other inputs to come and other answers given. -/
def withWorld (inputs : List Input) (answers : List Answer) (s : State) : State :=
  { s with inputs := inputs, answers := answers }

theorem runInv_withWorld {i : Instr} {s : State} (inputs : List Input) (answers : List Answer) (h : RunInv i s) :
    RunInv i (withWorld inputs answers s) := by
  obtain ⟨hfits, hcursor, hbounds⟩ := h
  refine ⟨hfits, hcursor, ?_⟩
  cases i with
  | enc5 | enc6 | dec5 | dec6 => exact ⟨hbounds.acc, hbounds.nb, hbounds.progress⟩
  | enc85 => exact ⟨hbounds.acc, hbounds.nb, hbounds.aligned, hbounds.progress⟩
  | dec85 => exact ⟨hbounds.acc, hbounds.nb, hbounds.group, hbounds.progress⟩

theorem inv_withWorld {s : State} (inputs : List Input) (answers : List Answer) (h : s.Inv) :
    (withWorld inputs answers s).Inv :=
  ⟨h.params, h.ibuf, h.obuf, h.status, h.olen, h.epos, fun hb => by
    obtain ⟨i, hi, hrun⟩ := h.run hb
    exact ⟨i, hi, runInv_withWorld inputs answers hrun⟩⟩

theorem inv_setInputs {s : State} (rest : List Input) (h : s.Inv) : (s.setInputs rest).Inv :=
  inv_withWorld rest s.answers h

theorem inv_pushAnswer {s : State} (a : Answer) (h : s.Inv) : (s.pushAnswer a).Inv :=
  inv_withWorld s.inputs (s.answers ++ [a]) h

/-! ### What the invariant says while BUSY, and of an idle block -/

theorem sized_inMax_lt {p : Params} (h : Params.sized p) : p.inMax < 2 ^ 32 :=
  h.2.trans_lt (by norm_num)

/-- The only legal STATUS with BUSY set is `0x01` (rule R26). -/
theorem status_of_busy {s : State} (h : s.status ∈ statusValues) (hb : s.busy = true) : s.status = statusBusy := by
  have hall : statusValues.all (fun v => !v.getLsbD 0 || v == statusBusy) = true := by decide
  have hone : (!s.status.getLsbD 0 || s.status == statusBusy) = true := List.all_eq_true.1 hall _ h
  rw [show s.status.getLsbD 0 = true from hb] at hone
  simpa using hone

/-- While BUSY there is no error position yet (rule R29). -/
theorem epos_of_busy {s : State} (h : s.Inv) (hb : s.busy = true) : s.epos = 0 := by
  by_contra hne
  have hstatus := status_of_busy h.status hb
  rcases h.epos.2 hne with he | he | he
  all_goals exact absurd (hstatus.symm.trans he) (by decide)

/-- While BUSY there is no result yet (rule R28). -/
theorem olen_of_busy {s : State} (h : s.Inv) (hb : s.busy = true) : s.olen = 0 := by
  by_contra hne
  exact absurd ((status_of_busy h.status hb).symm.trans (h.olen.2 hne)) (by decide)

/-- While BUSY the run of the operation in CMD is within its bounds. -/
theorem runInv_of_busy {i : Instr} {s : State} (h : s.Inv) (hb : s.busy = true) (hi : decode s.cmd = .ok i) :
    RunInv i s := by
  obtain ⟨j, hj, hrun⟩ := h.run hb
  rw [hi] at hj
  cases hj
  exact hrun

/-- The invariant of an idle block whose report is empty: what a command refused or reset leaves. -/
theorem inv_of_emptyReport {s : State} (hparams : s.par.wellFormed = true)
    (hibuf : Memory.wf s.ibuf ∧ ∀ c ∈ s.ibuf, c.1 < s.par.inMax)
    (hobuf : Memory.wf s.obuf ∧ ∀ c ∈ s.obuf, c.1 < s.par.outMax) (hstatus : s.status ∈ statusValues)
    (holen : s.olen = 0) (hepos : s.epos = 0) (hrun : s.busy = true → ∃ i, decode s.cmd = .ok i ∧ RunInv i s) :
    s.Inv where
  params := hparams
  ibuf := hibuf
  obuf := hobuf
  status := hstatus
  olen := by simp [holen]
  epos := by
    obtain ⟨⟨hpos, -⟩, -⟩ := Params.wellFormed_iff.1 hparams
    simp [hepos]
    omega
  run := hrun

/-- The invariant holds after reset, whatever the parameters of rule R7 are. -/
theorem inv_atReset {p : Params} (h : p.wellFormed = true) (r : Nat) (inputs : List Input) (answers : List Answer) :
    (State.atReset p r inputs answers).Inv :=
  inv_of_emptyReport h ⟨Memory.wf_nil, by simp [State.atReset]⟩ ⟨Memory.wf_nil, by simp [State.atReset]⟩
    List.mem_cons_self rfl rfl fun hb => (not_busy_and_idle hb ((State.busy_of_status (v := 0) rfl).trans rfl)).elim

/-! ### The command trigger -/

theorem selectOperation_eq_none_iff {c : BitVec 2} {d : Bool} : selectOperation c d = none ↔ c = 3 := by
  revert c d
  decide

/-- A word that the trigger takes is a command (rules R79, R80). -/
theorem decode_of_legal {v : Word} (h : illegalCommand v = false) : ∃ i, decode v = .ok i := by
  have hlegal : ¬(fieldRsv v ≠ 0 ∨ fieldCodec v = 3) := mt illegalCommand_iff.2 (by simp [h])
  obtain ⟨hrsv, hcodec⟩ := not_or.1 hlegal
  cases hsel : selectOperation (fieldCodec v) (fieldDir v) with
  | none => exact absurd (selectOperation_eq_none_iff.1 hsel) hcodec
  | some i => exact ⟨i, decode_eq_ok_iff.2 ⟨not_not.1 hrsv, hsel⟩⟩

theorem statusBusy_mem : statusBusy ∈ statusValues := by decide
theorem statusDone_mem : statusDone ∈ statusValues := by decide
theorem statusError_mem (e : ErrorCode) : statusError e ∈ statusValues := by cases e <;> decide

/-- A refused command leaves an idle block with an empty report. -/
theorem inv_refusedCommand {s : State} (v : Word) (e : ErrorCode) (h : s.Inv) :
    (s.latchCommand v (statusError e)).Inv :=
  inv_of_emptyReport h.params h.ibuf h.obuf (statusError_mem e) rfl rfl fun hb =>
    (not_busy_and_idle hb (statusError_bit0 e)).elim

/-- The command trigger keeps the invariant: a command it takes starts within the bounds of its run (rule R80). -/
theorem inv_commandTrigger {s : State} (v : Word) (h : s.Inv) : (commandTrigger v s).Inv := by
  unfold commandTrigger
  split
  case isTrue => exact inv_refusedCommand v .eIllop h
  case isFalse hlegal =>
    split
    case isTrue => exact inv_refusedCommand v .eLen h
    case isFalse hlen =>
      obtain ⟨i, hi⟩ := decode_of_legal (by simpa using hlegal)
      exact inv_of_emptyReport h.params h.ibuf h.obuf statusBusy_mem rfl rfl fun _ =>
        ⟨i, hi, runInv_of_cleared i (Nat.not_lt.1 hlen) rfl rfl rfl rfl⟩

/-! ### The port -/

/-- A write of ILEN or IBUF that the port serves finds the block idle (rule R56). -/
theorem idle_of_served_write {q : Transaction} {s : State} (h : portRefuses q s = false)
    (hq : (∃ v, q = .wrReg 2 v) ∨ ∃ i b, q = .wrIbuf i b) : s.busy = false := by
  by_contra hb
  have hbusy : s.busy = true := by simpa using hb
  have hrefused : portRefuses q s = true := by
    refine (portRefuses_busy hbusy).2 ?_
    rcases hq with ⟨v, rfl⟩ | ⟨i, b, rfl⟩ <;> simp
  rw [h] at hrefused
  cases hrefused

theorem inv_setIlen {s : State} (v : Word) (h : s.Inv) (hb : s.busy = false) : (s.setIlen v).Inv :=
  ⟨h.params, h.ibuf, h.obuf, h.status, h.olen, h.epos, fun hc => (not_busy_and_idle hc hb).elim⟩

theorem inv_storeIbuf {s : State} {i : Nat} (b : Byte) (h : s.Inv) (hb : s.busy = false) (hi : i < s.par.inMax) :
    (s.storeIbuf i b).Inv :=
  ⟨h.params, ⟨Memory.wf_write _ _ h.ibuf.1, Memory.range_write _ hi h.ibuf.2⟩, h.obuf, h.status, h.olen, h.epos,
    fun hc => (not_busy_and_idle hc hb).elim⟩

/-- Every transaction keeps the invariant (rules R54, R55). -/
theorem transact_keeps_inv {q : Transaction} {s t : State} (hs : s.Inv) (h : transact q s = .next t) : t.Inv := by
  obtain ⟨-, rfl⟩ | ⟨hserved, ⟨k, -, rfl⟩ | ⟨i, -, rfl⟩ | ⟨j, -, rfl⟩ | ⟨v, hq, rfl⟩ | ⟨i, b, hq, hi, rfl⟩ |
      ⟨v, u, -, hb, hu, rfl⟩⟩ := transact_cases h
  · exact inv_pushAnswer _ hs
  · exact inv_pushAnswer _ hs
  · exact inv_pushAnswer _ hs
  · exact inv_pushAnswer _ hs
  · exact inv_pushAnswer _ (inv_setIlen v hs (idle_of_served_write hserved (.inl ⟨v, hq⟩)))
  · exact inv_pushAnswer _ (inv_storeIbuf b hs (idle_of_served_write hserved (.inr ⟨i, b, hq⟩)) hi)
  · rw [writeCommand_eq hb fun _ => decode_eq_ok_iff_encode.1] at hu
    cases hu
    exact inv_pushAnswer _ (inv_commandTrigger v hs)

/-! ### The engine -/

section
variable {s u : State} (hs : s.Inv) (hw : Worked s u)
include hs hw

theorem params_of_worked : u.par.wellFormed = true := by
  rw [hw.host.par]
  exact hs.params

theorem ibuf_of_worked : Memory.wf u.ibuf ∧ ∀ c ∈ u.ibuf, c.1 < u.par.inMax := by
  rw [hw.host.ibuf, hw.host.par]
  exact hs.ibuf

/-- Work that goes on keeps the invariant when it keeps the bounds of the run. -/
theorem inv_of_goes {i : Instr} (hb : s.busy = true) (hi : decode s.cmd = .ok i) (hrun : RunInv i u) : u.Inv :=
  inv_of_emptyReport (params_of_worked hs hw) (ibuf_of_worked hs hw) (hw.obuf hs.obuf)
    (by rw [hw.report.status]; exact hs.status) (hw.report.olen.trans (olen_of_busy hs hb))
    (hw.report.epos.trans (epos_of_busy hs hb)) fun _ => ⟨i, by rw [hw.host.cmd]; exact hi, hrun⟩

/-- Success reports an output that lies in OBUF, and no error position (rules R28, R29, R155). -/
theorem inv_of_finishes (hb : s.busy = true) (hop : s.op.toNat ≤ s.par.outMax) : u.finished.Inv where
  params := params_of_worked (u := u) hs hw
  ibuf := ibuf_of_worked (u := u) hs hw
  obuf := hw.obuf hs.obuf
  status := statusDone_mem
  olen := ⟨hw.room (Params.sized_outMax hs.sized) hop, fun _ => rfl⟩
  epos := by
    have hepos : u.epos = s.epos := hw.report.epos
    rw [State.finished_epos, State.finished_par, hepos, hw.host.par]
    exact ⟨hs.epos.1, fun hne => absurd (epos_of_busy hs hb) hne⟩
  run := fun hc => (not_busy_and_idle hc (State.finished_busy u)).elim

/-- An error of a scan reports a position inside the message (rules R28, R29, R156). -/
theorem inv_of_raises {e : ErrorCode} {pos : Nat} (he : e = .eSym ∨ e = .eZpos ∨ e = .eRange)
    (hpos : pos < s.par.inMax) : (u.raised e pos).Inv where
  params := params_of_worked (u := u) hs hw
  ibuf := ibuf_of_worked (u := u) hs hw
  obuf := hw.obuf hs.obuf
  status := statusError_mem e
  olen := ⟨Nat.zero_le _, fun hne => absurd rfl hne⟩
  epos := by
    have hlt := sized_inMax_lt hs.sized
    refine ⟨?_, fun _ => he.imp (congrArg statusError) (Or.imp (congrArg statusError) (congrArg statusError))⟩
    rw [State.raised_epos, State.raised_par, hw.host.par, BitVec.toNat_ofNat, Nat.mod_eq_of_lt (by omega)]
    exact hpos
  run := fun hc => (not_busy_and_idle hc (State.raised_busy e pos u)).elim

end

/-- Bits or digits are held only of bytes taken in. -/
theorem ip_pos_of_nb_pos {i : Instr} {s : State} (h : RunInv i s) (hnb : 0 < s.nb.toNat) : 0 < s.ip.toNat := by
  obtain ⟨-, -, hbounds⟩ := h
  cases i with
  | enc5 | enc6 | dec5 | dec6 => have := hbounds.progress; omega
  | enc85 => simp [hbounds.nb] at hnb
  | dec85 => exact hnb.trans_le hbounds.group

/-- The position of an error of a scan is an index of the message (rule R151). -/
theorem errorPos_lt {i : Instr} {s : State} {pos : Nat} (h : RunInv i s)
    (hp : (pos = s.ip.toNat ∧ s.ip.toNat < s.ilen.toNat) ∨
      (pos = s.ilen.toNat - 1 ∧ s.ip.toNat = s.ilen.toNat ∧ 0 < s.nb.toNat)) : pos < s.ilen.toNat := by
  rcases hp with ⟨rfl, hlt⟩ | ⟨rfl, heq, hnb⟩
  · exact hlt
  · have := ip_pos_of_nb_pos h hnb
    omega

/-- An action of the running operation keeps the invariant. -/
theorem exec_keeps_inv {i : Instr} {s t : State} (hs : s.Inv) (hb : s.busy = true) (hi : decode s.cmd = .ok i)
    (h : exec i s = .next t) : t.Inv := by
  have hrun := runInv_of_busy hs hb hi
  cases exec_end_cases hb h with
  | goes hw =>
    obtain ⟨t', ht', hend⟩ := exec_keepsBounds hs.params hrun hb
    cases h.symm.trans ht'
    obtain hidle | ⟨-, hkept, -⟩ := hend
    · have hbusy : t.busy = true := by rw [State.busy, hw.report.status]; exact hb
      exact (not_busy_and_idle hbusy hidle).elim
    · exact inv_of_goes hs hw hb hi hkept
  | finishes u hw ht => exact ht ▸ inv_of_finishes hs hw hb (op_le_of_runInv hrun)
  | raises e pos u hw _ he hp ht =>
    have hfits := hrun.fits
    exact ht ▸ inv_of_raises hs hw he ((errorPos_lt hrun hp).trans_le hfits)

/-- The engine's turn keeps the invariant. -/
theorem engineTurn_keeps_inv {s t : State} (hs : s.Inv) (h : engineTurn s = .next t) : t.Inv := by
  obtain ⟨-, rfl⟩ | ⟨i, hb, hi, hexec⟩ := engineTurn_cases h
  · exact hs
  · exact exec_keeps_inv hs hb hi hexec

/-- Where the invariant holds, the engine's turn has a next state. -/
theorem engineTurn_goesOn {s : State} (hs : s.Inv) : ∃ t, engineTurn s = .next t := by
  cases hb : s.busy with
  | false => exact ⟨s, engineTurn_idle hb⟩
  | true =>
    obtain ⟨i, hi, hrun⟩ := hs.run hb
    obtain ⟨t, ht, -⟩ := exec_keepsBounds hs.params hrun hb
    exact ⟨t, (engineTurn_busy hb hi).trans ht⟩

/-! ### The statements -/

/-- Settles O50: the reset state's report is empty, its buffers hold nothing written, and no operation runs. -/
theorem resetMeetsTheInvariant : Obligations.ResetMeetsTheInvariant :=
  inv_atReset (by decide) 0 [] []

/-- Settles O51: the engine's turn, a transaction and reset each keep the invariant. -/
theorem stepKeepsTheInvariant : Obligations.StepKeepsTheInvariant := by
  intro s t hs h
  obtain ⟨-, hturn⟩ | ⟨rest, -, hturn⟩ | ⟨q, rest, -, htxn⟩ | ⟨rest, -, rfl⟩ := step_cases h
  · exact engineTurn_keeps_inv hs hturn
  · exact engineTurn_keeps_inv (inv_setInputs rest hs) hturn
  · exact transact_keeps_inv (inv_setInputs rest hs) htxn
  · exact inv_atReset hs.params _ _ _

/-- Settles O52: a transaction is refused or served, and the engine's turn goes on within the bounds of its run. -/
theorem stepNeverStops : Obligations.StepNeverStops := by
  intro s hs
  match hi : s.inputs with
  | [] => exact step_idle_queue hi ▸ engineTurn_goesOn hs
  | .engine :: rest => exact step_engine hi ▸ engineTurn_goesOn (inv_setInputs rest hs)
  | .reset :: rest => exact ⟨_, step_reset hi⟩
  | .txn q :: rest =>
    rw [step_txn hi]
    cases hr : portRefuses q (s.setInputs rest) with
    | true => exact ⟨_, transact_refused hr⟩
    | false =>
      obtain ⟨t, -, ht, -⟩ := transact_served hr
      exact ⟨t, ht⟩

/-- Settles O53: each turn of the engine ends the operation, or keeps the bounds of its run and moves its input
cursor. -/
theorem everyOperationEnds : Obligations.EveryOperationEnds := by
  intro s hs hb halone
  obtain ⟨i, hi, hrun⟩ := hs.run hb
  have hrunning : Running i s := ⟨hb, decode_eq_ok_iff_encode.1 hi, halone⟩
  have hturn : ∀ u, Continues s u ∧ RunInv i u → ∃ t, exec i u = .next t ∧ ((t.busy = false ∧ t.inputs = []) ∨
      (Continues s t ∧ RunInv i t) ∧ s.ilen.toNat - t.ip.toNat < s.ilen.toNat - u.ip.toNat) := by
    rintro u ⟨hgoes, hu⟩
    have hbusy := (hrunning.of_continues hgoes).busy
    obtain ⟨t, ht, hidle | ⟨hon, hinv, hlt, hle⟩⟩ := exec_keepsBounds (hgoes.1.par ▸ hs.params) hu hbusy
    · have hinputs := (exec_end_cases hbusy ht).host.inputs
      exact ⟨t, ht, .inl ⟨hidle, by rw [hinputs, hgoes.1.inputs, halone]⟩⟩
    · rw [hgoes.1.ilen] at hle
      exact ⟨t, ht, .inr ⟨⟨continues_trans hgoes hon, hinv⟩, by omega⟩⟩
  obtain ⟨t, ht, hidle, -⟩ := run_of_turns (fun _ hu => hrunning.of_continues hu.1) (fun _ hend => hend) hturn
    ⟨continues_refl s, hrun⟩ (Nat.lt_succ_self _)
  exact ⟨_, t, le_rfl, ht, hidle⟩

end Sys2Proof.Proofs
end

section
/-! PROOFS. RUN as a host performs it (rules R22, R98, R191): an engine action does not look at what the host does, so
the polls of RUN do not disturb the run between them, and the first poll after its end finds its outcome. -/

namespace Sys2Proof.Proofs

open Sys2Proof.Machine Sys2Proof.Certificates

/-! ### An engine action does not look at the outside world -/

/-- Wherever the action `f` has a next state, it has the same one whatever the host does next and was answered. -/
def IgnoresWorld (f : State → Result) : Prop :=
  ∀ (inputs : List Input) (answers : List Answer) (s t : State), f s = .next t →
    f (withWorld inputs answers s) = .next (withWorld inputs answers t)

theorem finish_ignoresWorld : IgnoresWorld finish := by
  intro _ _ _ _ h
  cases h
  rfl

theorem raise_ignoresWorld (e : ErrorCode) (pos : Nat) : IgnoresWorld (raise e pos) := by
  intro _ _ _ _ h
  cases h
  rfl

theorem emitAll_ignoresWorld (bs : List Byte) : IgnoresWorld (emitAll bs) := by
  intro inputs answers s t h
  induction bs generalizing s with
  | nil => cases h; rfl
  | cons b rest ih =>
    by_cases hroom : s.op.toNat < s.par.outMax
    · rw [emitAll, if_pos hroom] at h
      rw [emitAll]
      exact (if_pos hroom).trans (ih _ h)
    · rw [emitAll, if_neg hroom] at h
      cases h

theorem andThen_ignoresWorld {f g : State → Result} (hf : IgnoresWorld f) (hg : IgnoresWorld g) :
    IgnoresWorld fun s => andThen (f s) g := by
  intro inputs answers s t h
  obtain ⟨u, hu, hgu⟩ := andThen_eq_next.1 h
  exact andThen_eq_next.2 ⟨_, hf _ _ _ _ hu, hg _ _ _ _ hgu⟩

/-- The engine's read finds the same byte; what the action does with it is for the action to say. -/
theorem fetchInput_ignoresWorld {k : State → Byte → Result} (hk : ∀ b, IgnoresWorld fun s => k s b) :
    IgnoresWorld fun s => fetchInput s (k s) := by
  intro inputs answers s t h
  obtain ⟨hin, h⟩ := fetchInput_eq_next.1 h
  exact fetchInput_eq_next.2 ⟨hin, hk _ _ _ _ _ h⟩

/-- A choice by what the world does not change. -/
theorem ite_ignoresWorld {P : State → Prop} [DecidablePred P] {f g : State → Result}
    (hP : ∀ inputs answers s, P (withWorld inputs answers s) ↔ P s) (hf : IgnoresWorld f) (hg : IgnoresWorld g) :
    IgnoresWorld fun s => if P s then f s else g s := by
  intro inputs answers s t h
  by_cases hp : P s
  · simp only [hp, if_true] at h
    simp only [(hP inputs answers s).2 hp, if_true]
    exact hf _ _ _ _ h
  · simp only [hp, if_false] at h
    simp only [mt (hP inputs answers s).1 hp, if_false]
    exact hg _ _ _ _ h

theorem encodeStep_ignoresWorld (g : Grouped) : IgnoresWorld (encodeStep g) :=
  fetchInput_ignoresWorld fun _ _ _ _ _ h => emitAll_ignoresWorld _ _ _ _ _ h

theorem encodeEnd_ignoresWorld (g : Grouped) : IgnoresWorld (encodeEnd g) := by
  have htail : IgnoresWorld (encodeTail g) :=
    ite_ignoresWorld (fun _ _ _ => Iff.rfl) (fun _ _ _ _ h => emitAll_ignoresWorld _ _ _ _ _ h)
      fun _ _ _ _ h => by cases h; rfl
  exact andThen_ignoresWorld htail
    (andThen_ignoresWorld (fun _ _ _ _ h => emitAll_ignoresWorld _ _ _ _ _ h) finish_ignoresWorld)

theorem decodeSymbol_ignoresWorld (g : Grouped) (v : Nat) : IgnoresWorld (decodeSymbol g v) :=
  ite_ignoresWorld (P := fun s => 8 ≤ s.nb.toNat + g.width) (fun _ _ _ => Iff.rfl)
    (fun _ _ _ _ h => emitAll_ignoresWorld _ _ _ _ _ h) fun _ _ _ _ h => by cases h; rfl

theorem decodeStep_ignoresWorld (g : Grouped) : IgnoresWorld (decodeStep g) := by
  refine fetchInput_ignoresWorld fun c => ite_ignoresWorld (fun _ _ _ => Iff.rfl) finish_ignoresWorld ?_
  intro inputs answers s t h
  cases hinv : g.inverse c with
  | none => simp only [hinv] at h ⊢; exact raise_ignoresWorld _ _ _ _ _ _ h
  | some v => simp only [hinv] at h ⊢; exact decodeSymbol_ignoresWorld _ _ _ _ _ _ h

theorem encode85Step_ignoresWorld : IgnoresWorld encode85Step := by
  intro inputs answers s t h
  rw [encode85Step_eq] at h ⊢
  obtain ⟨hin, h⟩ := fetchChunk_eq_next.1 h
  exact fetchChunk_eq_next.2 ⟨hin, emitAll_ignoresWorld _ _ _ _ _ h⟩

theorem decode85Digit_ignoresWorld (d : Nat) : IgnoresWorld (decode85Digit d) :=
  ite_ignoresWorld (P := fun s => s.nb.toNat + 1 = 5) (fun _ _ _ => Iff.rfl)
    (ite_ignoresWorld (P := fun s => maxGroup < s.acc.toNat * 85 + d) (fun _ _ _ => Iff.rfl)
      (fun _ _ _ _ h => raise_ignoresWorld _ _ _ _ _ _ h) fun _ _ _ _ h => emitAll_ignoresWorld _ _ _ _ _ h)
    fun _ _ _ _ h => by cases h; rfl

theorem decode85Step_ignoresWorld : IgnoresWorld decode85Step := by
  refine fetchInput_ignoresWorld fun c => ite_ignoresWorld (fun _ _ _ => Iff.rfl) ?_ ?_
  · exact ite_ignoresWorld (P := fun s => s.nb.toNat ≠ 0) (fun _ _ _ => Iff.rfl)
      (fun _ _ _ _ h => raise_ignoresWorld _ _ _ _ _ _ h) fun _ _ _ _ h => emitAll_ignoresWorld _ _ _ _ _ h
  · intro inputs answers s t h
    cases hc : charDigit c with
    | none => simp only [hc] at h ⊢; exact raise_ignoresWorld _ _ _ _ _ _ h
    | some d => simp only [hc] at h ⊢; exact decode85Digit_ignoresWorld _ _ _ _ _ h

theorem decode85End_ignoresWorld : IgnoresWorld decode85End :=
  ite_ignoresWorld (P := fun s => 0 < s.nb.toNat) (fun _ _ _ => Iff.rfl)
    (ite_ignoresWorld (P := fun s => maxGroup < fillGroup (5 - s.nb.toNat) s.acc.toNat) (fun _ _ _ => Iff.rfl)
      (fun _ _ _ _ h => raise_ignoresWorld _ _ _ _ _ _ h)
      (andThen_ignoresWorld (fun _ _ _ _ h => emitAll_ignoresWorld _ _ _ _ _ h) finish_ignoresWorld))
    finish_ignoresWorld

theorem actionsOf_ignoreWorld (i : Instr) : IgnoresWorld (actionsOf i).1 ∧ IgnoresWorld (actionsOf i).2 := by
  cases i with
  | enc5 =>
    exact ⟨fun _ _ s => encodeStep_ignoresWorld (grouped5 s.par) _ _ s,
      fun _ _ s => encodeEnd_ignoresWorld (grouped5 s.par) _ _ s⟩
  | enc6 =>
    exact ⟨fun _ _ s => encodeStep_ignoresWorld (grouped6 s.par) _ _ s,
      fun _ _ s => encodeEnd_ignoresWorld (grouped6 s.par) _ _ s⟩
  | dec5 => exact ⟨fun _ _ s => decodeStep_ignoresWorld (grouped5 s.par) _ _ s, finish_ignoresWorld⟩
  | dec6 => exact ⟨fun _ _ s => decodeStep_ignoresWorld (grouped6 s.par) _ _ s, finish_ignoresWorld⟩
  | enc85 => exact ⟨encode85Step_ignoresWorld, finish_ignoresWorld⟩
  | dec85 => exact ⟨decode85Step_ignoresWorld, decode85End_ignoresWorld⟩

/-- A running operation's next action is the same whatever the host does (rule R22). -/
theorem exec_ignoresWorld {i : Instr} {s t : State} (inputs : List Input) (answers : List Answer) (hb : s.busy = true)
    (h : exec i s = .next t) : exec i (withWorld inputs answers s) = .next (withWorld inputs answers t) := by
  obtain ⟨hstep, hend⟩ := actionsOf_ignoreWorld i
  rw [exec_eq_operate] at h ⊢
  rcases operate_cases h with ⟨hn, -⟩ | ⟨-, hi, h⟩ | ⟨-, hi, h⟩
  · exact (not_busy_and_idle hb hn).elim
  · exact (operate_step (s := withWorld inputs answers s) hb hi).trans (hstep _ _ _ _ h)
  · exact (operate_end (s := withWorld inputs answers s) hb hi).trans (hend _ _ _ _ h)

/-- So is the engine's turn while BUSY. -/
theorem engineTurn_withWorld {i : Instr} {s t : State} (inputs : List Input) (answers : List Answer)
    (hs : Running i s) (h : exec i s = .next t) :
    engineTurn (withWorld inputs answers s) = .next (withWorld inputs answers t) := by
  have hturn : engineTurn (withWorld inputs answers s) = exec i (withWorld inputs answers s) :=
    engineTurn_busy (s := withWorld inputs answers s) hs.busy (hs.cmd ▸ decode_encode i)
  rw [hturn, exec_ignoresWorld inputs answers hs.busy h]

/-! ### The polls (rule R98) -/

/-- Without a turn for the engine the polls leave a running block as it is, and go on. -/
theorem hostPoll_noTurns {pauses : List Nat} {s : State} (hb : s.busy = true) (h : pauses.sum = 0) :
    ∃ t, hostPoll pauses s = .polling t ∧ t.status = s.status := by
  induction pauses generalizing s with
  | nil => exact ⟨s, rfl, rfl⟩
  | cons p rest ih =>
    obtain ⟨rfl, hrest⟩ : p = 0 ∧ rest.sum = 0 := by simpa using h
    rw [hostPoll_busy rest hb]
    exact ih (s := s.pushAnswer _) hb hrest

/-- What `RUN` has found at the poll that ends it: the run is over as its rule says, and the answers are one `0x01` for
each poll before this one, and the final STATUS. -/
def PollsEnd (i : Instr) (s₀ : State) (inputs : List Input) (answers : List Answer) (polls : Nat)
    (d : Dialogue Word) : Prop :=
  ∃ t k, k < polls ∧ RunDone i s₀ t ∧
    d = .done (withWorld inputs (answers ++ (List.replicate k (.okWord statusBusy) ++ [.okWord t.status])) t) t.status

/-- One more poll, before the engine's turns, was answered `0x01`. -/
theorem PollsEnd.cons {i : Instr} {s₀ : State} {inputs : List Input} {answers : List Answer} {polls : Nat}
    {d : Dialogue Word} (h : PollsEnd i s₀ inputs (answers ++ [.okWord statusBusy]) polls d) :
    PollsEnd i s₀ inputs answers (polls + 1) d := by
  obtain ⟨t, k, hk, hdone, hd⟩ := h
  refine ⟨t, k + 1, Nat.succ_lt_succ hk, hdone, hd.trans ?_⟩
  rw [List.replicate_succ, List.cons_append, List.append_assoc, List.singleton_append]

/-- With enough turns for the engine, the polls end at the first one after the end of the run. -/
theorem hostPoll_ends {i : Instr} {Going : State → State → Prop} (hi : Progresses i Going) {s₀ : State}
    (hwf : s₀.par.wellFormed = true) (hs : Begun i s₀) (hstatus : s₀.status = statusBusy) (inputs : List Input)
    {pauses : List Nat} {answers : List Answer} {u : State} (hu : Going s₀ u)
    (hturns : s₀.ilen.toNat - u.ip.toNat < pauses.sum) :
    PollsEnd i s₀ inputs answers pauses.length (hostPoll pauses (withWorld inputs answers u)) := by
  induction pauses generalizing answers u with
  | nil => simp at hturns
  | cons p rest ih =>
    induction p generalizing u with
    | zero =>
      have hgoes := hi.goes s₀ u hu
      have hbusy : u.busy = true := (hs.toRunning.of_continues hgoes).busy
      have hst : u.status = statusBusy := hgoes.2.status.trans hstatus
      have hpush : (withWorld inputs answers u).pushAnswer (.okWord u.status) =
          withWorld inputs (answers ++ [.okWord statusBusy]) u := by rw [hst]; rfl
      rw [hostPoll_busy rest (s := withWorld inputs answers u) hbusy]
      exact (hpush ▸ ih hu (by simpa using hturns)).cons
    | succ p ihp =>
      obtain ⟨t, ht, hturn⟩ := hi.turn hwf hs hu
      rw [hostPoll_turn rest (engineTurn_withWorld inputs answers (hs.toRunning.of_continues (hi.goes s₀ u hu)) ht)]
      rcases hturn with hdone | ⟨hgo, hlt⟩
      · refine ⟨t, 0, Nat.succ_pos _, hdone, ?_⟩
        exact hostPoll_idle p rest (s := withWorld inputs answers t) (idle_of_shows hdone.shows)
      · exact ihp hgo (by rw [List.sum_cons] at hturns ⊢; omega)

/-! ### RUN -/

/-- Settles O60: the command write starts the run; the polls do not disturb it, and each turn of the engine between them
takes it nearer to its end, where the next poll finds BUSY clear. -/
theorem runPollsUntilDone : Obligations.RunPollsUntilDone := by
  intro i s pauses hwf hb
  rw [hostRun_idle i pauses hb]
  refine ⟨fun hfits hturns => ?_, fun hfits hnone => ?_, fun hlong hne => ?_⟩
  · obtain ⟨Going, hi⟩ := exists_progresses i
    have hstart : (commandTrigger (encode i) s).pushAnswer .ok =
        withWorld s.inputs (s.answers ++ [.ok]) (started i s) := by
      rw [commandTrigger_start (illegalCommand_encode i) (Nat.not_lt.2 hfits)]
      rfl
    obtain ⟨t, k, hk, hdone, hd⟩ := hostPoll_ends hi (s₀ := started i s) hwf (started_begun i hwf hfits) rfl s.inputs
      (answers := s.answers ++ [.ok]) (hi.start s) ((Nat.sub_le _ _).trans_lt (Nat.lt_of_succ_le hturns))
    rw [hstart, hd]
    refine ⟨_, k, rfl, idle_of_shows hdone.shows, hk, hdone.shows, rfl, ?_⟩
    exact List.append_assoc _ _ _
  · rw [commandTrigger_start (illegalCommand_encode i) (Nat.not_lt.2 hfits)]
    exact hostPoll_noTurns statusBusy_bit0 hnone
  · obtain ⟨p, rest, hpauses⟩ := List.exists_cons_of_ne_nil hne
    rw [commandTrigger_tooLong (illegalCommand_encode i) hlong, hpauses,
      hostPoll_idle p rest (s := (s.latchCommand (encode i) (statusError .eLen)).pushAnswer .ok)
        (statusError_bit0 .eLen)]
    exact ⟨_, rfl, rfl, List.append_assoc _ _ _⟩

end Sys2Proof.Proofs
end

section
/-! PROOFS. The actions of the operations, one by one (rules R112, R113, R122, R123, R132, R142), and the padding of the
bit-grouped families (rules R89, R90). -/

namespace Sys2Proof.Proofs

open Sys2Proof.Machine Sys2Proof.Certificates

/-! ### Padding (rules R89, R90, R116) -/

theorem symbolCount5_mod (n : Nat) : symbolCount 5 n % 8 ∈ [0, 2, 4, 5, 7] := by
  simp only [symbolCount, List.mem_cons, List.not_mem_nil, or_false]
  omega

theorem symbolCount6_mod (n : Nat) : symbolCount 6 n % 4 ∈ [0, 2, 3] := by
  simp only [symbolCount, List.mem_cons, List.not_mem_nil, or_false]
  omega

/-- In the family `g` the padding of every message fills its last frame. -/
def FillsFrame (g : Grouped) : Prop :=
  ∀ n, g.padCount (symbolCount g.width n) = (g.frame - symbolCount g.width n % g.frame) % g.frame

theorem grouped5_fillsFrame (p : Params) : FillsFrame (grouped5 p) := by
  have htable : ∀ r ∈ [0, 2, 4, 5, 7], pad5.getD r 0 = (8 - r) % 8 := by decide
  exact fun n => htable _ (symbolCount5_mod n)

theorem grouped6_fillsFrame (p : Params) : FillsFrame (grouped6 p) := by
  have htable : ∀ r ∈ [0, 2, 3], pad6.getD r 0 = (4 - r) % 4 := by decide
  exact fun n => htable _ (symbolCount6_mod n)

/-- Settles O42: the padding table at each of the remainders that a message reaches. -/
theorem paddingFillsTheFrame : Obligations.PaddingFillsTheFrame := fun p n =>
  ⟨grouped5_fillsFrame p n, grouped6_fillsFrame p n, symbolCount5_mod n, symbolCount6_mod n⟩

/-- A count and what it lacks to the next multiple of `frame` are a multiple of it. -/
theorem add_lack_mod {frame : Nat} (h : 0 < frame) (count : Nat) :
    (count + (frame - count % frame) % frame) % frame = 0 := by
  have hdiv := Nat.div_add_mod count frame
  have hlt := Nat.mod_lt count h
  have hsum : count + (frame - count % frame) = frame * (count / frame + 1) := by rw [Nat.mul_succ]; omega
  rw [Nat.add_mod_mod, hsum, Nat.mul_mod_right]

/-! ### The bit-grouped encoders (rules R112, R113) -/

/-- At its `end` an encoder has written, with the short last window, the symbols of the bytes taken in (rule R89). -/
theorem symbols_of_encodeInv {g : Grouped} {s : State} (hw : 0 < g.width) (inv : EncodeInv g.width s) :
    s.op.toNat + (lastSymbol g.width g s).length = symbolCount g.width s.ip.toNat := by
  have hrest : 8 * s.ip.toNat % g.width = s.nb.toNat := by
    rw [← inv.progress, Nat.mul_add_mod, Nat.mod_eq_of_lt inv.nb]
  rw [symbolCount_eq hw, op_of_encodeInv hw inv, hrest, lastSymbol]
  by_cases h : s.nb = 0
  · simp [h]
  · have hne : s.nb.toNat ≠ 0 := fun h0 => h (BitVec.eq_of_toNat_eq h0)
    rw [if_neg h, if_neg hne]
    rfl

section
variable {i : Instr} {g : Params → Grouped} {w : Nat} (hi : EncoderOf i g) (hw : ∀ p, (g p).width = w)
  (hinv : ∀ s, RunInv i s → EncodeInv w s)
include hi hw hinv

/-- A `step` of an encoder, its loop in closed form. -/
theorem EncoderOf.stepSpec : EncodeStepSpec i w g := by
  intro s ⟨hb, hp, hrun, hip⟩
  have hwidth := hw s.par
  obtain ⟨t, ht, hgoes, hem, hnb, hacc, hipt⟩ := encodeStep_spec (hi.family s.par) hp (hip.trans_le hrun.fits)
    (hwidth ▸ hinv s hrun) rfl rfl
  rw [drainSymbols_eq _ _ _ _ (hi.family s.par).width_pos le_rfl, List.map_map, hwidth] at hem
  rw [hwidth] at hnb hacc
  exact ⟨t, by rw [exec_step i hb hip, hi.step, ht], hgoes, hem, hnb, hacc, hipt⟩

/-- The `end` of an encoder, its padding table in closed form. -/
theorem EncoderOf.endSpec {frame : Nat} (hpos : 0 < frame) (hframe : ∀ p, (g p).frame = frame)
    (hfills : ∀ p, FillsFrame (g p)) : EncodeEndSpec i w frame g := by
  intro s ⟨hb, hp, hrun, hip⟩
  have hwidth := hw s.par
  have inv : EncodeInv (g s.par).width s := hwidth ▸ hinv s hrun
  have hcount := symbols_of_encodeInv (hi.family s.par).width_pos inv
  obtain ⟨t, ht, hreport, hipt, hem⟩ := encodeEnd_spec (hi.family s.par) hp (hip.trans_le hrun.fits) inv
  rw [hcount, hfills, hframe, ← hcount, hwidth] at hem
  refine ⟨t, by rw [exec_end i hb hip, hi.last, ht], hreport, hipt, ?_, hem⟩
  rw [hem.op, List.length_append, List.length_replicate, ← Nat.add_assoc]
  exact add_lack_mod hpos _

end

/-- Settles O15: the loop's windows in closed form, for both encoders. -/
theorem groupedEncodersTakeAByte : Obligations.GroupedEncodersTakeAByte :=
  ⟨enc5_encoder.stepSpec (fun _ => rfl) fun _ h => h.bounds, enc6_encoder.stepSpec (fun _ => rfl) fun _ h => h.bounds⟩

/-- Settles O16: the symbols written are those of the bytes taken in, whose padding fills the frame. -/
theorem groupedEncodersPadAndFinish : Obligations.GroupedEncodersPadAndFinish :=
  ⟨enc5_encoder.endSpec (fun _ => rfl) (fun _ h => h.bounds) (by decide) (fun _ => rfl) grouped5_fillsFrame,
    enc6_encoder.endSpec (fun _ => rfl) (fun _ h => h.bounds) (by decide) (fun _ => rfl) grouped6_fillsFrame⟩

/-! ### The exits -/

theorem finishes_of_continues {s u : State} (h : Continues s u) : Finishes s u.finished := by
  obtain ⟨⟨cmd, ilen, ibuf, par, inputs, answers, resets⟩, hreport⟩ := h
  exact ⟨⟨cmd, ilen, ibuf, par, inputs, answers, resets⟩, rfl, rfl, hreport.epos⟩

theorem raises_of_continues {s u : State} (e : ErrorCode) (pos : Nat) (h : Continues s u) (hobuf : u.obuf = s.obuf) :
    Raises (statusError e) pos s (u.raised e pos) := by
  obtain ⟨⟨cmd, ilen, ibuf, par, inputs, answers, resets⟩, -⟩ := h
  exact ⟨⟨cmd, ilen, ibuf, par, inputs, answers, resets⟩, rfl, rfl, rfl, hobuf⟩

theorem continues_setAcc (x n : Nat) (s : State) : Continues s (s.setAcc x n) :=
  ⟨(Worked.setAcc x n s).host, (Worked.setAcc x n s).report⟩

/-! ### The bit-grouped decoders (rules R122, R123) -/

section
variable {i : Instr} {g : Params → Grouped} (hi : DecoderOf i g)
include hi

theorem DecoderOf.finishSpec : DecodeFinishSpec i := by
  rintro s (⟨⟨hb, -, hrun, hip⟩, hpad⟩ | ⟨hb, -, hrun, hip⟩)
  · exact ⟨_, by rw [exec_step i hb hip, hi.step, decodeStep_pad (hip.trans_le hrun.fits) hpad],
      finishes_of_continues (continues_refl s), rfl, ⟨rfl, rfl, rfl, rfl⟩⟩
  · exact ⟨_, by rw [exec_end i hb hip, hi.last, finish_eq], finishes_of_continues (continues_refl s), rfl,
      ⟨rfl, rfl, rfl, rfl⟩⟩

variable {table : Params → List Byte} (htable : ∀ p, (g p).table = table p)
include htable

theorem DecoderOf.foreignSpec : DecodeForeignSpec i table := by
  rintro s ⟨hb, -, hrun, hip⟩ hpad hforeign
  have hinv : (g s.par).inverse (s.ibufByte s.ip.toNat) = none := by
    rw [← Option.not_isSome_iff_eq_none, inverse_isSome_iff, htable]
    exact hforeign
  exact ⟨_, by rw [exec_step i hb hip, hi.step, decodeStep_foreign (hip.trans_le hrun.fits) hpad hinv],
    raises_of_continues .eSym _ (continues_refl s) rfl, ⟨rfl, rfl, rfl, rfl⟩⟩

theorem DecoderOf.symbolSpec {w : Nat} (hw : ∀ p, (g p).width = w) (hinv : ∀ s, RunInv i s → DecodeInv w s) :
    DecodeSymbolSpec i w table := by
  intro s v ⟨hb, hp, hrun, hip⟩ hwf hv
  have hg := hi.family s.par hwf
  have hwidth := hw s.par
  have hin := hip.trans_le hrun.fits
  rw [← htable] at hv
  have hinverse := (inverse_eq_some_iff (tableWellFormed_nodup hg.table)).2 hv
  have hpad : s.ibufByte s.ip.toNat ≠ padChar := fun hc =>
    tableWellFormed_pad hg.table (hc ▸ List.mem_of_getElem? hv)
  obtain ⟨t, ht, htook⟩ := decodeSymbol_spec (hg.inverse_lt hinverse) hg.width_le hp hin (hwidth ▸ hinv s hrun) rfl rfl
  rw [hwidth] at htook
  exact ⟨t, by rw [exec_step i hb hip, hi.step, decodeStep_symbol hin hpad hinverse, ht], htook.goes, htook.ip,
    htook.nb, htook.acc, htook.written⟩

end

/-- Settles O17: both ways to succeed leave everything but the report. -/
theorem groupedDecodersFinish : Obligations.GroupedDecodersFinish :=
  ⟨dec5_decoder.finishSpec, dec6_decoder.finishSpec⟩

/-- Settles O18: a character outside the table has no inverse. -/
theorem groupedDecodersRaise : Obligations.GroupedDecodersRaise :=
  ⟨dec5_decoder.foreignSpec fun _ => rfl, dec6_decoder.foreignSpec fun _ => rfl⟩

/-- Settles O19: a character of the table is not `=`, and its inverse is its place there. -/
theorem groupedDecodersTakeASymbol : Obligations.GroupedDecodersTakeASymbol :=
  ⟨dec5_decoder.symbolSpec (fun _ => rfl) (fun _ => rfl) fun _ h => h.bounds,
    dec6_decoder.symbolSpec (fun _ => rfl) (fun _ => rfl) fun _ h => h.bounds⟩

/-! ### ENC85 (rule R132) -/

/-- Settles O20: a chunk of up to four bytes is taken in, and its text goes out. -/
theorem encode85TakesAChunk : Obligations.Encode85TakesAChunk := by
  intro s ⟨hb, hp, hrun, hip⟩
  obtain ⟨t, ht, htook⟩ := encode85Step_spec hp hrun.fits hip hrun.bounds rfl
  exact ⟨t, (exec_step .enc85 hb hip).trans ht, htook.goes, BitVec.eq_of_toNat_eq htook.nb, htook.ip, htook.acc,
    htook.written⟩

/-- Settles O21: the `end` of ENC85 is `finish()`. -/
theorem encode85Finishes : Obligations.Encode85Finishes := fun _ ⟨hb, _, _, hip⟩ => exec_end .enc85 hb hip

/-! ### DEC85 (rule R142) -/

/-- Settles O22: `z` is taken at a chunk boundary and is an error inside a group. -/
theorem decode85ZeroSymbol : Obligations.Decode85ZeroSymbol := by
  intro s ⟨hb, hp, hrun, hip⟩ hz
  have hin := hip.trans_le hrun.fits
  rw [exec_step .dec85 hb hip]
  by_cases hnb : s.nb = 0
  · obtain ⟨t, ht, htook⟩ := decode85Step_zero hp hin hrun.bounds hz (by simp [hnb])
    refine ⟨t, ht, ?_⟩
    rw [if_pos hnb]
    exact ⟨htook.goes, htook.written, htook.ip, BitVec.eq_of_toNat_eq htook.acc,
      (BitVec.eq_of_toNat_eq htook.nb).trans hnb⟩
  · refine ⟨_, decode85Step_zero_inside hin hz fun h0 => hnb (BitVec.eq_of_toNat_eq h0), ?_⟩
    rw [if_neg hnb]
    exact raises_of_continues .eZpos _ (continues_refl s) rfl

/-- A digit's character is not `z`. -/
theorem ne_zeroChar_of_digit {c : Byte} {d : Nat} (hd : d ≤ 84) (hc : c.toNat = d + 33) : c ≠ zeroChar := by
  rintro rfl
  have hz : zeroChar.toNat = 122 := rfl
  omega

/-- Settles O23: a digit joins a group that it does not fill, completes one in range, and is an error otherwise. -/
theorem decode85Digit : Obligations.Decode85Digit := by
  intro s d ⟨hb, hp, hrun, hip⟩ hd hc
  have hin := hip.trans_le hrun.fits
  have inv : Decode85Inv s := hrun.bounds
  have hdigit : charDigit (s.ibufByte s.ip.toNat) = some d := charDigit_eq_some_iff.2 (by omega)
  have hstep : exec .dec85 s = Machine.decode85Digit d s :=
    (exec_step .dec85 hb hip).trans (decode85Step_digit hin (ne_zeroChar_of_digit hd hc) hdigit)
  rw [hstep]
  rcases inv.nb.lt_or_eq with hlt | hfour
  · obtain ⟨t, ht, htook⟩ := decode85Digit_joins hp hin inv hd hlt
    refine ⟨t, ht, ?_⟩
    rw [if_pos hlt]
    exact ⟨htook.goes, htook.written, htook.ip, htook.nb, htook.acc⟩
  · have hfull : ¬s.nb.toNat < 4 := hfour.not_lt
    by_cases hrange : s.acc.toNat * 85 + d ≤ 0xFFFFFFFF
    · obtain ⟨t, ht, htook⟩ := decode85Digit_completes hp hin inv hfour hrange
      refine ⟨t, ht, ?_⟩
      rw [if_neg hfull, if_pos hrange]
      exact ⟨htook.goes, htook.written, htook.ip, BitVec.eq_of_toNat_eq htook.nb, BitVec.eq_of_toNat_eq htook.acc⟩
    · refine ⟨_, decode85Digit_exceeds hfour (Nat.lt_of_not_le hrange), ?_⟩
      rw [if_neg hfull, if_neg hrange]
      exact raises_of_continues .eRange _ (continues_setAcc _ _ s) rfl

/-- Settles O24: a code outside the digits' range has no digit. -/
theorem decode85ForeignCharacter : Obligations.Decode85ForeignCharacter := by
  rintro s ⟨hb, -, hrun, hip⟩ hz hrange
  have hnone : charDigit (s.ibufByte s.ip.toNat) = none := if_neg (by omega)
  exact ⟨_, (exec_step .dec85 hb hip).trans (decode85Step_foreign (hip.trans_le hrun.fits) hz hnone),
    raises_of_continues .eSym _ (continues_refl s) rfl, ⟨rfl, rfl, rfl, rfl⟩⟩

/-- Settles O25: the last group, filled out in closed form, is written when it is in range. -/
theorem decode85LastGroup : Obligations.Decode85LastGroup := by
  intro s ⟨hb, hp, hrun, hip⟩
  rw [exec_end .dec85 hb hip]
  by_cases hnb : s.nb = 0
  · refine ⟨_, decode85End_empty (by simp [hnb]), ?_⟩
    rw [if_pos hnb]
    exact ⟨finishes_of_continues (continues_refl s), rfl, rfl⟩
  · have hpos : 0 < s.nb.toNat := Nat.pos_of_ne_zero fun h0 => hnb (BitVec.eq_of_toNat_eq h0)
    have hfill := fillGroup_eq (5 - s.nb.toNat) s.acc.toNat
    by_cases hrange : s.acc.toNat * 85 ^ (5 - s.nb.toNat) + (85 ^ (5 - s.nb.toNat) - 1) ≤ 0xFFFFFFFF
    · obtain ⟨u, hu, htook⟩ := decode85End_group hp (hip.trans_le hrun.fits) hrun.bounds hpos hfill hrange
      refine ⟨_, hu, ?_⟩
      rw [if_neg hnb, if_pos hrange]
      exact ⟨finishes_of_continues htook.goes, emitted_finished htook.written⟩
    · refine ⟨_, decode85End_exceeds hpos hfill (Nat.lt_of_not_le hrange), ?_⟩
      rw [if_neg hnb, if_neg hrange]
      exact raises_of_continues .eRange _ (continues_setAcc _ _ s) rfl

end Sys2Proof.Proofs
end

section
/-! PROOFS. The containers (spec/30_encoding.md; rules R52, R53, R79, R89, R92, R114, R133, R136, R141): the refused
words, the lengths and characters of the containers, messages in pieces, and single groups. -/

namespace Sys2Proof.Proofs

open Sys2Proof.Machine Sys2Proof.Certificates

/-! ### The refused command words (rules R79, R80) -/

theorem fieldRsv_eq_zero_iff (v : Word) : fieldRsv v = 0 ↔ v.toNat < 8 := by
  have hv := v.isLt
  rw [← BitVec.toNat_inj, fieldRsv, BitVec.extractLsb'_toNat, Nat.shiftRight_eq_div_pow]
  change v.toNat / 2 ^ 3 % 2 ^ 29 = 0 ↔ _
  omega

theorem fieldCodec_eq_three_iff (v : Word) : fieldCodec v = 3 ↔ v.toNat / 2 % 4 = 3 := by
  rw [← BitVec.toNat_inj, fieldCodec, BitVec.extractLsb'_toNat, Nat.shiftRight_eq_div_pow]
  rfl

theorem decode_reservedBits_iff {v : Word} : decode v = .error .reservedBits ↔ fieldRsv v ≠ 0 := by
  refine ⟨fun h h0 => ?_, decode_reservedBits⟩
  cases hsel : selectOperation (fieldCodec v) (fieldDir v) with
  | none => rw [decode_reservedCodec h0 hsel] at h; cases h
  | some i => rw [decode_eq_ok_iff.2 ⟨h0, hsel⟩] at h; cases h

theorem decode_reservedCodec_iff {v : Word} :
    decode v = .error .reservedCodec ↔ fieldRsv v = 0 ∧ fieldCodec v = 3 := by
  refine ⟨fun h => ?_, fun ⟨h0, h3⟩ => decode_reservedCodec h0 (selectOperation_eq_none_iff.2 h3)⟩
  have h0 : fieldRsv v = 0 := by
    by_contra hne
    rw [decode_reservedBits hne] at h
    cases h
  cases hsel : selectOperation (fieldCodec v) (fieldDir v) with
  | none => exact ⟨h0, selectOperation_eq_none_iff.1 hsel⟩
  | some i => rw [decode_eq_ok_iff.2 ⟨h0, hsel⟩] at h; cases h

/-- Settles O3: each refusal is a test of `RSV` and `CODEC`, and these are the word's ranges. -/
theorem illegalWordsAreNamed : Obligations.IllegalWordsAreNamed := by
  intro v
  have hillegal : illegalCommand v = true ↔ fieldRsv v ≠ 0 ∨ fieldCodec v = 3 := illegalCommand_iff
  rw [hillegal, decode_reservedBits_iff, decode_reservedCodec_iff, ne_eq, fieldRsv_eq_zero_iff,
    fieldCodec_eq_three_iff]
  refine ⟨?_, ?_, ?_⟩ <;> omega

/-! ### The length and the characters of a bit-grouped container (rules R89, R114) -/

theorem encodeGrouped_length {g : Grouped} (hg : FillsFrame g) (m : List Byte) :
    (encodeGrouped g m).length = symbolCount g.width m.length +
      (g.frame - symbolCount g.width m.length % g.frame) % g.frame := by
  rw [encodeGrouped_eq, List.length_append, encodeSymbols_length, List.length_replicate, hg]

theorem encodeGrouped5_length (p : Params) (m : List Byte) :
    (encodeGrouped (grouped5 p) m).length = 8 * ((m.length + 4) / 5) := by
  have h := encodeGrouped_length (grouped5_fillsFrame p) m
  simp only [grouped5, symbolCount] at h ⊢
  omega

theorem encodeGrouped6_length (p : Params) (m : List Byte) :
    (encodeGrouped (grouped6 p) m).length = 4 * ((m.length + 2) / 3) := by
  have h := encodeGrouped_length (grouped6_fillsFrame p) m
  simp only [grouped6, symbolCount] at h ⊢
  omega

/-- Settles O34: the symbols and the padding that fills their last frame. -/
theorem encodedLength : Obligations.EncodedLength := fun p m => ⟨encodeGrouped5_length p m, encodeGrouped6_length p m⟩

theorem encodeSymbols_mem {g : Grouped} (hg : DecoderFamily g) (m : List Byte) (count : Nat) :
    ∀ c ∈ encodeSymbols g m count, c ∈ g.table := by
  intro c hc
  obtain ⟨k, -, rfl⟩ := List.mem_map.1 hc
  exact List.mem_of_getElem? (forward_eq hg (bitsValue_lt _ _ _))

theorem lack_eq_zero_iff {frame : Nat} (h : 0 < frame) (count : Nat) :
    (frame - count % frame) % frame = 0 ↔ count % frame = 0 := by
  have hlt := Nat.mod_lt count h
  by_cases h0 : count % frame = 0
  · simp [h0]
  · rw [Nat.mod_eq_of_lt (by omega)]
    omega

/-- A container is symbols of the alphabet and then padding, none when the symbols fill whole frames (rule R114). -/
theorem encodeGrouped_alphabet {g : Grouped} (hg : DecoderFamily g) (hfills : FillsFrame g) (hpos : 0 < g.frame)
    (m : List Byte) :
    ∃ symbols k, encodeGrouped g m = symbols ++ List.replicate k padChar ∧
      symbols.length = symbolCount g.width m.length ∧ (∀ c ∈ symbols, c ∈ g.table) ∧
      (k = 0 ↔ symbols.length % g.frame = 0) := by
  refine ⟨_, _, encodeGrouped_eq g m, encodeSymbols_length _ _ _, encodeSymbols_mem hg m _, ?_⟩
  rw [hfills, encodeSymbols_length]
  exact lack_eq_zero_iff hpos _

/-- Settles O35, for both families. -/
theorem encodedAlphabet : Obligations.EncodedAlphabet := fun p m hwf =>
  ⟨encodeGrouped_alphabet (grouped5_decoderFamily hwf) (grouped5_fillsFrame p) (Nat.zero_lt_succ 7) m,
    encodeGrouped_alphabet (grouped6_decoderFamily hwf) (grouped6_fillsFrame p) (Nat.zero_lt_succ 3) m⟩

/-! ### A message in pieces (rule R52) -/

theorem streamBit_append_left {a : List Byte} (b : List Byte) {t : Nat} (h : t < 8 * a.length) :
    streamBit (a ++ b) t = streamBit a t := by
  rw [streamBit, List.getD_append _ _ _ _ (Nat.div_lt_of_lt_mul h), streamBit]

theorem streamBit_append_right (a b : List Byte) (t : Nat) : streamBit (a ++ b) (8 * a.length + t) = streamBit b t := by
  rw [streamBit, Nat.mul_add_div (by decide), Nat.mul_add_mod, List.getD_append_right _ _ _ _ (Nat.le_add_right _ _),
    Nat.add_sub_cancel_left, streamBit]

/-- A stretch read from a place where another stream continues. -/
theorem bitsValue_shift {bit bit' : Nat → Bool} {start start' : Nat} (n : Nat)
    (h : ∀ j, bit (start + j) = bit' (start' + j)) : bitsValue bit start n = bitsValue bit' start' n := by
  induction n with
  | zero => rfl
  | succ n ih => rw [bitsValue_succ, bitsValue_succ, ih, h]

section
variable {g : Grouped} (hw : 0 < g.width) {a : List Byte} {frames : Nat}
  (hwhole : 8 * a.length = g.width * (g.frame * frames)) (b : List Byte)
include hwhole

/-- The windows of the first piece are its own, and behind it stand the windows of the second. -/
theorem encodeSymbols_append (count : Nat) :
    encodeSymbols g (a ++ b) (g.frame * frames + count) =
      encodeSymbols g a (g.frame * frames) ++ encodeSymbols g b count := by
  rw [encodeSymbols_add]
  refine congrArg₂ (· ++ ·) (List.map_congr_left fun k hk => ?_) (List.map_congr_left fun k _ => ?_)
  · have hwindow : (k + 1) * g.width ≤ 8 * a.length := by
      rw [hwhole, Nat.mul_comm]
      exact Nat.mul_le_mul_left _ (List.mem_range.1 hk)
    rw [Nat.succ_mul] at hwindow
    rw [bitsValue_congr fun j hj => streamBit_append_left b (by omega)]
  · rw [← hwhole, Nat.mul_comm k]
    exact congrArg g.forward (bitsValue_shift _ fun j => by rw [Nat.add_assoc, streamBit_append_right])

include hw

/-- Behind whole frames the symbols are counted anew. -/
theorem symbolCount_append (n : Nat) :
    symbolCount g.width (a.length + n) = g.frame * frames + symbolCount g.width n := by
  rw [symbolCount, Nat.mul_add, hwhole, Nat.add_assoc, Nat.mul_add_div hw, symbolCount]

theorem symbolCount_whole : symbolCount g.width a.length = g.frame * frames := by
  have h := symbolCount_append hw hwhole 0
  rwa [symbolCount_eq hw 0, Nat.mul_zero, Nat.zero_div, Nat.zero_mod, if_pos rfl] at h

/-- A message may be cut behind whole frames. -/
theorem encodeGrouped_append (hfills : FillsFrame g) :
    encodeGrouped g (a ++ b) = encodeGrouped g a ++ encodeGrouped g b := by
  have hpad : g.padCount (g.frame * frames) = 0 := by
    rw [← symbolCount_whole hw hwhole, hfills, symbolCount_whole hw hwhole, Nat.mul_mod_right, Nat.sub_zero,
      Nat.mod_self]
  have hrest (n : Nat) : g.padCount (g.frame * frames + n) = g.padCount n := by
    rw [Grouped.padCount, Nat.mul_add_mod, Grouped.padCount]
  rw [encodeGrouped_eq, List.length_append, symbolCount_append hw hwhole, encodeSymbols_append hwhole, hrest,
    encodeGrouped_eq g a, symbolCount_whole hw hwhole, hpad, List.replicate_zero, List.append_nil, encodeGrouped_eq g b,
    List.append_assoc]

end

/-- Settles O38: 5 bytes are a frame of ENC5, 3 bytes one of ENC6, and 4 bytes a chunk of ENC85. -/
theorem encodingInPieces : Obligations.EncodingInPieces := by
  refine fun p a b => ⟨fun h5 => ?_, fun h3 => ?_, encode85_append⟩
  · have hwhole : 8 * a.length = 5 * (8 * (a.length / 5)) := by omega
    exact encodeGrouped_append (g := grouped5 p) (Nat.zero_lt_succ 4) hwhole b (grouped5_fillsFrame p)
  · have hwhole : 8 * a.length = 6 * (4 * (a.length / 3)) := by omega
    exact encodeGrouped_append (g := grouped6 p) (Nat.zero_lt_succ 5) hwhole b (grouped6_fillsFrame p)

/-! ### The base-85 container, chunk by chunk (rules R92, R131, R133, R136) -/

/-- What holds of every short chunk and is carried on by a full chunk in front holds of every message. -/
theorem chunk_induction {P : List Byte → Prop} (short : ∀ c, c.length < 4 → P c)
    (full : ∀ c rest, c.length = 4 → P rest → P (c ++ rest)) (m : List Byte) : P m := by
  induction hn : m.length using Nat.strong_induction_on generalizing m with
  | _ n ih =>
    rcases Nat.lt_or_ge m.length 4 with hlt | hge
    · exact short m hlt
    · rw [← List.take_append_drop 4 m]
      exact full _ _ (by simpa using hge) (ih (m.drop 4).length (by simp; omega) _ rfl)

theorem encode85_fullChunk {c : List Byte} (h : c.length = 4) (rest : List Byte) :
    encode85 (c ++ rest) = chunkText c ++ encode85 rest := by
  rw [encode85_append (by rw [h]), encode85_of_length_le (List.ne_nil_of_length_pos (by omega)) h.le]

/-- The container of a chunk that is not written `z` is digits. -/
theorem chunkText_mem {c : List Byte} (h : ¬(c.length = 4 ∧ chunkSum c = 0)) {x : Byte} (hx : x ∈ chunkText c) :
    ∃ d, d ≤ 84 ∧ x = digitChar d := by
  rw [chunkText_digits h] at hx
  obtain ⟨d, hd, rfl⟩ := List.mem_map.1 hx
  exact ⟨d, leadingDigits_le hd, rfl⟩

theorem chunkText_zero {c : List Byte} (h : c.length = 4 ∧ chunkSum c = 0) : chunkText c = [zeroChar] := if_pos h

theorem chunkText_length {c : List Byte} (h : ¬(c.length = 4 ∧ chunkSum c = 0)) :
    (chunkText c).length = c.length + 1 := by
  rw [chunkText_digits h, List.length_map, leadingDigits_length]

theorem chunkText_count {c : List Byte} (h : ¬(c.length = 4 ∧ chunkSum c = 0)) : (chunkText c).count zeroChar = 0 := by
  refine List.count_eq_zero.2 fun hmem => ?_
  obtain ⟨d, hd, heq⟩ := chunkText_mem h hmem
  exact digitChar_ne_zeroChar hd heq.symm

theorem chunkText_chars {c : List Byte} {x : Byte} (hx : x ∈ chunkText c) :
    x = 0x7A ∨ 33 ≤ x.toNat ∧ x.toNat ≤ 117 := by
  by_cases h : c.length = 4 ∧ chunkSum c = 0
  · rw [chunkText_zero h] at hx
    exact .inl (List.mem_singleton.1 hx)
  · obtain ⟨d, hd, rfl⟩ := chunkText_mem h hx
    rw [digitChar_toNat hd]
    exact .inr (by omega)

/-- A short chunk's container is its text, and nothing for no bytes. -/
theorem encode85_shortChunk {c : List Byte} (h : c.length < 4) :
    encode85 c = if c.length = 0 then [] else chunkText c := by
  split
  case isTrue h0 => rw [List.length_eq_zero_iff.1 h0, encode85_nil]
  case isFalse h0 => exact encode85_of_length_le (fun hnil => h0 (by simp [hnil])) h.le

theorem encode85_chars (m : List Byte) : ∀ x ∈ encode85 m, x = 0x7A ∨ 33 ≤ x.toNat ∧ x.toNat ≤ 117 := by
  induction m using chunk_induction with
  | short c hc =>
    rw [encode85_shortChunk hc]
    split
    · simp
    · exact fun x => chunkText_chars
  | full c rest hc ih =>
    rw [encode85_fullChunk hc]
    intro x hx
    rcases List.mem_append.1 hx with hx | hx
    · exact chunkText_chars hx
    · exact ih x hx

/-! #### The chunks written `z` -/

/-- A full chunk has the value 0 when its bytes are. -/
theorem eq_zeros_iff {c : List Byte} (h : c.length = 4) : c = [0, 0, 0, 0] ↔ chunkSum c = 0 := by
  refine ⟨fun heq => by rw [heq]; rfl, fun h0 => ?_⟩
  have hbytes := bigEndian_chunkSum h.le
  rw [h0, h] at hbytes
  exact hbytes.symm

theorem zeroChunkCount_short {c : List Byte} (h : c.length < 4) : zeroChunkCount c = 0 := by
  rw [zeroChunkCount, Nat.div_eq_of_lt h]
  rfl

/-- A full chunk counts when it is all zero. -/
theorem zeroChunkCount_fullChunk {c : List Byte} (h : c.length = 4) (rest : List Byte) :
    zeroChunkCount (c ++ rest) = zeroChunkCount rest + if chunkSum c = 0 then 1 else 0 := by
  have hcount : (c ++ rest).length / 4 = rest.length / 4 + 1 := by rw [List.length_append, h]; omega
  have hfirst : (List.drop (4 * 0) (c ++ rest)).take 4 = c := by simp [← h]
  have hrest (q : Nat) : List.drop (4 * q.succ) (c ++ rest) = List.drop (4 * q) rest := by
    rw [Nat.mul_succ, Nat.add_comm, ← h, List.drop_length_add_append]
  have hzero : (c == [0, 0, 0, 0]) = decide (chunkSum c = 0) := by
    rw [Bool.eq_iff_iff, beq_iff_eq, decide_eq_true_eq, eq_zeros_iff h]
  rw [zeroChunkCount, hcount, List.range_succ_eq_map, List.filter_cons, hfirst, hzero, List.filter_map, zeroChunkCount]
  simp only [Function.comp_def, hrest]
  by_cases h0 : chunkSum c = 0 <;> simp [h0]

theorem zeroChunkCount_le (m : List Byte) : zeroChunkCount m ≤ m.length / 4 :=
  (List.length_filter_le _ _).trans_eq (List.length_range)

theorem encode85_count (m : List Byte) : (encode85 m).count zeroChar = zeroChunkCount m := by
  induction m using chunk_induction with
  | short c hc =>
    rw [encode85_shortChunk hc, zeroChunkCount_short hc]
    split
    · rfl
    · exact chunkText_count fun hz => hc.ne hz.1
  | full c rest hc ih =>
    rw [encode85_fullChunk hc, List.count_append, ih, zeroChunkCount_fullChunk hc, Nat.add_comm]
    split
    case isTrue h0 => rw [chunkText_zero ⟨hc, h0⟩, List.count_singleton_self]
    case isFalse h0 => rw [chunkText_count fun hz => h0 hz.2]

theorem encode85_length (m : List Byte) : (encode85 m).length =
    5 * (m.length / 4 - zeroChunkCount m) + zeroChunkCount m + if m.length % 4 = 0 then 0 else m.length % 4 + 1 := by
  induction m using chunk_induction with
  | short c hc =>
    rw [encode85_shortChunk hc, zeroChunkCount_short hc, Nat.div_eq_of_lt hc, Nat.mod_eq_of_lt hc, Nat.mul_zero,
      Nat.zero_add]
    split
    · rfl
    · exact chunkText_length fun hz => hc.ne hz.1
  | full c rest hc ih =>
    have hle := zeroChunkCount_le rest
    have hdiv : (4 + rest.length) / 4 = rest.length / 4 + 1 := by omega
    rw [encode85_fullChunk hc, List.length_append, ih, zeroChunkCount_fullChunk hc, List.length_append, hc, hdiv,
      Nat.add_mod_left]
    by_cases h0 : chunkSum c = 0
    · rw [chunkText_zero ⟨hc, h0⟩, List.length_singleton, if_pos h0]
      omega
    · rw [chunkText_length fun hz => h0 hz.2, hc, if_neg h0]
      omega

/-- Settles O36: character by character, `z` by `z` and in length, chunk by chunk. -/
theorem encode85Shape : Obligations.Encode85Shape := fun m =>
  ⟨encode85_chars m, zeroChunkCount_le m, encode85_count m, encode85_length m⟩

/-- Zero bytes in front, four at a time. -/
theorem encode85_zeros (q r : Nat) :
    encode85 (List.replicate (4 * q + r) 0) = List.replicate q zeroChar ++ encode85 (List.replicate r 0) := by
  induction q with
  | zero => simp
  | succ q ih =>
    rw [show 4 * (q + 1) + r = 4 + (4 * q + r) by omega, List.replicate_add, encode85_fullChunk List.length_replicate,
      ih, chunkText_zero ⟨rfl, rfl⟩, List.replicate_succ]
    rfl

/-- Settles O40: the full chunks first, and then one of the four short ones. -/
theorem zeroChunks : Obligations.ZeroChunks := by
  intro n
  have hshort : ∀ r < 4, encode85 (List.replicate r 0) = if r = 0 then [] else List.replicate (r + 1) 0x21 := by decide
  conv_lhs => rw [← Nat.div_add_mod n 4, encode85_zeros, hshort _ (Nat.mod_lt n (by decide))]
  rfl

/-! ### Bounds on the output (rule R53) -/

theorem decodeGrouped_length_le {g : Grouped} {m out : List Byte} (h : decodeGrouped g m = .ok out) :
    out.length ≤ g.width * m.length / 8 := by
  have hscan : (scanned m).length ≤ m.length := (List.takeWhile_sublist _).length_le
  unfold decodeGrouped at h
  split at h
  case h_1 => cases h
  case h_2 =>
    cases h
    rw [regroup_length, List.length_map]
    exact Nat.div_le_div_right (Nat.mul_le_mul_left _ hscan)

theorem outcome_map_eq_ok {o : Outcome} {bs out : List Byte} (h : o.map (bs ++ ·) = .ok out) :
    ∃ rest, o = .ok rest ∧ out = bs ++ rest := by
  cases o with
  | error e => cases h
  | ok rest => cases h; exact ⟨rest, rfl, rfl⟩

/-- Four bytes for each character of the text, those of the group so far included. -/
theorem scan85_length_le {text : List Byte} {pos : Nat} {group : List Nat} {out : List Byte}
    (h : scan85 text pos group = .ok out) (hshort : group.length ≤ 4) :
    out.length ≤ 4 * (text.length + group.length) := by
  induction text generalizing pos group out with
  | nil =>
    by_cases hgroup : group = []
    · subst hgroup
      cases h
      exact Nat.zero_le _
    · have hpos := List.length_pos_iff.2 hgroup
      rw [scan85_last pos hgroup] at h
      split at h
      case isTrue => cases h
      case isFalse =>
        cases h
        have hle := List.length_take_le' (group.length - 1) (bigEndian (groupSum group))
        rw [List.length_nil]
        exact hle.trans (show 4 ≤ _ by omega)
  | cons c rest ih =>
    rw [List.length_cons]
    by_cases hz : c = zeroChar
    · subst hz
      by_cases hgroup : group = []
      · subst hgroup
        rw [scan85_zero] at h
        obtain ⟨tail, htail, rfl⟩ := outcome_map_eq_ok h
        have hlen := ih htail (by simp)
        simp only [List.length_append, List.length_cons, List.length_nil] at hlen ⊢
        omega
      · rw [scan85_zero_inside _ _ hgroup] at h
        cases h
    · cases hc : charDigit c with
      | none =>
        rw [scan85_foreign _ _ hz hc] at h
        cases h
      | some d =>
        rcases hshort.lt_or_eq with hlt | hfour
        · rw [scan85_joins _ _ hz hc hlt] at h
          have hlen := ih h (by simpa using hlt)
          rw [List.length_append, List.length_singleton] at hlen
          omega
        · rcases Nat.lt_or_ge maxGroup (groupSum (group ++ [d])) with hbad | hrange
          · rw [scan85_exceeds _ _ hz hc hfour hbad] at h
            cases h
          · rw [scan85_completes _ _ hz hc hfour hrange] at h
            obtain ⟨tail, htail, rfl⟩ := outcome_map_eq_ok h
            have hlen := ih htail (by simp)
            have hbytes : (bigEndian (groupSum (group ++ [d]))).length = 4 := rfl
            rw [List.length_append, hbytes]
            rw [List.length_nil] at hlen
            omega

/-- The bound of rule R53 on what operation `i` gives for `n` bytes. -/
def outputBound (i : Instr) (n : Nat) : Nat :=
  match i with
  | .enc5 => 8 * ((n + 4) / 5)
  | .enc6 => 4 * ((n + 2) / 3)
  | .enc85 => 5 * (n / 4) + n % 4 + 1
  | .dec5 => 5 * n / 8
  | .dec6 => 6 * n / 8
  | .dec85 => 4 * n

theorem outputBound_le (i : Instr) (n : Nat) : outputBound i n ≤ 4 * n + 4 := by
  cases i <;> simp only [outputBound] <;> omega

theorem outcomeOf_length_le {p : Params} {m out : List Byte} {i : Instr} (h : outcomeOf p m i = .ok out) :
    out.length ≤ outputBound i m.length := by
  cases i with
  | enc5 => cases h; exact (encodeGrouped5_length p m).le
  | enc6 => cases h; exact (encodeGrouped6_length p m).le
  | enc85 =>
    cases h
    have hlen := encode85_length_le m
    rw [outputBound]
    split at hlen <;> omega
  | dec5 => exact decodeGrouped_length_le h
  | dec6 => exact decodeGrouped_length_le h
  | dec85 => exact scan85_length_le h (Nat.zero_le 4)

/-- Settles O37: each bound of its own is at most `4 * n + 4`, which is `OUT_MAX` for a message of `IN_MAX` bytes. -/
theorem outputFits : Obligations.OutputFits := by
  intro p m i out h
  have hbound := outcomeOf_length_le h
  have hfour := hbound.trans (outputBound_le i m.length)
  refine ⟨?_, hfour, fun hfits => ?_⟩
  · cases i <;> exact hbound
  · rw [Params.outMax]
    omega

/-! ### One full group (rules R141, R143) -/

/-- Settles O41: the scan takes in four digits, and the fifth one completes the group. -/
theorem fullGroupRange : Obligations.FullGroupRange := by
  intro d0 d1 d2 d3 d4 h0 h1 h2 h3 h4
  have hfour : ∀ d ∈ [d0, d1, d2, d3], d ≤ 84 := by simp [h0, h1, h2, h3]
  have hscan : decode85 [digitChar d0, digitChar d1, digitChar d2, digitChar d3, digitChar d4] =
      scan85 [digitChar d4] 4 [d0, d1, d2, d3] := scan85_digits [digitChar d4] 0 [] hfour le_rfl
  have hz := digitChar_ne_zeroChar h4
  have hd := charDigit_digitChar h4
  rw [hscan]
  split
  case isTrue hrange =>
    rw [scan85_completes (group := [d0, d1, d2, d3]) [] 4 hz hd rfl hrange]
    rfl
  case isFalse hbad => exact scan85_exceeds (group := [d0, d1, d2, d3]) [] 4 hz hd rfl (Nat.lt_of_not_le hbad)

end Sys2Proof.Proofs
end

section
/-! PROOFS. The step (rules R22, R54, R62, R180): what reset, the engine's turn and the port each do to the block, and
what no step changes. -/

namespace Sys2Proof.Proofs

open Sys2Proof.Machine Sys2Proof.Certificates

/-! ### Reset (rules R34, R180, R181) -/

/-- Settles O4: every field of the reset state as it is written, and unwritten buffers. -/
theorem resetRegisters : Obligations.ResetRegisters :=
  ⟨rfl, rfl, rfl, rfl, rfl, rfl, rfl, rfl, rfl, fun _ => rfl, fun _ => rfl⟩

/-- Where no output is reported, no byte of OBUF can be read (rule R55). -/
theorem portRefuses_rdObuf_of_olen {s : State} (h : s.olen = 0) (j : Nat) : portRefuses (.rdObuf j) s = true :=
  portRefuses_rdObuf.2 (.inl (.inl (by simp [h])))

/-- Settles O5: the step is the reset state, with the next draw and the outside world kept. -/
theorem resetAbandonsEverything : Obligations.ResetAbandonsEverything := fun _ _ hi =>
  ⟨_, step_reset hi, rfl, rfl, rfl, rfl, rfl, State.afterReset_busy _, rfl, rfl, rfl, fun _ => rfl,
    portRefuses_rdObuf_of_olen rfl⟩

/-! ### The engine's turn and the start (rules R22, R80, R168) -/

/-- Settles O6: in both ways the engine moves, it executes the operation in CMD. -/
theorem stepRunsTheCommandInCmd : Obligations.StepRunsTheCommandInCmd := fun s _ rest hb hi =>
  ⟨fun h => (step_engine h).trans (engineTurn_busy (s := s.setInputs rest) hb hi),
    fun h => (step_idle_queue h).trans (engineTurn_busy hb hi)⟩

/-- Settles O7: the word is the operation's command value, and both the step and `exec` are its trigger. -/
theorem stepRunsTheCommandWritten : Obligations.StepRunsTheCommandWritten := by
  intro s i v rest hb hi h
  rw [decode_eq_ok_iff_encode.1 hi] at h
  exact ⟨_, exec_start i (s := s.setInputs rest) hb, step_wrReg_cmd hb h⟩

/-- Settles O8: the engine of an idle block does nothing. -/
theorem idleBlockWaits : Obligations.IdleBlockWaits := fun s rest hb =>
  ⟨fun h => (step_idle_queue h).trans (engineTurn_idle hb),
    fun h => (step_engine h).trans (engineTurn_idle (s := s.setInputs rest) hb)⟩

/-- Settles O10: the trigger of a command value starts the operation or is `E_LEN`. -/
theorem everyOperationStarts : Obligations.EveryOperationStarts := by
  intro i s hb
  rw [exec_start i hb, commandTrigger_encode]
  by_cases hlen : s.ilen.toNat ≤ s.par.inMax
  · rw [if_neg (Nat.not_lt.2 hlen), if_pos hlen]
    rfl
  · rw [if_pos (Nat.lt_of_not_le hlen), if_neg hlen]
    rfl

/-- Settles O11: both exits as they are written, with the STATUS word of each error. -/
theorem exitsReport : Obligations.ExitsReport := by
  refine ⟨finish_eq, fun e pos s => ?_⟩
  cases e <;> rfl

/-! ### What an engine action leaves alone (rules R30, R58) -/

/-- Whatever an engine action does, it writes OBUF only from `OP` on. -/
theorem actionEnd_obufByte {s t : State} (h : ActionEnd s t) (hmax : s.par.outMax < 2 ^ 32) {a : Nat}
    (ha : a < s.op.toNat) : t.obufByte a = s.obufByte a := by
  have hworked : ∀ u, Worked s u → u.obufByte a = s.obufByte a := fun u hu => by
    obtain ⟨_, hem⟩ := hu.emitted hmax
    exact hem.others a (.inl ha)
  cases h with
  | goes h => exact hworked t h
  | finishes u h ht => exact ht ▸ hworked u h
  | raises e pos u h _ _ _ ht => exact ht ▸ hworked u h

/-- Settles O54: every way an engine action can end keeps the host's side and OBUF below `OP`. -/
theorem engineLeavesTheHostSide : Obligations.EngineLeavesTheHostSide := by
  intro i s t hb hp h
  have hend := exec_end_cases hb h
  exact ⟨hend.host, fun a => actionEnd_obufByte hend (Params.sized_outMax hp)⟩

theorem engineTurn_hostSideSame {s t : State} (h : engineTurn s = .next t) : HostSideSame s t := by
  obtain ⟨-, rfl⟩ | ⟨i, hb, -, hexec⟩ := engineTurn_cases h
  · exact (Worked.refl _).host
  · exact (exec_end_cases hb hexec).host

/-! ### How a run ends (rules R35, R150, R155, R156) -/

/-- The engine's action leads out of BUSY only by `finish()` or by an error of a scan. -/
theorem status_of_actionEnd {s t : State} (h : ActionEnd s t) (hb : s.busy = true) (hbt : t.busy = false) :
    t.status = 0x02 ∨ t.status = 0x14 ∨ t.status = 0x24 ∨ t.status = 0x34 := by
  cases h with
  | goes h =>
    have hbusy : t.busy = true := by rw [State.busy, h.report.status]; exact hb
    exact (not_busy_and_idle hbusy hbt).elim
  | finishes u _ ht => exact .inl (ht ▸ rfl)
  | raises e pos u _ _ he _ ht =>
    subst ht
    rcases he with rfl | rfl | rfl
    · exact .inr (.inl rfl)
    · exact .inr (.inr (.inl rfl))
    · exact .inr (.inr (.inr rfl))

theorem status_of_engineTurn {s t : State} (h : engineTurn s = .next t) (hb : s.busy = true) (hbt : t.busy = false) :
    t.status = 0x02 ∨ t.status = 0x14 ∨ t.status = 0x24 ∨ t.status = 0x34 := by
  obtain ⟨hidle, -⟩ | ⟨i, -, -, hexec⟩ := engineTurn_cases h
  · exact (not_busy_and_idle hb hidle).elim
  · exact status_of_actionEnd (exec_end_cases hb hexec) hb hbt

/-- Settles O55: a transaction leaves a BUSY block BUSY, so it was reset or the engine's turn. -/
theorem waysOutOfBusy : Obligations.WaysOutOfBusy := by
  intro s t hb h hbt
  obtain ⟨hi, hturn⟩ | ⟨rest, hi, hturn⟩ | ⟨q, rest, -, htxn⟩ | ⟨rest, hi, -⟩ := step_cases h
  · exact .inr ⟨.inl hi, status_of_engineTurn hturn hb hbt⟩
  · exact .inr ⟨.inr ⟨rest, hi⟩, status_of_engineTurn hturn hb hbt⟩
  · rw [transact_busy q (s := s.setInputs rest) hb] at htxn
    cases htxn
    exact (not_busy_and_idle hb hbt).elim
  · exact .inl ⟨rest, hi⟩

/-- Settles O56: of the ways an action can end, only an error of a scan sets ERR; its position is in the message. -/
theorem errorsShowNoOutput : Obligations.ErrorsShowNoOutput := by
  intro i s t hs hb hi h herr
  have hrun := runInv_of_busy hs hb hi
  have hend := exec_end_cases hb h
  have hhost := hend.host
  cases hend with
  | goes hw =>
    have hstatus : t.status = statusBusy := hw.report.status.trans (status_of_busy hs.status hb)
    rw [State.err, hstatus] at herr
    exact absurd herr (by decide)
  | finishes u hw ht =>
    subst ht
    exact absurd (show statusDone.getLsbD 2 = true from herr) (by decide)
  | raises e pos u hw _ _ hp ht =>
    subst ht
    have hpos := errorPos_lt hrun hp
    refine ⟨rfl, ?_, hhost, State.raised_busy e pos u, portRefuses_rdObuf_of_olen rfl⟩
    rw [hhost.ilen, State.raised_epos, BitVec.toNat_ofNat, Nat.mod_eq_of_lt (hpos.trans s.ilen.isLt)]
    exact hpos

/-! ### What no step changes (rules R7, R30, R32, R34) -/

/-- Every transaction keeps the parameters, the draw of the free values, and each cell of IBUF that it does not
write. -/
theorem transact_keeps {q : Transaction} {s t : State} (h : transact q s = .next t) :
    t.par = s.par ∧ ∀ i, (∀ b, q ≠ .wrIbuf i b) → t.ibufByte i = s.ibufByte i := by
  obtain ⟨-, rfl⟩ | ⟨-, ⟨k, -, rfl⟩ | ⟨i, -, rfl⟩ | ⟨j, -, rfl⟩ | ⟨v, -, rfl⟩ | ⟨k, b, hq, -, rfl⟩ |
      ⟨v, u, -, hb, hu, rfl⟩⟩ := transact_cases h
  case inr.inr.inr.inr.inr.inl =>
    refine ⟨rfl, fun i hi => State.storeIbuf_ibufByte_other s k i b fun hik => hi b (by rw [hq, hik])⟩
  case inr.inr.inr.inr.inr.inr =>
    rw [writeCommand_eq hb fun _ => decode_eq_ok_iff_encode.1] at hu
    cases hu
    have hlatched := commandTrigger_latched v s
    refine ⟨hlatched.par, fun i _ => ?_⟩
    rw [State.pushAnswer_ibufByte, State.ibufByte, hlatched.ibuf, hlatched.resets, State.ibufByte]
  all_goals exact ⟨rfl, fun _ _ => rfl⟩

/-- Settles O58: the engine writes no cell of IBUF, and a transaction only the one it names. -/
theorem ibufIsStable : Obligations.IbufIsStable := by
  intro s t i h hwrite hreset
  obtain ⟨-, hturn⟩ | ⟨rest, -, hturn⟩ | ⟨q, rest, hi, htxn⟩ | ⟨rest, hi, -⟩ := step_cases h
  · exact ibufByte_of_hostSideSame (engineTurn_hostSideSame hturn) i
  · exact ibufByte_of_hostSideSame (engineTurn_hostSideSame hturn) i
  · exact (transact_keeps htxn).2 i fun b hq => hwrite b rest (hq ▸ hi)
  · exact absurd hi (hreset rest)

/-- Settles O59: the engine, the port and reset each keep the parameters. -/
theorem parametersAreConstant : Obligations.ParametersAreConstant := by
  intro s t h
  obtain ⟨-, hturn⟩ | ⟨rest, -, hturn⟩ | ⟨q, rest, -, htxn⟩ | ⟨rest, -, rfl⟩ := step_cases h
  · exact (engineTurn_hostSideSame hturn).par
  · exact (engineTurn_hostSideSame hturn).par
  · exact (transact_keeps htxn).1
  · rfl

/-! ### The port (rules R54, R56, R188, R192) -/

/-- Settles O45: while BUSY each transaction leaves nothing but its answer. -/
theorem hostCannotDisturbARun : Obligations.HostCannotDisturbARun := by
  intro s qs hb
  induction qs generalizing s with
  | nil => exact ⟨[], rfl, by simp [Host.Core.run]⟩
  | cons q rest ih =>
    have hstep : step { s with inputs := (q :: rest).map .txn ++ s.inputs } = .next
        { s.pushAnswer (busyAnswer q s) with inputs := rest.map .txn ++ s.inputs } :=
      (step_txn rfl).trans (transact_busy q (s := s.setInputs (rest.map .txn ++ s.inputs)) hb)
    obtain ⟨as, hlen, hrun⟩ := ih (s.pushAnswer (busyAnswer q s)) hb
    refine ⟨busyAnswer q s :: as, congrArg Nat.succ hlen, ?_⟩
    rw [List.length_cons, run_succ _ hstep]
    refine hrun.trans ?_
    rw [State.pushAnswer_answers, List.append_assoc, List.singleton_append]
    rfl

section
variable {s : State} (hb : s.busy = false)
include hb

theorem portServes_rdReg {k : Nat} (hk : k < 5) : portRefuses (.rdReg k) s = false :=
  Bool.eq_false_iff.2 fun h => by
    rcases portRefuses_rdReg.1 h with h5 | ⟨hbusy, -⟩
    · omega
    · exact not_busy_and_idle hbusy hb

theorem portServes_rdIbuf {i : Nat} (hi : i < s.par.inMax) : portRefuses (.rdIbuf i) s = false :=
  Bool.eq_false_iff.2 fun h => by
    rcases portRefuses_rdIbuf.1 h with hle | hbusy
    · omega
    · exact not_busy_and_idle hbusy hb

theorem portServes_wrIbuf {i : Nat} (b : Byte) (hi : i < s.par.inMax) : portRefuses (.wrIbuf i b) s = false :=
  portServes_rdIbuf hb hi

theorem portServes_rdObuf {j : Nat} (hj : j < s.olen.toNat) (hmax : j < s.par.outMax) :
    portRefuses (.rdObuf j) s = false :=
  Bool.eq_false_iff.2 fun h => by
    rcases portRefuses_rdObuf.1 h with hle | hbusy
    · omega
    · exact not_busy_and_idle hbusy hb

theorem transact_wrReg_ilen (v : Word) : transact (.wrReg 2 v) s = .next ((s.setIlen v).pushAnswer .ok) :=
  transact_wrReg (by simp [portRefuses, hb]) rfl

end

/-- The five registers in the order of their numbers (rule R24). -/
theorem regValue_of_getElem? {k : Nat} {v : Word} {s : State}
    (h : [s.cmd, s.status, s.ilen, s.olen, s.epos][k]? = some v) : k < 5 ∧ regValue k s = v := by
  match k with
  | 0 | 1 | 2 | 3 | 4 => cases h; exact ⟨by decide, rfl⟩
  | k + 5 => simp at h

/-- Settles O46: each read is served and leaves its answer. -/
theorem portReads : Obligations.PortReads := by
  refine fun s rest hb => ⟨fun k v hk hi => ?_, fun i hlt hi => ?_, fun j hlt hmax hi => ?_⟩
  · obtain ⟨hk, hv⟩ := regValue_of_getElem? hk
    refine ⟨_, (step_txn hi).trans (transact_rdReg (portServes_rdReg (s := s.setInputs rest) hb hk)), ?_⟩
    rw [← hv]
    rfl
  · exact ⟨_, (step_txn hi).trans (transact_rdIbuf (portServes_rdIbuf (s := s.setInputs rest) hb hlt)), rfl⟩
  · exact ⟨_, (step_txn hi).trans (transact_rdObuf (portServes_rdObuf (s := s.setInputs rest) hb hlt hmax)), rfl⟩

/-- Settles O47: each write is served, and a write of IBUF changes the one cell. -/
theorem portWrites : Obligations.PortWrites := by
  refine fun s rest hb => ⟨fun v hi => ?_, fun i b hlt hi => ?_⟩
  · exact (step_txn hi).trans (transact_wrReg_ilen (s := s.setInputs rest) hb v)
  · exact ⟨_, (step_txn hi).trans (transact_wrIbuf (portServes_wrIbuf (s := s.setInputs rest) hb b hlt)), rfl,
      State.storeIbuf_ibufByte_same (s.setInputs rest) i b,
      fun k hk => State.storeIbuf_ibufByte_other (s.setInputs rest) i k b hk⟩

end Sys2Proof.Proofs
end

section
/-! PROOFS. LOAD, FETCH and MOVE in an idle block (rule R98): the states that their writes and reads leave, however the
host's transactions and the engine's turns fall. -/

namespace Sys2Proof.Proofs

open Sys2Proof.Machine Sys2Proof.Certificates

/-! ### The writes of LOAD -/

/-- The block after the bytes are written to IBUF from index `i` on, each write answered `OK`. -/
def written : Nat → List Byte → State → State
  | _, [], s => s
  | i, b :: rest, s => written (i + 1) rest ((s.storeIbuf i b).pushAnswer .ok)

/-- The writes change IBUF and are answered `OK`; nothing else changes. -/
theorem written_frame (i : Nat) (bytes : List Byte) (s : State) :
    written i bytes s =
      { s with ibuf := (written i bytes s).ibuf, answers := s.answers ++ List.replicate bytes.length .ok } := by
  induction bytes generalizing i s with
  | nil => simp [written]
  | cons b rest ih =>
    rw [written, ih, List.length_cons, List.replicate_succ, List.append_cons s.answers]
    rfl

theorem written_busy (i : Nat) (bytes : List Byte) (s : State) : (written i bytes s).busy = s.busy := by
  rw [written_frame]
  rfl

/-- The writes from `i` on leave the cells below `i` alone. -/
theorem written_below {i k : Nat} (bytes : List Byte) (s : State) (h : k < i) :
    (written i bytes s).ibufByte k = s.ibufByte k := by
  induction bytes generalizing i s with
  | nil => rfl
  | cons b rest ih =>
    rw [written, ih _ (Nat.lt_succ_of_lt h), State.pushAnswer_ibufByte, State.storeIbuf_ibufByte_other _ _ _ _ h.ne]

/-- Each byte is in its cell. -/
theorem written_ibufByte (i : Nat) {bytes : List Byte} (s : State) {j : Nat} (h : j < bytes.length) :
    (written i bytes s).ibufByte (i + j) = bytes[j] := by
  induction bytes generalizing i s j with
  | nil => cases h
  | cons b rest ih =>
    cases j with
    | zero => exact (written_below rest _ (Nat.lt_succ_self i)).trans (State.storeIbuf_ibufByte_same s i b)
    | succ j =>
      rw [written, show i + (j + 1) = i + 1 + j by omega, ih (i + 1) _ (Nat.lt_of_succ_lt_succ h)]
      rfl

/-- The block after LOAD: the bytes in IBUF, and their number in ILEN. -/
def loaded (bytes : List Byte) (s : State) : State :=
  ((written 0 bytes s).setIlen (BitVec.ofNat 32 bytes.length)).pushAnswer .ok

theorem loaded_frame (bytes : List Byte) (s : State) :
    loaded bytes s =
      { s with
        ilen := BitVec.ofNat 32 bytes.length, ibuf := (loaded bytes s).ibuf,
        answers := s.answers ++ List.replicate (bytes.length + 1) .ok } := by
  rw [loaded, written_frame, List.replicate_succ', ← List.append_assoc]
  rfl

/-- What is loaded is the message. -/
theorem loaded_message {bytes : List Byte} (s : State) (h : bytes.length < 2 ^ 32) :
    (loaded bytes s).message = bytes := by
  have hilen : (loaded bytes s).ilen.toNat = bytes.length := by
    rw [loaded_frame, BitVec.toNat_ofNat, Nat.mod_eq_of_lt h]
  refine List.ext_getElem (by rw [message_length, hilen]) fun j _ hj => ?_
  have hbyte := written_ibufByte 0 s hj
  rw [Nat.zero_add] at hbyte
  simp only [State.message, List.getElem_map, List.getElem_range]
  rw [loaded, State.pushAnswer_ibufByte, State.setIlen_ibufByte, hbyte]

/-! ### LOAD as a list of inputs -/

section
variable {s : State} (hb : s.busy = false)
include hb

/-- The writes of IBUF, before what the host does next. -/
theorem run_writeBytes {i : Nat} {bytes : List Byte} (hfits : i + bytes.length ≤ s.par.inMax) (k : Nat)
    (more : List Input) :
    core.run (bytes.length + k) (s.setInputs (scriptInputs (writeBytes i bytes) ++ more)) =
      core.run k ((written i bytes s).setInputs more) := by
  induction bytes generalizing i s with
  | nil => rw [List.length_nil, Nat.zero_add]; rfl
  | cons b rest ih =>
    rw [List.length_cons] at hfits ⊢
    have hstep : step (s.setInputs (scriptInputs (writeBytes i (b :: rest)) ++ more)) =
        .next (((s.storeIbuf i b).pushAnswer .ok).setInputs (scriptInputs (writeBytes (i + 1) rest) ++ more)) :=
      (step_txn rfl).trans (transact_wrIbuf
        (portServes_wrIbuf (s := s.setInputs (scriptInputs (writeBytes (i + 1) rest) ++ more)) hb b
          (show i < s.par.inMax by omega)))
    rw [show rest.length + 1 + k = rest.length + k + 1 by omega, run_succ _ hstep]
    exact ih (s := (s.storeIbuf i b).pushAnswer .ok) hb (show i + 1 + rest.length ≤ s.par.inMax by omega)

theorem run_scriptLoad {bytes : List Byte} (hfits : bytes.length ≤ s.par.inMax) :
    core.run (bytes.length + 1) (s.setInputs (scriptInputs (scriptLoad bytes))) =
      .next ((loaded bytes s).setInputs []) := by
  have hlast : step ((written 0 bytes s).setInputs [.txn (.wrReg 2 (BitVec.ofNat 32 bytes.length))]) =
      .next ((loaded bytes s).setInputs []) :=
    (step_txn rfl).trans (transact_wrReg_ilen (s := (written 0 bytes s).setInputs [])
      ((written_busy 0 bytes s).trans hb) _)
  have hsplit : scriptInputs (scriptLoad bytes) =
      scriptInputs (writeBytes 0 bytes) ++ [.txn (.wrReg 2 (BitVec.ofNat 32 bytes.length))] := List.map_append
  rw [hsplit, run_writeBytes hb (by rwa [Nat.zero_add]), run_succ 0 hlast]
  rfl

end

/-- Settles O48: the writes leave the bytes in their cells and their number in ILEN. -/
theorem loadPlacesTheMessage : Obligations.LoadPlacesTheMessage := by
  intro s bytes hp hb hfits
  refine ⟨_, run_scriptLoad hb hfits, loaded_message s (hfits.trans_lt (sized_inMax_lt hp)), ?_, rfl, ?_⟩
  · rw [State.setInputs_status, loaded_frame]
  · rw [State.setInputs_answers, loaded_frame]

/-! ### FETCH -/

/-- The answers that reads of the cells `js` of OBUF are given. -/
def byteAnswers (s : State) (js : List Nat) : List Answer := js.map fun j => .okByte (s.obufByte j)

theorem append_byteAnswers_nil (answers : List Answer) (s : State) : answers ++ byteAnswers s [] = answers :=
  List.append_nil answers

theorem append_byteAnswers_cons (answers : List Answer) (s : State) (j : Nat) (rest : List Nat) :
    answers ++ byteAnswers s (j :: rest) = answers ++ [.okByte (s.obufByte j)] ++ byteAnswers s rest :=
  List.append_cons answers _ _

/-- The answers of a whole FETCH. -/
def fetchAnswers (s : State) : List Answer := .okWord s.olen :: byteAnswers s (List.range s.olen.toNat)

theorem fetchAnswers_eq (s : State) : fetchAnswers s = .okWord s.olen :: s.result.map .okByte := by
  rw [fetchAnswers, byteAnswers, State.result, List.map_map]
  rfl

section
variable {s : State} (hb : s.busy = false)
include hb

theorem transact_rdReg_olen (inputs : List Input) (answers : List Answer) :
    transact (.rdReg 3) (withWorld inputs answers s) = .next (withWorld inputs (answers ++ [.okWord s.olen]) s) :=
  transact_rdReg (portServes_rdReg (s := withWorld inputs answers s) hb (by decide))

variable {js : List Nat} (hjs : ∀ j ∈ js, j < s.olen.toNat) (hmax : s.olen.toNat ≤ s.par.outMax)
include hmax

theorem transact_rdObuf_result {j : Nat} (hj : j < s.olen.toNat) (inputs : List Input) (answers : List Answer) :
    transact (.rdObuf j) (withWorld inputs answers s) =
      .next (withWorld inputs (answers ++ [.okByte (s.obufByte j)]) s) :=
  transact_rdObuf (portServes_rdObuf (s := withWorld inputs answers s) hb hj (hj.trans_le hmax))

include hjs

/-- The reads of OBUF as a list of inputs. -/
theorem run_rdObuf (answers : List Answer) :
    core.run js.length (withWorld (js.map fun j => .txn (.rdObuf j)) answers s) =
      .next (withWorld [] (answers ++ byteAnswers s js) s) := by
  induction js generalizing answers with
  | nil => rw [append_byteAnswers_nil]; rfl
  | cons j rest ih =>
    have hstep := (step_txn (s := withWorld ((j :: rest).map fun j => .txn (.rdObuf j)) answers s) rfl).trans
      (transact_rdObuf_result hb hmax (hjs j List.mem_cons_self) (rest.map fun j => .txn (.rdObuf j)) answers)
    rw [List.length_cons, run_succ _ hstep, ih fun k hk => hjs k (List.mem_cons_of_mem _ hk), append_byteAnswers_cons]

/-- The reads of OBUF answer by answer. -/
theorem hostRead_idle (pauses : List Nat) (inputs : List Input) (answers : List Answer) :
    hostRead pauses js (withWorld inputs answers s) =
      .done (withWorld inputs (answers ++ byteAnswers s js) s) (js.map s.obufByte) := by
  induction js generalizing pauses answers with
  | nil => rw [append_byteAnswers_nil]; rfl
  | cons j rest ih =>
    have hsend := send_idle (pauses.headD 0) (s := withWorld inputs answers s) hb
      (transact_rdObuf_result hb hmax (hjs j List.mem_cons_self) inputs answers)
    have hlast : (withWorld inputs (answers ++ [.okByte (s.obufByte j)]) s).answers.getLastD .nak =
        .okByte (s.obufByte j) := by simp [withWorld]
    rw [hlast] at hsend
    rw [hostRead, hsend, Dialogue.andThen_done]
    simp only
    rw [ih fun k hk => hjs k (List.mem_cons_of_mem _ hk), Dialogue.andThen_done, append_byteAnswers_cons,
      List.map_cons]

end

section
variable {s : State} (hb : s.busy = false) (hmax : s.olen.toNat ≤ s.par.outMax)
include hb hmax

theorem run_scriptFetch :
    core.run (s.olen.toNat + 1) (withWorld (scriptInputs (scriptFetch s.olen.toNat)) s.answers s) =
      .next (withWorld [] (s.answers ++ fetchAnswers s) s) := by
  have hinputs : scriptInputs (scriptFetch s.olen.toNat) =
      .txn (.rdReg 3) :: (List.range s.olen.toNat).map fun j => .txn (.rdObuf j) := by
    rw [scriptInputs, scriptFetch, List.map_cons, List.map_map]
    rfl
  have hstep := (step_txn (s := withWorld (scriptInputs (scriptFetch s.olen.toNat)) s.answers s) hinputs).trans
    (transact_rdReg_olen hb _ s.answers)
  have hreads := run_rdObuf hb (js := List.range s.olen.toNat) (fun j => List.mem_range.1) hmax
    (s.answers ++ [.okWord s.olen])
  rw [List.length_range] at hreads
  rw [run_succ _ hstep, hreads, fetchAnswers, ← List.append_cons]

/-- FETCH in an idle block: the result, and nothing changed but the answers. -/
theorem hostFetch_idle (pauses : List Nat) :
    hostFetch pauses s = .done (withWorld s.inputs (s.answers ++ fetchAnswers s) s) s.result := by
  have hsend := send_idle (pauses.headD 0) hb (transact_rdReg_olen hb s.inputs s.answers)
  have hlast : (withWorld s.inputs (s.answers ++ [.okWord s.olen]) s).answers.getLastD .nak = .okWord s.olen := by
    simp [withWorld]
  rw [hlast] at hsend
  rw [hostFetch, hsend, Dialogue.andThen_done]
  simp only
  rw [hostRead_idle hb (fun j => List.mem_range.1) hmax, fetchAnswers, ← List.append_cons]
  rfl

end

/-! ### LOAD answer by answer, and MOVE -/

/-- The writes of IBUF do not keep the host from going on to the next transactions. -/
theorem hostAll_writeBytes {i : Nat} {bytes : List Byte} {more : List Transaction} {s t : State} (hb : s.busy = false)
    (hfits : i + bytes.length ≤ s.par.inMax)
    (hmore : ∀ pauses, ∃ as, hostAll pauses more (written i bytes s) = .done t as) (pauses : List Nat) :
    ∃ as, hostAll pauses (writeBytes i bytes ++ more) s = .done t as := by
  induction bytes generalizing i s pauses with
  | nil => exact hmore pauses
  | cons b rest ih =>
    rw [List.length_cons] at hfits
    have hserved := portServes_wrIbuf hb b (show i < s.par.inMax by omega)
    have hsend := send_idle (pauses.headD 0) hb (transact_wrIbuf hserved)
    obtain ⟨as, has⟩ := ih (s := (s.storeIbuf i b).pushAnswer .ok) hb
      (show i + 1 + rest.length ≤ s.par.inMax by omega) hmore pauses.tail
    exact ⟨.ok :: as, by
      rw [writeBytes, List.cons_append, hostAll, hsend, State.pushAnswer_last, Dialogue.andThen_done, has,
        Dialogue.andThen_done]⟩

theorem hostLoad_idle {bytes : List Byte} {s : State} (hb : s.busy = false) (hfits : bytes.length ≤ s.par.inMax)
    (pauses : List Nat) : ∃ as, hostLoad pauses bytes s = .done (loaded bytes s) as := by
  refine hostAll_writeBytes hb (by rwa [Nat.zero_add]) (fun pauses => ⟨[.ok], ?_⟩) pauses
  have hbw : (written 0 bytes s).busy = false := (written_busy 0 bytes s).trans hb
  rw [hostAll, send_idle _ hbw (transact_wrReg_ilen hbw _), State.pushAnswer_last]
  rfl

/-- Settles O49: FETCH reads the result, and MOVE loads what FETCH read; neither touches the engine's side. -/
theorem fetchAndMoveTheResult : Obligations.FetchAndMoveTheResult := by
  intro s hb hmax
  rw [← fetchAnswers_eq]
  refine ⟨run_scriptFetch hb hmax, fun pauses => ⟨hostFetch_idle hb hmax pauses, fun hp hfits => ?_⟩⟩
  have hlength : s.result.length ≤ s.par.inMax := by simpa [State.result] using hfits
  obtain ⟨as, hload⟩ := hostLoad_idle (s := withWorld s.inputs (s.answers ++ fetchAnswers s) s) hb hlength
    (pauses.drop (s.result.length + 1))
  have hframe := loaded_frame s.result (withWorld s.inputs (s.answers ++ fetchAnswers s) s)
  have hsame : EngineSideSame s (loaded s.result (withWorld s.inputs (s.answers ++ fetchAnswers s) s)) := by
    rw [hframe]
    exact engineSideSame_update s _ _ _ _
  refine ⟨_, ?_, loaded_message _ (hlength.trans_lt (sized_inMax_lt hp)), hsame.result, hsame.report, hsame.cmd, ?_, ?_,
    ?_⟩
  · rw [hostMove, hostFetch_idle hb hmax, Dialogue.andThen_done, hload, Dialogue.andThen_done]
  · rw [hframe]; rfl
  · rw [hframe]; rfl
  · rw [hframe]; rfl

end Sys2Proof.Proofs
end
